-- ==== Sys2Proof/Word.lean ====
section
/-! DEFINITION. The word types of the block (spec rules R8, R10): bit vectors with bit 0 least significant. -/

namespace Sys2Proof

/-- A binary32 bit pattern (R10): two values are the same state only if their patterns are equal. -/
abbrev F32 := BitVec 32

/-- A binary64 bit pattern (R10). -/
abbrev F64 := BitVec 64

/-- A 48-bit command word `CMD` (R8, R73). -/
abbrev Cmd := BitVec 48

end Sys2Proof
end

