-- ==== Sys2Proof/Syntax.lean ====
section
/-! DEFINITION. The eight commands (R2, Table R77): what stands in the place of an instruction set. -/

namespace Sys2Proof

/-- One command with its operands. Every operand has exactly the width of its field in Table R73 and every
pattern of it is legal (R74), so no term of this type is ill-formed: what can be ill-formed is a command WORD
(see `legalWord`). -/
inductive Instr where
  /-- `RST` (R91): every register to its reset value. -/
  | rst
  /-- `WR idx, data` (R92): write one configuration or coefficient register. -/
  | wr (idx : BitVec 8) (data : F32)
  /-- `RD idx` (R93): read one register. -/
  | rd (idx : BitVec 8)
  /-- `INIT` (R94): validate, derive `SPB`, open the stream. -/
  | init
  /-- `PUSH x` (R151): one sample. -/
  | push (x : F32)
  /-- `FLUSH` (R152): end the stream. -/
  | flush
  /-- `ENC x` (R175): quantize a binary32 value. -/
  | enc (x : F32)
  /-- `DEC c` (R176): the binary32 value of a code. -/
  | dec (code : BitVec 8)
deriving DecidableEq, Repr

end Sys2Proof
end

