-- ==== Sys2Proof/WellFormed.lean ====
section
/-! DEFINITION. Which command words are legal, by the mask and match columns of Table R77. The decoder works from
the fields and formats of Table R73 instead: that the two agree is a statement, not a definition. -/

namespace Sys2Proof

/-- One row of Table R77: a word `w` is this command exactly when `w AND mask = bits`. -/
structure OpcodeRow where
  mnemonic : String
  mask : Cmd
  bits : Cmd
deriving DecidableEq, Repr

/-- Table R77. -/
def opcodeRows : List OpcodeRow :=
  [ ⟨"RST",   0xFFFFFFFFFFFF#48, 0x010000000000#48⟩,
    ⟨"WR",    0xFF0000000000#48, 0x020000000000#48⟩,
    ⟨"RD",    0xFF00FFFFFFFF#48, 0x030000000000#48⟩,
    ⟨"INIT",  0xFFFFFFFFFFFF#48, 0x040000000000#48⟩,
    ⟨"PUSH",  0xFFFF00000000#48, 0x050000000000#48⟩,
    ⟨"FLUSH", 0xFFFFFFFFFFFF#48, 0x060000000000#48⟩,
    ⟨"ENC",   0xFFFF00000000#48, 0x070000000000#48⟩,
    ⟨"DEC",   0xFFFFFFFFFF00#48, 0x080000000000#48⟩ ]

/-- The word matches the row (R77). -/
def OpcodeRow.matchesWord (r : OpcodeRow) (w : Cmd) : Bool := w &&& r.mask == r.bits

/-- The word is one of the eight commands (R77); every other word is illegal (R78). -/
def legalWord (w : Cmd) : Bool := opcodeRows.any (·.matchesWord w)

/-- The row of an instruction in Table R77. -/
def Instr.mnemonic : Instr → String
  | .rst => "RST"
  | .wr _ _ => "WR"
  | .rd _ => "RD"
  | .init => "INIT"
  | .push _ => "PUSH"
  | .flush => "FLUSH"
  | .enc _ => "ENC"
  | .dec _ => "DEC"

end Sys2Proof
end

