-- ==== Sys2Proof/Decode.lean ====
section
/-! DEFINITION. Command words to instructions (R73, R77, R78, R81) and back, the byte order of a host that stores
command and response words in bytes (R52), and the two pseudo-commands (R83). -/

namespace Sys2Proof

/-- `op = CMD[47:40]` (Table R73). -/
def opField (w : Cmd) : BitVec 8 := w.extractLsb' 40 8

/-- `idx = CMD[39:32]` (Table R73). -/
def idxField (w : Cmd) : BitVec 8 := w.extractLsb' 32 8

/-- `data = CMD[31:0]` (Table R73). -/
def dataField (w : Cmd) : BitVec 32 := w.extractLsb' 0 32

/-- `data[7:0]`, the code of format `B` (Table R73). -/
def codeField (w : Cmd) : BitVec 8 := w.extractLsb' 0 8

/-- `data[31:8]`, which format `B` reserves (Table R73). -/
def upperDataField (w : Cmd) : BitVec 24 := w.extractLsb' 8 24

/-- Why a word is no command (R78). Either way the block raises `Err(ILLEGAL)` with detail `CMD[47:40]`. -/
inductive IllegalWord where
  /-- `op` is 0x00 or 0x09..0xFF. -/
  | unknownOpcode (op : BitVec 8)
  /-- `op` is one of the eight, and a field that its format does not use is not zero. -/
  | reservedNotZero (op : BitVec 8)
deriving DecidableEq, Repr

/-- What a word decodes to. -/
abbrev Decoded := Except IllegalWord Instr

/-- The instruction `i` if the reserved fields of its format are zero, else the word is illegal (R73, R78). -/
def ifReservedZero (w : Cmd) (zero : Bool) (i : Instr) : Decoded :=
  if zero then .ok i else .error (.reservedNotZero (opField w))

/-- Reserved fields of format `N`: `idx` and `data`. -/
def reservedZeroN (w : Cmd) : Bool := idxField w == 0 && dataField w == 0

/-- Reserved field of format `I`: `data`. -/
def reservedZeroI (w : Cmd) : Bool := dataField w == 0

/-- Reserved field of format `D`: `idx`. -/
def reservedZeroD (w : Cmd) : Bool := idxField w == 0

/-- Reserved fields of format `B`: `idx` and `data[31:8]`. -/
def reservedZeroB (w : Cmd) : Bool := idxField w == 0 && upperDataField w == 0

/-- The decoder: total on the 2^48 words, the same in every phase (R80). The opcode picks the command (Table R77),
the command's format says which fields must be zero (Table R73; format `ID` reserves none). -/
def decode (w : Cmd) : Decoded :=
  let op := opField w
  if op = 0x01#8 then ifReservedZero w (reservedZeroN w) .rst
  else if op = 0x02#8 then .ok (.wr (idxField w) (dataField w))
  else if op = 0x03#8 then ifReservedZero w (reservedZeroI w) (.rd (idxField w))
  else if op = 0x04#8 then ifReservedZero w (reservedZeroN w) .init
  else if op = 0x05#8 then ifReservedZero w (reservedZeroD w) (.push (dataField w))
  else if op = 0x06#8 then ifReservedZero w (reservedZeroN w) .flush
  else if op = 0x07#8 then ifReservedZero w (reservedZeroD w) (.enc (dataField w))
  else if op = 0x08#8 then ifReservedZero w (reservedZeroB w) (.dec (codeField w))
  else .error (.unknownOpcode op)

/-- `op ‖ idx ‖ data` (Table R73). -/
def packWord (op idx : BitVec 8) (data : BitVec 32) : Cmd := op ++ idx ++ data

/-- The encoder, from the words that the command rules give (R91 to R94, R151, R152, R175, R176). -/
def encode : Instr → Cmd
  | .rst => packWord 0x01#8 0#8 0#32
  | .wr idx data => packWord 0x02#8 idx data
  | .rd idx => packWord 0x03#8 idx 0#32
  | .init => packWord 0x04#8 0#8 0#32
  | .push x => packWord 0x05#8 0#8 x
  | .flush => packWord 0x06#8 0#8 0#32
  | .enc x => packWord 0x07#8 0#8 x
  | .dec c => packWord 0x08#8 0#8 (0#24 ++ c)

/-- The `n` low bytes of a value as a host stores them (R52): byte `i` is bits `8i+7 : 8i`. -/
def littleEndian {w : Nat} (n : Nat) (v : BitVec w) : List (BitVec 8) :=
  (List.range n).map fun i => v.extractLsb' (8 * i) 8

/-- The value of `w` bits whose bytes these are, in little-endian order (R52): a byte beyond the width is not part of
it and a missing byte is zero. -/
def ofLittleEndian (w : Nat) : List (BitVec 8) → BitVec w
  | [] => 0
  | b :: bs => b.setWidth w ||| (ofLittleEndian w bs <<< 8)

/-- The six bytes of a command word (R52). -/
def bytesOfWord (w : Cmd) : List (BitVec 8) := littleEndian 6 w

/-- The command word of six bytes (R52). -/
def wordOfBytes (bs : List (BitVec 8)) : Cmd := ofLittleEndian 48 bs

/-- The eight bytes of `RSP.data` (R52). -/
def bytesOfData (v : BitVec 64) : List (BitVec 8) := littleEndian 8 v

/-- `RSP.data` of eight bytes (R52). -/
def dataOfBytes (bs : List (BitVec 8)) : BitVec 64 := ofLittleEndian 64 bs

/-- The decoder on the bytes of a host's memory (R52). -/
def decodeBytes (bs : List (BitVec 8)) : Decoded := decode (wordOfBytes (bs.take 6))

/-- Little-endian bytes of a natural number, the least significant first. -/
def bytesOfNat : Nat → Nat → List (BitVec 8)
  | 0, _ => []
  | n + 1, w => BitVec.ofNat 8 w :: bytesOfNat n (w / 256)

/-- The instruction that the decoder reads from the `nbits` low bits `w` of a command (all above them zero). -/
def decodeTableWord (nbits w : Nat) : Option Instr :=
  if nbits ≤ 48 then (decodeBytes (bytesOfNat 6 (w % 2 ^ nbits))).toOption else none

/-- The coefficient sets as `LDCOEF` names them (R14, R83). -/
inductive CoefSet where
  | llp | lhp | hlp | hhp
deriving DecidableEq, Repr

/-- Index `c` of a coefficient set (R14). -/
def CoefSet.number : CoefSet → Nat
  | .llp => 0
  | .lhp => 1
  | .hlp => 2
  | .hhp => 3

/-- `LDCOEF set, b0, b1, b2, a1, a2` (R83): five `WR` commands in this order. -/
def ldcoef (c : CoefSet) (b0 b1 b2 a1 a2 : F32) : List Instr :=
  let reg (k : Nat) := BitVec.ofNat 8 (0x10 + 8 * c.number + k)
  [.wr (reg 0) b0, .wr (reg 1) b1, .wr (reg 2) b2, .wr (reg 3) a1, .wr (reg 4) a2]

/-- `LDCFG sr, bps, llp, lhp, hlp, hhp` (R83): six `WR` commands in this order. -/
def ldcfg (sr bps llp lhp hlp hhp : F32) : List Instr :=
  [.wr 0x00#8 sr, .wr 0x01#8 bps, .wr 0x02#8 llp, .wr 0x03#8 lhp, .wr 0x04#8 hlp, .wr 0x05#8 hhp]

end Sys2Proof
end

