-- ==== Sys2Proof/Config.lean ====
section
/-! DEFINITION. The free values: what the spec leaves open. None has a body, so no proof can learn its value;
each is applied to a counter of the state, so that every occurrence is a fresh draw. -/

namespace Sys2Proof.Config

/-- The sign and payload of the binary32 NaN that the `k`-th draw produces (R12, U1). Only the sign bit and the
low 22 fraction bits of it are used: the exponent and the quiet bit are fixed by R12. DESIGN CHOICE, log entry 1,
safe. -/
opaque nan32 : Nat → BitVec 32

/-- The sign and payload of the binary64 NaN that the `k`-th draw produces (R12, U1). DESIGN CHOICE, log entry 1,
safe. -/
opaque nan64 : Nat → BitVec 64

/-- The code that the encoder returns for a NaN operand at the `k`-th draw (R171, R173, U2). DESIGN CHOICE, log
entry 2, safe. -/
opaque nanCode : Nat → BitVec 8

/-- How many cycles the block takes over its `k`-th command, after accepting it: "a finite, otherwise
unspecified number of cycles" (R72). Only the port layer uses it. Log entry 7. -/
opaque execCycles : Nat → Nat

/-- How many cycles the block takes to raise `cmd_ready`, after reset or after a delivered response (R71, R215).
Only the port layer uses it. Log entry 7. -/
opaque readyCycles : Nat → Nat

end Sys2Proof.Config
end

