-- ==== Sys2Proof/Machine/Float.lean ====
section
/-! DEFINITION. The floating-point primitives of R11: each computes the exact real result and rounds it once to
nearest, ties to even. A primitive that produces a NaN returns a quiet NaN whose sign and payload are the `k`-th
draw (R12), so every primitive that can do so takes the draw's index `k` first.

A finite value is held exactly, as a sign and a natural number of UNITS, the unit being the format's smallest
subnormal (2^-149 for binary32, 2^-1074 for binary64): every finite value of the format is such a number. That the
formats are the IEEE 754 interchange formats is the spec's own statement from general knowledge (R10, G1): PRESUMED,
log entry 8, unsafe. -/

namespace Sys2Proof.Machine

/-- An IEEE 754 interchange format: a sign bit, `expBits` exponent bits, `fracBits` fraction bits (R10). -/
structure FloatFormat where
  expBits : Nat
  fracBits : Nat
deriving DecidableEq, Repr

/-- f32 (R10). -/
def binary32 : FloatFormat := ⟨8, 23⟩

/-- f64 (R10). -/
def binary64 : FloatFormat := ⟨11, 52⟩

/-- The unit of the format is `2 ^ -unitExp`: 149 for binary32, 1074 for binary64. -/
def FloatFormat.unitExp (F : FloatFormat) : Nat := 2 ^ (F.expBits - 1) - 2 + F.fracBits

/-- The pattern of +infinity without its sign bit: exponent all ones, fraction zero. -/
def FloatFormat.infBits (F : FloatFormat) : Nat := (2 ^ F.expBits - 1) * 2 ^ F.fracBits

/-- The sign bit. -/
def FloatFormat.signBit (F : FloatFormat) : Nat := 2 ^ (F.expBits + F.fracBits)

/-- What a pattern stands for (R10). -/
inductive FpValue where
  | nan
  | inf (neg : Bool)
  /-- `±mag` units. -/
  | finite (neg : Bool) (mag : Nat)
deriving DecidableEq, Repr

/-- The value of a pattern (R10). -/
def FloatFormat.classify (F : FloatFormat) (bits : Nat) : FpValue :=
  let frac := bits % 2 ^ F.fracBits
  let exp := bits / 2 ^ F.fracBits % 2 ^ F.expBits
  let neg := bits / F.signBit % 2 == 1
  if exp = 2 ^ F.expBits - 1 then
    if frac = 0 then .inf neg else .nan
  else if exp = 0 then .finite neg frac
  else .finite neg ((2 ^ F.fracBits + frac) * 2 ^ (exp - 1))

/-- The exact result of an operation, before rounding: `±num/den` units of the destination format. -/
inductive ExactResult where
  | nan
  | inf (neg : Bool)
  | ratio (neg : Bool) (num den : Nat)
deriving DecidableEq, Repr

/-- Whether a quotient that leaves the remainder `rem` of `step` is rounded up: to nearest, ties to even. -/
def roundsUp (q rem step : Nat) : Bool := 2 * rem > step || (2 * rem == step && q % 2 == 1)

/-- `num/den` units rounded to the format (R11), as a pattern without its sign bit. `shift` is the number of
doublings from the unit to the spacing of the values around `num/den`; consecutive patterns are consecutive
values, so adding `q` to `shift * 2^fracBits` gives the pattern also where `q` is rounded up into the next binade.
What would lie beyond the largest finite value is +infinity. -/
def FloatFormat.roundRatio (F : FloatFormat) (num den : Nat) : Nat :=
  let shift := (num / den).log2 - F.fracBits
  let step := den * 2 ^ shift
  let q := num / step
  let q' := if roundsUp q (num % step) step then q + 1 else q
  min (shift * 2 ^ F.fracBits + q') F.infBits

/-- The largest natural number whose square is at most `n`, found bit by bit: bits `b-1 .. 0` below the bits
already in `q`. -/
def sqrtBits (n : Nat) : Nat → Nat → Nat
  | 0, q => q
  | b + 1, q => if (q + 2 ^ b) * (q + 2 ^ b) ≤ n then sqrtBits n b (q + 2 ^ b) else sqrtBits n b q

/-- The integer square root. -/
def isqrt (n : Nat) : Nat := sqrtBits n (n.log2 / 2 + 1) 0

/-- The square root of `v`, in units, rounded to the format (R11): as `roundRatio`, `sqrt v / 2^shift` lying above
`q + 1/2` exactly when `4 v > (2 q + 1)^2 * 4^shift`. -/
def FloatFormat.roundSqrt (F : FloatFormat) (v : Nat) : Nat :=
  let shift := v.log2 / 2 - F.fracBits
  let q := isqrt (v / 4 ^ shift)
  let half := (2 * q + 1) * (2 * q + 1) * 4 ^ shift
  let q' := if 4 * v > half || (4 * v == half && q % 2 == 1) then q + 1 else q
  min (shift * 2 ^ F.fracBits + q') F.infBits

/-- A pattern from its sign and the rest. -/
def FloatFormat.withSign (F : FloatFormat) (neg : Bool) (bits : Nat) : Nat :=
  if neg then F.signBit + bits else bits

/-- An exact result as a pattern of the format; a NaN takes the pattern `nanBits`. -/
def FloatFormat.deliver (F : FloatFormat) (nanBits : Nat) : ExactResult → Nat
  | .nan => nanBits
  | .inf neg => F.withSign neg F.infBits
  | .ratio neg num den => F.withSign neg (F.roundRatio num den)

/-- The number as an integer of units. -/
def signedMag (neg : Bool) (mag : Nat) : Int := if neg then -(mag : Int) else mag

/-- The value with its sign turned. -/
def FpValue.negate : FpValue → FpValue
  | .nan => .nan
  | .inf neg => .inf (!neg)
  | .finite neg mag => .finite (!neg) mag

/-- The exact sum (R11): a sum of two zeros of unlike sign, or of opposite numbers, is +0; `inf - inf` is
invalid (R12). -/
def exactAdd : FpValue → FpValue → ExactResult
  | .nan, _ => .nan
  | .inf _, .nan => .nan
  | .inf n, .inf m => if n = m then .inf n else .nan
  | .inf n, .finite _ _ => .inf n
  | .finite _ _, .nan => .nan
  | .finite _ _, .inf m => .inf m
  | .finite n a, .finite m b =>
    if n = m then .ratio n (a + b) 1
    else if a = b then .ratio false 0 1
    else if b < a then .ratio n (a - b) 1
    else .ratio m (b - a) 1

/-- The exact product of two values of format `F` (R11), in units of `F`; `0 * inf` is invalid (R12). -/
def exactMul (F : FloatFormat) : FpValue → FpValue → ExactResult
  | .nan, _ => .nan
  | .inf _, .nan => .nan
  | .inf n, .inf m => .inf (n != m)
  | .inf n, .finite m b => if b = 0 then .nan else .inf (n != m)
  | .finite _ _, .nan => .nan
  | .finite n a, .inf m => if a = 0 then .nan else .inf (n != m)
  | .finite n a, .finite m b => .ratio (n != m) (a * b) (2 ^ F.unitExp)

/-- The exact quotient of two values of format `F` (R11), in units of `F`; `0/0` and `inf/inf` are invalid (R12),
and a finite non-zero number over a zero is an infinity. -/
def exactDiv (F : FloatFormat) : FpValue → FpValue → ExactResult
  | .nan, _ => .nan
  | .inf _, .nan => .nan
  | .inf _, .inf _ => .nan
  | .inf n, .finite m _ => .inf (n != m)
  | .finite _ _, .nan => .nan
  | .finite n _, .inf m => .ratio (n != m) 0 1
  | .finite n a, .finite m b =>
    if b = 0 then (if a = 0 then .nan else .inf (n != m))
    else .ratio (n != m) (a * 2 ^ F.unitExp) b

/-- IEEE quiet "less than" on numeric value: false if either is a NaN; `-0` and `+0` are equal (R11). -/
def FpValue.lt : FpValue → FpValue → Bool
  | .nan, _ => false
  | .inf _, .nan => false
  | .inf n, .inf m => n && !m
  | .inf n, .finite _ _ => n
  | .finite _ _, .nan => false
  | .finite _ _, .inf m => !m
  | .finite n a, .finite m b => signedMag n a < signedMag m b

/-- Not a NaN. -/
def FpValue.isNumber : FpValue → Bool
  | .nan => false
  | .inf _ => true
  | .finite _ _ => true

/-- IEEE quiet "at most" (R11). -/
def FpValue.le (a b : FpValue) : Bool := a.isNumber && b.isNumber && !b.lt a

/-! ### The primitives on bit patterns -/

/-- The value of a binary32 pattern. -/
def value32 (a : F32) : FpValue := binary32.classify a.toNat

/-- The value of a binary64 pattern. -/
def value64 (a : F64) : FpValue := binary64.classify a.toNat

/-- The quiet binary32 NaN of the `k`-th draw (R12): exponent all ones, top fraction bit 1, the rest free. -/
def quietNan32 (k : Nat) : F32 := Config.nan32 k ||| 0x7FC00000#32

/-- The quiet binary64 NaN of the `k`-th draw (R12). -/
def quietNan64 (k : Nat) : F64 := Config.nan64 k ||| 0x7FF8000000000000#64

/-- An exact result as a binary32 pattern. -/
def deliver32 (k : Nat) (r : ExactResult) : F32 :=
  match r with
  | .nan => quietNan32 k
  | .inf neg => BitVec.ofNat 32 (binary32.deliver 0 (.inf neg))
  | .ratio neg num den => BitVec.ofNat 32 (binary32.deliver 0 (.ratio neg num den))

/-- An exact result as a binary64 pattern. -/
def deliver64 (k : Nat) (r : ExactResult) : F64 :=
  match r with
  | .nan => quietNan64 k
  | .inf neg => BitVec.ofNat 64 (binary64.deliver 0 (.inf neg))
  | .ratio neg num den => BitVec.ofNat 64 (binary64.deliver 0 (.ratio neg num den))

/-- `f32add` (R11). -/
def f32add (k : Nat) (a b : F32) : F32 := deliver32 k (exactAdd (value32 a) (value32 b))

/-- `f32sub` (R11). -/
def f32sub (k : Nat) (a b : F32) : F32 := deliver32 k (exactAdd (value32 a) (value32 b).negate)

/-- `f32mul` (R11). -/
def f32mul (k : Nat) (a b : F32) : F32 := deliver32 k (exactMul binary32 (value32 a) (value32 b))

/-- `f32div` (R11). -/
def f32div (k : Nat) (a b : F32) : F32 := deliver32 k (exactDiv binary32 (value32 a) (value32 b))

/-- `f64add` (R11). -/
def f64add (k : Nat) (a b : F64) : F64 := deliver64 k (exactAdd (value64 a) (value64 b))

/-- `f64mul` (R11). -/
def f64mul (k : Nat) (a b : F64) : F64 := deliver64 k (exactMul binary64 (value64 a) (value64 b))

/-- `f64div` (R11). -/
def f64div (k : Nat) (a b : F64) : F64 := deliver64 k (exactDiv binary64 (value64 a) (value64 b))

/-- `f64sqrt` (R11): the root of a zero is that zero, of a negative non-zero number a NaN (R12). The root of
`mag` units of `2^-1074` is the root of `mag * 2^1074` of those units. -/
def f64sqrt (k : Nat) (a : F64) : F64 :=
  match value64 a with
  | .nan => quietNan64 k
  | .inf neg => if neg then quietNan64 k else a
  | .finite neg mag =>
    if mag = 0 then a
    else if neg then quietNan64 k
    else BitVec.ofNat 64 (binary64.roundSqrt (mag * 2 ^ binary64.unitExp))

/-- `f32abs` (R11): clear bit 31, also of a NaN. -/
def f32abs (a : F32) : F32 := a &&& 0x7FFFFFFF#32

/-- `f32floor` (R11): the largest integral value at most `a`; zeros and infinities are their own. -/
def f32floor (k : Nat) (a : F32) : F32 :=
  match value32 a with
  | .nan => quietNan32 k
  | .inf _ => a
  | .finite neg mag =>
    let one := 2 ^ binary32.unitExp
    let n := if neg then (mag + (one - 1)) / one else mag / one
    deliver32 k (.ratio neg (n * one) 1)

/-- `f32to64` (R11), exact. -/
def f32to64 (k : Nat) (a : F32) : F64 :=
  match value32 a with
  | .nan => quietNan64 k
  | .inf neg => deliver64 k (.inf neg)
  | .finite neg mag => deliver64 k (.ratio neg (mag * 2 ^ (binary64.unitExp - binary32.unitExp)) 1)

/-- `f64to32` (R11). -/
def f64to32 (k : Nat) (a : F64) : F32 :=
  match value64 a with
  | .nan => quietNan32 k
  | .inf neg => deliver32 k (.inf neg)
  | .finite neg mag => deliver32 k (.ratio neg mag (2 ^ (binary64.unitExp - binary32.unitExp)))

/-- An unsigned integer as binary32, rounded: exact below 2^24 (R179). -/
def natTof32 (n : Nat) : F32 := BitVec.ofNat 32 (binary32.roundRatio (n * 2 ^ binary32.unitExp) 1)

/-- An unsigned integer as binary64, rounded: exact below 2^53 (R179). -/
def natTof64 (n : Nat) : F64 := BitVec.ofNat 64 (binary64.roundRatio (n * 2 ^ binary64.unitExp) 1)

/-- `u8tof32` (R11), exact. -/
def u8tof32 (c : BitVec 8) : F32 := natTof32 c.toNat

/-- `u32tof64` (R11), exact. -/
def u32tof64 (n : BitVec 32) : F64 := natTof64 n.toNat

/-- `isNaN32` (R11): exponent all ones and fraction not zero. -/
def isNaN32 (a : F32) : Bool := a.extractLsb' 23 8 == 0xFF#8 && a.extractLsb' 0 23 != 0#23

/-- `isFinite32` (R11): exponent not all ones. -/
def isFinite32 (a : F32) : Bool := a.extractLsb' 23 8 != 0xFF#8

/-- `a < b` (R11). -/
def f32lt (a b : F32) : Bool := (value32 a).lt (value32 b)

/-- `a <= b` (R11). -/
def f32le (a b : F32) : Bool := (value32 a).le (value32 b)

/-- `a > b` (R11). -/
def f32gt (a b : F32) : Bool := f32lt b a

/-- `a >= b` (R11). -/
def f32ge (a b : F32) : Bool := f32le b a

/-- `f32maxnum` (R11). -/
def f32maxnum (a b : F32) : F32 :=
  if isNaN32 b then a else if isNaN32 a then b else if f32ge a b then a else b

/-- The integer equal to an integral non-negative binary32 value (R171); 0 for what has none. -/
def natOfF32 (a : F32) : Nat :=
  match value32 a with
  | .nan => 0
  | .inf _ => 0
  | .finite _ mag => mag / 2 ^ binary32.unitExp

/-! ### Constants (R13, R7) -/

/-- `+0.0` -/
def f32Zero : F32 := 0x00000000#32
/-- `1.0` -/
def f32One : F32 := 0x3F800000#32
/-- `F_MIN_HZ`, 20.0 -/
def f32Twenty : F32 := 0x41A00000#32
/-- `MIN_SAMPLES_PER_BIN`, 64.0 -/
def f32SixtyFour : F32 := 0x42800000#32
/-- `DEC_DIVISOR`, 255.0 -/
def f32TwoFiftyFive : F32 := 0x437F0000#32
/-- `ENC_SCALE`, 256.0 -/
def f32TwoFiftySix : F32 := 0x43800000#32
/-- `F_MAX_HZ`, 20000.0 -/
def f32TwentyThousand : F32 := 0x469C4000#32
/-- `+0.0` in binary64 -/
def f64Zero : F64 := 0x0000000000000000#64
/-- `SQRT2_64`, the binary64 value nearest to the square root of 2 -/
def f64Sqrt2 : F64 := 0x3FF6A09E667F3BCD#64

end Sys2Proof.Machine
end

