-- ==== Sys2Proof/Machine/State.lean ====
section
/-! DEFINITION. The state of one AVC block: the 56 registers of Table R21, the two ports as sequences, and the
counter of the free values. Plain data. -/

namespace Sys2Proof.Machine

/-- A response: `RSP.kind` and `RSP.data` (R75). -/
structure Response where
  kind : BitVec 4
  data : BitVec 64
deriving DecidableEq, Repr

/-- What the host can do to the block between two commands: present a command word (R71) or assert `rst` for a
clock edge (R215). -/
inductive HostInput where
  | command (w : Cmd)
  | reset
deriving DecidableEq, Repr

/-- The configuration registers `CFG` (R22). -/
structure Cfg where
  /-- `SR`, `sample_rate_hz`. -/
  sr : F32
  /-- `BPS`, `bins_per_second`. -/
  bps : F32
  /-- `F_LLP`, crossover frequency `low_lp`. -/
  fLlp : F32
  /-- `F_LHP`, crossover frequency `low_hp`. -/
  fLhp : F32
  /-- `F_HLP`, crossover frequency `high_lp`. -/
  fHlp : F32
  /-- `F_HHP`, crossover frequency `high_hp`. -/
  fHhp : F32
deriving DecidableEq, Repr

/-- The state (R20). Everything up to `errstat` is a register of Table R21. The last three fields are the model's:
what the ports carry, which the spec keeps outside the registers (R34, R225), and the draw counter. -/
structure State where
  cfg : Cfg
  /-- `COEF[c][k]` (R23). -/
  coef : Vector (Vector F32 5) 4
  /-- `Z[s][j]` (R24). -/
  z : Vector (Vector F32 2) 8
  /-- `PEAK[b]` (R25). -/
  peak : Vector F32 4
  /-- `RMSSUM[b]` (R26). -/
  rmsSum : Vector F64 4
  /-- `SPB` (R27). -/
  spb : F32
  /-- `PEND` (R28). -/
  pend : F32
  /-- `NACC` (R29). -/
  nacc : BitVec 32
  /-- `LASTN` (R30). -/
  lastn : BitVec 32
  /-- `PHASE` (R31). -/
  phase : BitVec 2
  /-- `ERRSTAT` (R32). -/
  errstat : BitVec 6
  /-- How many free values have been drawn (R12, R173): the next draw is `Config.nan32 draws` and so on. The model's
  own field: DESIGN CHOICE, log entry 3, unsafe only for a claim that rests on its value. -/
  draws : Nat
  /-- What the host will still present on the command port and the reset input, in order (R51, R57). The model's own field:
  DESIGN CHOICE, log entry 4, safe. -/
  inputs : List HostInput
  /-- The responses delivered so far, the newest first (R58). The model's own field: DESIGN CHOICE, log entry 5,
  safe. -/
  rsps : List Response
deriving DecidableEq, Repr

/-- The block never stops: no command sequence makes it stuck, and every error is a response, after which the next
command is taken (R190, R225; "Nothing in AVC has the treatment `stuck`"). So no reason for a fault exists. DEDUCED, log entry
11, safe. -/
inductive Fault where
deriving DecidableEq, Repr

/-- Why the model gives an instruction no meaning. -/
inductive Refusal where
  /-- Raised only by an arm of `exec` whose instruction has no meaning yet. Safe. No arm raises it. -/
  | notModelled (mnemonic : String)
deriving DecidableEq, Repr

/-- The reset state (R35, R215): every register is zero. No input is waiting, no response has been delivered, no
value has been drawn (DESIGN CHOICE, log entries 3 to 5). The state before the first reset is not represented
(log entry 9). -/
def State.reset : State where
  cfg := ⟨0, 0, 0, 0, 0, 0⟩
  coef := .replicate 4 (.replicate 5 0)
  z := .replicate 8 (.replicate 2 0)
  peak := .replicate 4 0
  rmsSum := .replicate 4 0
  spb := 0
  pend := 0
  nacc := 0
  lastn := 0
  phase := 0
  errstat := 0
  draws := 0
  inputs := []
  rsps := []

end Sys2Proof.Machine
end

