-- ==== Sys2Proof/Machine/Flags.lean ====
section
/-! DEFINITION. The sticky bits of `ERRSTAT` (R32), the error codes (R186), the phases (R31), the response kinds
(R75), and the conditions under which a command that completes sets a bit (R189). -/

namespace Sys2Proof.Machine

/-! ### Phases (R31, R41) -/

/-- `IDLE`: after reset. -/
def phaseIdle : BitVec 2 := 0#2
/-- `RUN`: after a successful `INIT`. -/
def phaseRun : BitVec 2 := 1#2
/-- `DONE`: after `FLUSH`. -/
def phaseDone : BitVec 2 := 2#2

/-! ### Errors (R186) -/

/-- The four error codes. -/
inductive ErrCode where
  | illegal | phase | index | config
deriving DecidableEq, Repr

/-- `RSP.data[7:0]` of the `ERR` response (Table R186). -/
def ErrCode.number : ErrCode → BitVec 8
  | .illegal => 1#8
  | .phase => 2#8
  | .index => 3#8
  | .config => 4#8

/-- The sticky bit of the code, as a mask of `ERRSTAT`: bit `code - 1` (Table R186). -/
def ErrCode.mask : ErrCode → BitVec 6
  | .illegal => 0b000001#6
  | .phase => 0b000010#6
  | .index => 0b000100#6
  | .config => 0b001000#6

/-! ### The silent flags (R189) -/

/-- `ERRSTAT.NEG`, bit 4. -/
def flagNeg : BitVec 6 := 0b010000#6
/-- `ERRSTAT.NONFIN`, bit 5. -/
def flagNonfin : BitVec 6 := 0b100000#6

/-- What a sample, or a band value that reaches an accumulator, sets (R136, R151). -/
def nonfinFlags (v : F32) : BitVec 6 := if isFinite32 v then 0#6 else flagNonfin

/-- What the encoder sets for the operand `x` (R171): a NaN sets `NONFIN`, a value below zero `NEG`. -/
def encodeFlags (x : F32) : BitVec 6 :=
  if isNaN32 x then flagNonfin else if f32lt x f32Zero then flagNeg else 0#6

/-! ### Responses (R75, R76, R186) -/

/-- `ACK`. -/
def ackRsp : Response := ⟨0#4, 0#64⟩
/-- `NONE`: no bin was completed. -/
def noneRsp : Response := ⟨1#4, 0#64⟩
/-- `BIN`: the payload of R76. -/
def binRsp (w : BitVec 64) : Response := ⟨2#4, w⟩
/-- `DATA`. -/
def dataRsp (v : BitVec 64) : Response := ⟨3#4, v⟩
/-- `CODE`: the code in bits 7:0. -/
def codeRsp (c : BitVec 8) : Response := ⟨4#4, c.setWidth 64⟩
/-- `ERR`: the code in bits 7:0, the detail in bits 15:8. -/
def errRsp (e : ErrCode) (detail : BitVec 8) : Response := ⟨15#4, (detail ++ e.number).setWidth 64⟩

end Sys2Proof.Machine
end

