-- ==== Sys2Proof/Machine/Operands.lean ====
section
/-! DEFINITION. The register index space (R21, R50, R55): the one operand form that names state. -/

namespace Sys2Proof.Machine

/-- The 56 registers of Table R21. -/
inductive Reg where
  | sr | bps | fLlp | fLhp | fHlp | fHhp
  | coef (c : Fin 4) (k : Fin 5)
  | z (s : Fin 8) (j : Fin 2)
  | peak (b : Fin 4)
  | rmsSum (b : Fin 4)
  | spb | pend | nacc | lastn
  | phase | errstat
deriving DecidableEq, Repr

/-- The index of a register (Table R21). -/
def Reg.index : Reg → BitVec 8
  | .sr => 0x00#8
  | .bps => 0x01#8
  | .fLlp => 0x02#8
  | .fLhp => 0x03#8
  | .fHlp => 0x04#8
  | .fHhp => 0x05#8
  | .coef c k => BitVec.ofNat 8 (0x10 + 8 * c.val + k.val)
  | .z s j => BitVec.ofNat 8 (0x40 + 2 * s.val + j.val)
  | .peak b => BitVec.ofNat 8 (0x60 + b.val)
  | .rmsSum b => BitVec.ofNat 8 (0x68 + b.val)
  | .spb => 0x70#8
  | .pend => 0x71#8
  | .nacc => 0x72#8
  | .lastn => 0x73#8
  | .phase => 0x78#8
  | .errstat => 0x79#8

/-- All registers, in the order of Table R21. -/
def Reg.all : List Reg :=
  [.sr, .bps, .fLlp, .fLhp, .fHlp, .fHhp]
    ++ ([0, 1, 2, 3] : List (Fin 4)).flatMap (fun c => ([0, 1, 2, 3, 4] : List (Fin 5)).map (.coef c))
    ++ ([0, 1, 2, 3, 4, 5, 6, 7] : List (Fin 8)).flatMap (fun s => ([0, 1] : List (Fin 2)).map (.z s))
    ++ ([0, 1, 2, 3] : List (Fin 4)).map .peak
    ++ ([0, 1, 2, 3] : List (Fin 4)).map .rmsSum
    ++ [.spb, .pend, .nacc, .lastn, .phase, .errstat]

/-- The register that an index names, `none` if the index is unassigned: the index is compared for equality with
the assigned ones (R179), and no index aliases another (R50). -/
def Reg.ofIndex (i : BitVec 8) : Option Reg := Reg.all.find? (·.index == i)

/-- `Writable` of R92: the configuration and coefficient registers. -/
def Reg.writable : Reg → Bool
  | .sr => true
  | .bps => true
  | .fLlp => true
  | .fLhp => true
  | .fHlp => true
  | .fHhp => true
  | .coef _ _ => true
  | .z _ _ => false
  | .peak _ => false
  | .rmsSum _ => false
  | .spb => false
  | .pend => false
  | .nacc => false
  | .lastn => false
  | .phase => false
  | .errstat => false

/-- `zext_64(x[idx])`: the whole register, zero-extended (R54, R93). -/
def readReg (s : State) : Reg → BitVec 64
  | .sr => s.cfg.sr.setWidth 64
  | .bps => s.cfg.bps.setWidth 64
  | .fLlp => s.cfg.fLlp.setWidth 64
  | .fLhp => s.cfg.fLhp.setWidth 64
  | .fHlp => s.cfg.fHlp.setWidth 64
  | .fHhp => s.cfg.fHhp.setWidth 64
  | .coef c k => s.coef[c][k].setWidth 64
  | .z i j => s.z[i][j].setWidth 64
  | .peak b => s.peak[b].setWidth 64
  | .rmsSum b => s.rmsSum[b]
  | .spb => s.spb.setWidth 64
  | .pend => s.pend.setWidth 64
  | .nacc => s.nacc.setWidth 64
  | .lastn => s.lastn.setWidth 64
  | .phase => s.phase.setWidth 64
  | .errstat => s.errstat.setWidth 64

/-- `x[idx] <- data` for a register that the host may write (R92); the others are never written this way, and are
left as they are. -/
def writeReg (s : State) (r : Reg) (data : F32) : State :=
  match r with
  | .sr => { s with cfg := { s.cfg with sr := data } }
  | .bps => { s with cfg := { s.cfg with bps := data } }
  | .fLlp => { s with cfg := { s.cfg with fLlp := data } }
  | .fLhp => { s with cfg := { s.cfg with fLhp := data } }
  | .fHlp => { s with cfg := { s.cfg with fHlp := data } }
  | .fHhp => { s with cfg := { s.cfg with fHhp := data } }
  | .coef c k => { s with coef := s.coef.set c (s.coef[c].set k data) }
  | .z _ _ => s
  | .peak _ => s
  | .rmsSum _ => s
  | .spb => s
  | .pend => s
  | .nacc => s
  | .lastn => s
  | .phase => s
  | .errstat => s

end Sys2Proof.Machine
end

