-- ==== Sys2Proof/Machine/Ops.lean ====
section
/-! DEFINITION. The operations that several commands share: delivering a response, setting sticky bits, raising an
error, resetting the registers. -/

namespace Sys2Proof.Machine

/-- What `exec` and `step` answer. -/
abbrev Outcome := Host.Outcome State Fault Refusal

/-- `respond KIND(v)` (R9, R58): the response is delivered after every earlier one. -/
def State.respond (s : State) (r : Response) : State := { s with rsps := r :: s.rsps }

/-- Sets sticky bits of `ERRSTAT`; bits are only ever set (R32, R179). -/
def State.setFlags (s : State) (mask : BitVec 6) : State := { s with errstat := s.errstat ||| mask }

/-- `raise Err(code, detail)` (R190): one sticky bit and one response, and nothing else. This is all that taking an
exception is in AVC: nothing is saved, no mode changes, control goes nowhere, and so there is no return. -/
def raiseErr (s : State) (e : ErrCode) (detail : BitVec 8) : State := (s.setFlags e.mask).respond (errRsp e detail)

/-- `raise Err(PHASE, PHASE)` (R187): the detail is the current phase. -/
def raisePhase (s : State) : State := raiseErr s .phase (s.phase.setWidth 8)

/-- Every register of Table R21 takes its reset value of Table R35 (R91, R215). The ports and the draw counter are
no registers. -/
def resetRegisters (s : State) : State :=
  { State.reset with draws := s.draws, inputs := s.inputs, rsps := s.rsps }

/-- `n` free values have been drawn (R12, R173). -/
def State.drew (s : State) (n : Nat) : State := { s with draws := s.draws + n }

end Sys2Proof.Machine
end

