-- ==== Sys2Proof/Machine/Quantizer.lean ====
section
/-! DEFINITION. The quantized-unit encoder and decoder (R171, R176) and their commands `ENC` and `DEC`. -/

namespace Sys2Proof.Machine

/-- The code that `Encode(x)` returns (R171); the code of a NaN is the free value of the draw `k` (R173). The
sticky bits it sets are `encodeFlags x`. -/
def encodeCode (k : Nat) (x : F32) : BitVec 8 :=
  if isNaN32 x then Config.nanCode k
  else if f32lt x f32Zero then 0#8
  else
    let m := f32mul k x f32TwoFiftySix
    let f := f32floor k m
    if f32ge f f32TwoFiftyFive then 255#8 else BitVec.ofNat 8 (natOfF32 f)

/-- `Encode(x)` (R171). -/
def encodeStep (x : F32) (s : State) : BitVec 8 × State :=
  (encodeCode s.draws x, (s.setFlags (encodeFlags x)).drew 1)

/-- `Decode(c)` (R176): one binary32 division. Neither operand is a NaN or a zero over a zero, so the draw that
`f32div` names is never used (DEDUCED, log entry 13, safe). -/
def decodeCode (c : BitVec 8) : F32 := f32div 0 (u8tof32 c) f32TwoFiftyFive

/-- `ENC x` (R175), accepted in every phase. -/
def execEnc (x : F32) (s : State) : Outcome :=
  let r := encodeStep x s
  .next (r.2.respond (codeRsp r.1))

/-- `DEC c` (R176), accepted in every phase; reads and writes no register. -/
def execDec (c : BitVec 8) (s : State) : Outcome :=
  .next (s.respond (dataRsp ((decodeCode c).setWidth 64)))

end Sys2Proof.Machine
end

