-- ==== Sys2Proof/Machine/Accumulator.lean ====
section
/-! DEFINITION. The streaming bin accumulator (R135 to R139), linear energy convention. -/

namespace Sys2Proof.Machine

/-- `PEAK[b]` after one more band value (R136): `max(current, |value|)`. -/
def peakAfter (peak v : F32) : F32 := f32maxnum peak (f32abs v)

/-- `RMSSUM[b]` after one more band value (R136): `sum += value^2` in binary64; three draws from `k`. -/
def sumAfter (k : Nat) (sum : F64) (v : F32) : F64 :=
  let d := f32to64 k v
  f64add (k + 2) sum (f64mul (k + 1) d d)

/-- `AccAdd(b, v)` (R136). -/
def accAdd (b : Fin 4) (v : F32) (s : State) : State :=
  { s with
    errstat := s.errstat ||| nonfinFlags v
    peak := s.peak.set b (peakAfter s.peak[b] v)
    rmsSum := s.rmsSum.set b (sumAfter s.draws s.rmsSum[b] v)
    draws := s.draws + 3 }

/-- `Clamp01` (R137): a NaN falls through unchanged. -/
def clamp01 (a : F32) : F32 :=
  if f32gt a f32One then f32One else if f32lt a f32Zero then f32Zero else a

/-- The energy of R137 before it is encoded: `clamp(sqrt(sum / n) * sqrt(2), 0, 1)`, in binary64 up to the one
conversion; four draws from `k`. -/
def energy (k : Nat) (sum : F64) (n : BitVec 32) : F32 :=
  let mean := f64div k sum (u32tof64 n)
  let rms := f64sqrt (k + 1) mean
  let e64 := f64mul (k + 2) rms f64Sqrt2
  clamp01 (f64to32 (k + 3) e64)

/-- `AccFinish(b, n)` (R137): the peak code and the energy code of band `b`; six draws. -/
def accFinish (b : Fin 4) (n : BitVec 32) (s : State) : (BitVec 8 × BitVec 8) × State :=
  let pk := encodeStep s.peak[b] s
  let e := energy pk.2.draws s.rmsSum[b] n
  let en := encodeStep e (pk.2.drew 4)
  ((pk.1, en.1), en.2)

/-- The 64-bit `BIN` payload of the four bands' `(peak, energy)` codes (R76, R139). -/
def binPayload (all low mid high : BitVec 8 × BitVec 8) : BitVec 64 :=
  high.2 ++ high.1 ++ mid.2 ++ mid.1 ++ low.2 ++ low.1 ++ all.2 ++ all.1

/-- `PEAK` and `RMSSUM` of all bands to `+0.0` (R94, R139). -/
def clearAccumulators (s : State) : State :=
  { s with peak := .replicate 4 f32Zero, rmsSum := .replicate 4 f64Zero }

/-- `FinishAll()` (R139): all four bands finished with the same count, `LASTN` latched, the accumulators and
`NACC` cleared. That `NACC` is not 0 here is an invariant of the reachable states (R140), not a check: DEDUCED, log
entry 12, safe. -/
def finishAll (s : State) : BitVec 64 × State :=
  let n := s.nacc
  let r0 := accFinish 0 n s
  let r1 := accFinish 1 n r0.2
  let r2 := accFinish 2 n r1.2
  let r3 := accFinish 3 n r2.2
  (binPayload r0.1 r1.1 r2.1 r3.1,
   { clearAccumulators r3.2 with lastn := n, nacc := 0 })

end Sys2Proof.Machine
end

