-- ==== Sys2Proof/Machine/Access.lean ====
section
/-! DEFINITION. Configuration, construction and register access: `RST`, `WR`, `RD`, `INIT` (R90 to R96). -/

namespace Sys2Proof.Machine

/-- `RST` (R91), accepted in every phase. -/
def execRst (s : State) : Outcome := .next ((resetRegisters s).respond ackRsp)

/-- `WR idx, data` (R92): the phase is checked before the index (R195). -/
def execWr (idx : BitVec 8) (data : F32) (s : State) : Outcome :=
  if s.phase ≠ phaseIdle then .next (raisePhase s)
  else
    match Reg.ofIndex idx with
    | some r => if r.writable then .next ((writeReg s r data).respond ackRsp) else .next (raiseErr s .index idx)
    | none => .next (raiseErr s .index idx)

/-- `RD idx` (R93), accepted in every phase. -/
def execRd (idx : BitVec 8) (s : State) : Outcome :=
  match Reg.ofIndex idx with
  | some r => .next (s.respond (dataRsp (readReg s r)))
  | none => .next (raiseErr s .index idx)

/-- `InRange(f)` (R95): within [20, 20000]. -/
def inRange (f : F32) : Bool := f32le f32Twenty f && f32le f f32TwentyThousand

/-- `isFinite32(f) and f > 0.0` (R95). -/
def finitePositive (f : F32) : Bool := isFinite32 f && f32gt f f32Zero

/-- `Validate()` (R95): bit `n` is 1 when check `n` fails. -/
def validate (c : Cfg) : BitVec 6 :=
  BitVec.ofBool (!f32le c.fHhp c.fHlp)
    ++ BitVec.ofBool (!f32lt c.fLlp c.fHhp)
    ++ BitVec.ofBool (!f32le c.fLhp c.fLlp)
    ++ BitVec.ofBool (!(inRange c.fLlp && inRange c.fLhp && inRange c.fHlp && inRange c.fHhp))
    ++ BitVec.ofBool (!finitePositive c.bps)
    ++ BitVec.ofBool (!finitePositive c.sr)

/-- `ComputeSPB()` (R96). It runs only after `Validate()` returned 0, so the operands are finite and positive and
the draw that `f32div` names is never used (DEDUCED, log entry 13, safe). -/
def computeSpb (k : Nat) (c : Cfg) : F32 :=
  let q := f32div k c.sr c.bps
  if f32gt q f32SixtyFour then q else f32SixtyFour

/-- What an accepted `INIT` leaves (R94): `SPB` derived, the running state cleared, phase `RUN`. -/
def construct (s : State) : State :=
  { clearAccumulators s with
    spb := computeSpb s.draws s.cfg
    z := .replicate 8 (.replicate 2 f32Zero)
    pend := f32Zero
    nacc := 0
    lastn := 0
    phase := phaseRun }

/-- `INIT` (R94). -/
def execInit (s : State) : Outcome :=
  if s.phase ≠ phaseIdle then .next (raisePhase s)
  else if validate s.cfg ≠ 0 then .next (raiseErr s .config ((validate s.cfg).setWidth 8))
  else .next ((construct s).respond ackRsp)

end Sys2Proof.Machine
end

