-- ==== Sys2Proof/Machine/Filter.lean ====
section
/-! DEFINITION. The biquad section (R110, R111) and the three-band crossover filter bank (R121, R122, topology
(a)). The three equations of a section are the spec's own from general knowledge (R111, G2): PRESUMED, log entry 8,
unsafe. -/

namespace Sys2Proof.Machine

/-- The transposed direct-form-II recurrence of R111 on one coefficient set `(b0, b1, b2, a1, a2)` and one delay
pair `(s1, s2)`: the output sample and the new pair. Nine primitives, each rounded by itself, nothing fused
(R115); the primitive number `n` takes the draw `k + n`. -/
def biquad (k : Nat) (co : Vector F32 5) (d : Vector F32 2) (x : F32) : F32 × Vector F32 2 :=
  let t0 := f32mul k co[0] x
  let y := f32add (k + 1) d[0] t0
  let t1 := f32mul (k + 2) co[1] x
  let t2 := f32add (k + 3) d[1] t1
  let t3 := f32mul (k + 4) co[3] y
  let s1 := f32sub (k + 5) t2 t3
  let t4 := f32mul (k + 6) co[2] x
  let t5 := f32mul (k + 7) co[4] y
  let s2 := f32sub (k + 8) t4 t5
  (y, #v[s1, s2])

/-- The coefficient set of a section, `set(s) = s >> 1` (Table R24). -/
def sectionSet (i : Fin 8) : Fin 4 := ⟨i.val / 2, by omega⟩

/-- `BiquadStep(s, x)` (R111): section `i` filters `x` with its coefficient set and replaces its delay pair. -/
def biquadStep (i : Fin 8) (x : F32) (s : State) : F32 × State :=
  let r := biquad s.draws s.coef[sectionSet i] s.z[i] x
  (r.1, { s with z := s.z.set i r.2, draws := s.draws + 9 })

/-- `Shape(x)` (R121): the extension point between the sample and all four bands, the identity. -/
def shape (x : F32) : F32 := x

/-- `BankStep(x)` (R122): the band values `all, low, mid, high`, and the state with all eight sections advanced. -/
def bankStep (x : F32) (s : State) : Vector F32 4 × State :=
  let u := shape x
  let r0 := biquadStep 0 u s
  let r1 := biquadStep 1 r0.1 r0.2
  let r2 := biquadStep 2 u r1.2
  let r3 := biquadStep 3 r2.1 r2.2
  let r4 := biquadStep 4 r3.1 r3.2
  let r5 := biquadStep 5 r4.1 r4.2
  let r6 := biquadStep 6 u r5.2
  let r7 := biquadStep 7 r6.1 r6.2
  (#v[u, r1.1, r5.1, r7.1], r7.2)

end Sys2Proof.Machine
end

