-- ==== Sys2Proof/Machine/Stream.lean ====
section
/-! DEFINITION. The streaming orchestrator: `PUSH` and `FLUSH` (R150 to R152). -/

namespace Sys2Proof.Machine

/-- `NACC + 1`, saturating (R29, R151, R179). -/
def naccAfter (n : BitVec 32) : BitVec 32 := if n ≠ 0xFFFFFFFF#32 then n + 1 else n

/-- Part (1) of `PUSH` (R151): at a boundary the residual carries over and the window is finished. The
subtraction takes one draw. -/
def boundary (s : State) : Response × State :=
  if f32ge s.pend s.spb then
    let r := finishAll { s with pend := f32sub s.draws s.pend s.spb, draws := s.draws + 1 }
    (binRsp r.1, r.2)
  else (noneRsp, s)

/-- The four `AccAdd` of a `PUSH` (R151), in band order. -/
def accumulate (v : Vector F32 4) (s : State) : State :=
  accAdd 3 v[3] (accAdd 2 v[2] (accAdd 1 v[1] (accAdd 0 v[0] s)))

/-- Parts (2) and (3) of `PUSH` (R151): filter the sample, accumulate the band values, count the sample. The
addition takes one draw. -/
def feed (x : F32) (s : State) : State :=
  let r := bankStep x (s.setFlags (nonfinFlags x))
  let t := accumulate r.1 r.2
  { t with nacc := naccAfter t.nacc, pend := f32add t.draws t.pend f32One, draws := t.draws + 1 }

/-- `PUSH x` (R151): finish the window if the boundary was crossed, then feed the sample. -/
def execPush (x : F32) (s : State) : Outcome :=
  if s.phase ≠ phaseRun then .next (raisePhase s)
  else
    let r := boundary s
    .next ((feed x r.2).respond r.1)

/-- `FLUSH` (R152): finish the window if it holds a sample, and end the stream. -/
def execFlush (s : State) : Outcome :=
  if s.phase ≠ phaseRun then .next (raisePhase s)
  else
    let r := if s.nacc ≠ 0 then ((binRsp (finishAll s).1, (finishAll s).2) : Response × State)
             else (noneRsp, s)
    .next (({ r.2 with pend := f32Zero, phase := phaseDone } : State).respond r.1)

end Sys2Proof.Machine
end

