-- ==== Sys2Proof/Machine/Dispatch.lean ====
section
/-! DEFINITION. One arm per command, each one direct call of its meaning. -/

namespace Sys2Proof.Machine

def exec (i : Instr) (s : State) : Host.Outcome State Fault Refusal :=
  match i with
  | .rst => Sys2Proof.Machine.execRst s
  | .wr idx data => Sys2Proof.Machine.execWr idx data s
  | .rd idx => Sys2Proof.Machine.execRd idx s
  | .init => Sys2Proof.Machine.execInit s
  | .push x => Sys2Proof.Machine.execPush x s
  | .flush => Sys2Proof.Machine.execFlush s
  | .enc x => Sys2Proof.Machine.execEnc x s
  | .dec code => Sys2Proof.Machine.execDec code s

end Sys2Proof.Machine
end

