-- ==== Sys2Proof/Machine/Accept.lean ====
section
/-! DEFINITION. What the block does with an input of the host: a command word (R81), or a reset edge (R215). -/

namespace Sys2Proof.Machine

/-- Accepting a command word (R81): decode it, or raise `Err(ILLEGAL)` with detail `CMD[47:40]` (R78); then run
the command, whose meaning checks the phase, the index and the configuration in this order. -/
def acceptWord (w : Cmd) (s : State) : Outcome :=
  match decode w with
  | .ok i => exec i s
  | .error _ => .next (raiseErr s .illegal (opField w))

/-- One input. A reset edge gives no response, and abandons a command in flight: between two commands there is
none. DEDUCED, log entry 6; `Machine/Port.lean` has the reset in any cycle. -/
def acceptInput (i : HostInput) (s : State) : Outcome :=
  match i with
  | .command w => acceptWord w s
  | .reset => .next (resetRegisters s)

/-- The host presents `w` next (R71). -/
def presentWord (w : Cmd) (s : State) : State := { s with inputs := .command w :: s.inputs }

end Sys2Proof.Machine
end

