-- ==== Sys2Proof/Machine/Step.lean ====
section
/-! DEFINITION. One step is one input taken and its response delivered (R225). -/

namespace Sys2Proof.Machine

/-- The block takes the next input of the host (R57). While the host presents nothing the block is idle and keeps
all registers (R211). DESIGN CHOICE that this is a step: log entry 4, safe. -/
def step (s : State) : Host.Outcome State Fault Refusal :=
  match s.inputs with
  | [] => .next s
  | i :: rest => acceptInput i { s with inputs := rest }

/-- `s` with the command word of `nbits` bits `w` as the one the host presents next. Commands come from outside
the block (R2, R51), so this stands for the host presenting the word: log entry 4. -/
def State.withFetchWord (s : State) (nbits w : Nat) : State :=
  presentWord (wordOfBytes (bytesOfNat 6 (w % 2 ^ nbits))) s

end Sys2Proof.Machine
end

