-- ==== Sys2Proof/Machine/Assembler.lean ====
section
/-! DEFINITION. The text form of commands (R82) and the pseudo-commands (R83): a line of text to the commands it
stands for. What R82 leaves open of the text (blanks, case of hexadecimal digits, shape of a literal, a literal beyond the
binary32 range) is a DESIGN CHOICE, log entry 10, unsafe only for a claim about such a text. -/

namespace Sys2Proof.Machine

/-- The pieces of a text between the separators. -/
def splitAt (sep : Char) : List Char → List (List Char)
  | [] => [[]]
  | x :: xs =>
    if x = sep then [] :: splitAt sep xs
    else
      match splitAt sep xs with
      | [] => [[x]]
      | w :: ws => (x :: w) :: ws

/-- A character that may stand around a mnemonic or an operand. -/
def isBlank (x : Char) : Bool := x = ' ' || x = '\t' || x = '\r'

/-- A text without the blanks at its ends. -/
def trimBlanks (l : List Char) : List Char := ((l.dropWhile isBlank).reverse.dropWhile isBlank).reverse

/-- The value of a digit of the base, 10 or 16. -/
def digitValue (base : Nat) (x : Char) : Option Nat :=
  let n := x.toNat
  let d := if 48 ≤ n ∧ n ≤ 57 then n - 48 else if 65 ≤ n ∧ n ≤ 70 then n - 55 else if 97 ≤ n ∧ n ≤ 102 then n - 87 else base
  if d < base then some d else none

/-- Digits, continuing the number `acc`; `none` if a character is no digit. -/
def digitsFrom (base : Nat) : Nat → List Char → Option Nat
  | acc, [] => some acc
  | acc, x :: xs =>
    match digitValue base x with
    | some d => digitsFrom base (acc * base + d) xs
    | none => none

/-- A number of at least one digit. -/
def number (base : Nat) (l : List Char) : Option Nat := if l = [] then none else digitsFrom base 0 l

/-- `0x` and `digits` hexadecimal digits. -/
def hexNumber (digits : Nat) : List Char → Option Nat
  | '0' :: 'x' :: l => if l.length = digits then number 16 l else none
  | _ => none

/-- The decimal digit character. -/
def digitChar (n : Nat) : Char := Char.ofNat (48 + n)

/-- Name of a coefficient set (R14). -/
def setName (c : Fin 4) : List Char := ["LLP", "LHP", "HLP", "HHP"][c].toList

/-- Name of a coefficient (R14). -/
def coefName (k : Fin 5) : List Char := ["b0", "b1", "b2", "a1", "a2"][k].toList

/-- The names of a register (R82): that of Table R21, and for a coefficient also its alias. -/
def Reg.names : Reg → List (List Char)
  | .sr => ["SR".toList]
  | .bps => ["BPS".toList]
  | .fLlp => ["F_LLP".toList]
  | .fLhp => ["F_LHP".toList]
  | .fHlp => ["F_HLP".toList]
  | .fHhp => ["F_HHP".toList]
  | .coef c k =>
    ["COEF[".toList ++ [digitChar c, ']', '[', digitChar k, ']'], setName c ++ '.' :: coefName k]
  | .z s j => ["Z[".toList ++ [digitChar s, ']', '[', digitChar j, ']']]
  | .peak b => ["PEAK[".toList ++ [digitChar b, ']']]
  | .rmsSum b => ["RMSSUM[".toList ++ [digitChar b, ']']]
  | .spb => ["SPB".toList]
  | .pend => ["PEND".toList]
  | .nacc => ["NACC".toList]
  | .lastn => ["LASTN".toList]
  | .phase => ["PHASE".toList]
  | .errstat => ["ERRSTAT".toList]

/-- A register operand (R82): a name, or a bare index `#0xNN`. -/
def regOperand (l : List Char) : Option (BitVec 8) :=
  match l with
  | '#' :: rest => (hexNumber 2 rest).map (BitVec.ofNat 8)
  | _ => (Reg.all.find? (·.names.contains l)).map Reg.index

/-- The binary32 value nearest to `± digits / 10^places`, ties to even (R82). DESIGN CHOICE, log entry 10, unsafe only
for a claim about such a literal: R82 states no value for a literal beyond the range of binary32, and the model rounds
it as R11 rounds a result, so from the magnitude `2^128 - 2^103` on it stands for the infinity of its sign; and where
the nearest value is a zero, the zero has the sign of the literal (as P2 of 95_test_vectors.md reads `-0.0f`). -/
def nearestF32 (neg : Bool) (digits places : Nat) : F32 :=
  BitVec.ofNat 32 (binary32.deliver 0 (.ratio neg (digits * 2 ^ binary32.unitExp) (10 ^ places)))

/-- A decimal literal without its sign and its suffix: digits, or digits, a point and digits. -/
def decimalOperand (neg : Bool) (l : List Char) : Option F32 :=
  match splitAt '.' l with
  | [whole] => (number 10 whole).map (nearestF32 neg · 0)
  | [whole, places] =>
    match number 10 whole, number 10 places with
    | some _, some _ => (number 10 (whole ++ places)).map (nearestF32 neg · places.length)
    | _, _ => none
  | _ => none

/-- An f32 operand (R82): a pattern of eight hexadecimal digits, or a decimal literal with the suffix `f`. -/
def f32Operand (l : List Char) : Option F32 :=
  match hexNumber 8 l with
  | some n => some (BitVec.ofNat 32 n)
  | none =>
    match l.reverse with
    | 'f' :: body =>
      match body.reverse with
      | '-' :: rest => decimalOperand true rest
      | rest => decimalOperand false rest
    | _ => none

/-- A code operand (R82): a decimal integer 0..255, or `0xNN`. -/
def codeOperand (l : List Char) : Option (BitVec 8) :=
  match hexNumber 2 l with
  | some n => some (BitVec.ofNat 8 n)
  | none =>
    match number 10 l with
    | some n => if n ≤ 255 then some (BitVec.ofNat 8 n) else none
    | none => none

/-- The set operand of `LDCOEF` (R83). -/
def setOperand (l : List Char) : Option CoefSet :=
  if l = "LLP".toList then some .llp
  else if l = "LHP".toList then some .lhp
  else if l = "HLP".toList then some .hlp
  else if l = "HHP".toList then some .hhp
  else none

/-- A command of no operand. -/
def plainLine (i : Instr) (ops : List (List Char)) : Option (List Instr) := if ops = [] then some [i] else none

/-- A command of one f32 operand. -/
def f32Line (f : F32 → Instr) : List (List Char) → Option (List Instr)
  | [a] => (f32Operand a).map fun x => [f x]
  | _ => none

/-- The commands of a mnemonic with its operands (R82, R83). -/
def lineCommands (mnemonic : List Char) (ops : List (List Char)) : Option (List Instr) :=
  if mnemonic = "RST".toList then plainLine .rst ops
  else if mnemonic = "INIT".toList then plainLine .init ops
  else if mnemonic = "FLUSH".toList then plainLine .flush ops
  else if mnemonic = "PUSH".toList then f32Line .push ops
  else if mnemonic = "ENC".toList then f32Line .enc ops
  else if mnemonic = "WR".toList then
    match ops with
    | [r, x] => (regOperand r).bind fun i => (f32Operand x).map fun v => [.wr i v]
    | _ => none
  else if mnemonic = "RD".toList then
    match ops with
    | [r] => (regOperand r).map fun i => [.rd i]
    | _ => none
  else if mnemonic = "DEC".toList then
    match ops with
    | [a] => (codeOperand a).map fun v => [.dec v]
    | _ => none
  else if mnemonic = "LDCOEF".toList then
    match ops with
    | name :: rest =>
      match setOperand name, rest.mapM f32Operand with
      | some set, some [b0, b1, b2, a1, a2] => some (ldcoef set b0 b1 b2 a1 a2)
      | _, _ => none
    | [] => none
  else if mnemonic = "LDCFG".toList then
    match ops.mapM f32Operand with
    | some [sr, bps, llp, lhp, hlp, hhp] => some (ldcfg sr bps llp lhp hlp hhp)
    | _ => none
  else none

/-- One line (R82): a `;` starts a comment, an empty line stands for no command; `none` is a line that is not of
the text form. -/
def assembleLine (line : List Char) : Option (List Instr) :=
  let text := trimBlanks (line.takeWhile (· ≠ ';'))
  if text = [] then some []
  else
    let mnemonic := text.takeWhile (!isBlank ·)
    let rest := trimBlanks (text.dropWhile (!isBlank ·))
    lineCommands mnemonic (if rest = [] then [] else (splitAt ',' rest).map trimBlanks)

/-- A program text (R82), one command per line: the commands in order. -/
def assemble (text : List Char) : Option (List Instr) :=
  ((splitAt '\n' text).mapM assembleLine).map List.flatten

end Sys2Proof.Machine
end

