-- ==== Sys2Proof/Machine/Blocks.lean ====
section
/-! DEFINITION. Several blocks side by side (R207): independent copies of one block, nothing shared. -/

namespace Sys2Proof.Machine

/-- Block `i` of `blocks` takes one step; the others do not move. A number that names no block does nothing. -/
def stepBlock (i : Nat) (blocks : List State) : Host.Outcome (List State) Fault Refusal :=
  match blocks[i]? with
  | none => .next blocks
  | some s =>
    match step s with
    | .next t => .next (blocks.set i t)
    | .fault f => .fault f
    | .refused r => .refused r

end Sys2Proof.Machine
end

