-- ==== Sys2Proof/Machine/Port.lean ====
section
/-! DEFINITION. The ports of one block, cycle by cycle (R70 to R72, R215). The step of the model is one command
(R225); this layer says how the handshakes carry commands and responses, and how the reset input acts in any cycle.
How many cycles the block takes is a free value, 0 among its values. DESIGN CHOICE, log entry 7: outputs change only at
rising edges, so a response comes at the earliest in the cycle after the one that accepts its command, and `cmd_ready`
rises at the earliest in the cycle after the one that delivers the response or, after a reset, after the first edge
with `rst` = 0. -/

namespace Sys2Proof.Machine

/-- The input ports at a rising edge of `clk` (Table R70). -/
structure PortIn where
  rst : Bool
  cmdValid : Bool
  cmd : Cmd
  rspReady : Bool
deriving DecidableEq, Repr

/-- Where the block is between two edges: at most one command is inside (R71). -/
inductive PortStage where
  /-- After reset or a delivered response: `cmd_ready` is 0 in this cycle and in `left` more (R71, R215). -/
  | recovering (left : Nat)
  /-- `cmd_ready` is 1. -/
  | ready
  /-- The command `w` has been accepted; no response is presented in this cycle and in `left` more (R72). -/
  | working (w : Cmd) (left : Nat)
  /-- `rsp_valid` is 1 and the response is held (R72). -/
  | responding (r : Response)
deriving DecidableEq, Repr

/-- A block at its ports: the registers, with the responses delivered so far, and the handshake. `waits` counts
the free delays drawn. -/
structure PortBlock where
  regs : State
  stage : PortStage
  waits : Nat
deriving DecidableEq, Repr

/-- The output `cmd_ready`. -/
def PortBlock.cmdReady (b : PortBlock) : Bool :=
  match b.stage with
  | .recovering _ => false
  | .ready => true
  | .working _ _ => false
  | .responding _ => false

/-- The outputs `rsp_valid`, `rsp_kind`, `rsp_data`: the response presented, if `rsp_valid` is 1. -/
def PortBlock.rspOut (b : PortBlock) : Option Response :=
  match b.stage with
  | .recovering _ => none
  | .ready => none
  | .working _ _ => none
  | .responding r => some r

/-- The command has been executed: its writes are done, and its response is presented, not yet delivered (R57). -/
def PortBlock.present (b : PortBlock) (t : State) : PortBlock :=
  { b with regs := { t with rsps := b.regs.rsps }, stage := .responding (t.rsps.headD noneRsp) }

/-- The command `w` is executed and its response presented. Both other outcomes never occur (R190, R225). -/
def PortBlock.execute (b : PortBlock) (w : Cmd) : PortBlock :=
  match acceptWord w b.regs with
  | .next t => b.present t
  | .fault _ => b
  | .refused _ => b

/-- The command `w` is in the block, for `left` cycles without a response (R72). -/
def PortBlock.work (b : PortBlock) (w : Cmd) (left : Nat) : PortBlock :=
  match left with
  | 0 => b.execute w
  | n + 1 => { b with stage := .working w n }

/-- `cmd_ready` is 0 for `left` cycles (R71). -/
def PortBlock.recover (b : PortBlock) (left : Nat) : PortBlock :=
  match left with
  | 0 => { b with stage := .ready }
  | n + 1 => { b with stage := .recovering n }

/-- The block takes the command `w` (R71); the free number of cycles to its response is drawn. -/
def PortBlock.accept (b : PortBlock) (w : Cmd) : PortBlock :=
  { b with waits := b.waits + 1 }.work w (Config.execCycles b.waits)

/-- The response `r` is delivered (R72); the free number of cycles to `cmd_ready` is drawn. -/
def PortBlock.delivered (b : PortBlock) (r : Response) : PortBlock :=
  { b with regs := b.regs.respond r, waits := b.waits + 1 }.recover (Config.readyCycles b.waits)

/-- A rising edge with `rst` = 1 (R215): all registers take their reset values, what is in flight is gone, and
`cmd_ready` is 0 in this cycle and in a free number of further ones. -/
def PortBlock.reset (b : PortBlock) : PortBlock :=
  { regs := resetRegisters b.regs, stage := .recovering (Config.readyCycles b.waits), waits := b.waits + 1 }

/-- One rising edge of `clk`. Reset overrides everything: a command in flight is abandoned without a response
(R215). A command is accepted when `cmd_valid` and `cmd_ready` are 1 and `rst` is 0 (R71); a response is delivered
when `rsp_ready` is 1, and held until then (R72). -/
def PortBlock.cycle (b : PortBlock) (i : PortIn) : PortBlock :=
  if i.rst then b.reset
  else
    match b.stage with
    | .recovering n => b.recover n
    | .ready => if i.cmdValid then b.accept i.cmd else b
    | .working w n => b.work w n
    | .responding r => if i.rspReady then b.delivered r else b

/-- Several edges, the first input first. -/
def PortBlock.cycles : List PortIn → PortBlock → PortBlock
  | [], b => b
  | i :: is, b => PortBlock.cycles is (b.cycle i)

end Sys2Proof.Machine
end

