-- ==== Sys2Proof/Safety.lean ====
section
/-! DEFINITION. The terms that statements use: numeric values of patterns, the invariant of the reachable states
(section 5 of 95_test_vectors.md), silent states, streams of samples. -/

namespace Sys2Proof.Machine

/-! ### Numeric values -/

/-- The number that a finite binary32 pattern stands for (R10); 0 for an infinity or a NaN. -/
def f32Rat (a : F32) : ℚ :=
  match value32 a with
  | .nan => 0
  | .inf _ => 0
  | .finite neg mag => (signedMag neg mag : ℚ) / 2 ^ 149

/-- The number that a finite binary64 pattern stands for (R10); 0 for an infinity or a NaN. -/
def f64Rat (a : F64) : ℚ :=
  match value64 a with
  | .nan => 0
  | .inf _ => 0
  | .finite neg mag => (signedMag neg mag : ℚ) / 2 ^ 1074

/-- A binary64 NaN: exponent all ones and fraction not zero. -/
def isNaN64 (a : F64) : Bool := a.extractLsb' 52 11 == 0x7FF#11 && a.extractLsb' 0 52 != 0#52

/-- A finite binary64 pattern: exponent not all ones. -/
def isFinite64 (a : F64) : Bool := a.extractLsb' 52 11 != 0x7FF#11

/-- `+0.0` or `-0.0`. -/
def isZero32 (a : F32) : Bool := a == 0x00000000#32 || a == 0x80000000#32

/-- 2^24 as binary32, where `PEND` stops growing (R156). -/
def pendMax : F32 := 0x4B800000#32

/-! ### Reading a register by its index -/

/-- What `RD` returns for an index; `none` if the index is unassigned. -/
def readIndex (i : BitVec 8) (s : State) : Option (BitVec 64) := (Reg.ofIndex i).map (readReg s)

/-- The indices that the host may write (R92, R188). -/
def writableIndex (i : BitVec 8) : Bool :=
  i.toNat ≤ 0x05 || (0x10 ≤ i.toNat && i.toNat ≤ 0x2C && i.toNat % 8 ≤ 4)

/-- The assigned indices (R188). -/
def assignedIndex (i : BitVec 8) : Bool :=
  writableIndex i || (0x40 ≤ i.toNat && i.toNat ≤ 0x4F) || (0x60 ≤ i.toNat && i.toNat ≤ 0x63)
    || (0x68 ≤ i.toNat && i.toNat ≤ 0x6B) || (0x70 ≤ i.toNat && i.toNat ≤ 0x73) || i == 0x78#8 || i == 0x79#8

/-! ### The invariant -/

/-- Peaks and sums of all bands are `+0.0`. -/
def AccumulatorsClear (s : State) : Prop := s.peak = .replicate 4 0#32 ∧ s.rmsSum = .replicate 4 0#64

/-- What holds in every reachable state (95_test_vectors.md section 5; R25, R26, R27, R31, R140, R156). -/
structure Inv (s : State) : Prop where
  /-- `PHASE` is never 3. -/
  phase_legal : s.phase = phaseIdle ∨ s.phase = phaseRun ∨ s.phase = phaseDone
  /-- In `IDLE` every register other than `CFG`, `COEF` and `ERRSTAT` is zero. -/
  idle_clear : s.phase = phaseIdle →
    s.z = .replicate 8 (.replicate 2 0#32) ∧ AccumulatorsClear s ∧ s.spb = 0#32 ∧ s.pend = 0#32 ∧ s.nacc = 0#32
      ∧ s.lastn = 0#32
  /-- After `INIT` the stored configuration is valid and `SPB >= 64.0`, so not NaN. -/
  configured : s.phase ≠ phaseIdle → validate s.cfg = 0#6 ∧ f32ge s.spb f32SixtyFour = true
  /-- A peak is no NaN and has its sign bit clear (R25). -/
  peak_nonneg : ∀ b : Fin 4, isNaN32 s.peak[b] = false ∧ s.peak[b].msb = false
  /-- A sum is a NaN or has its sign bit clear (R26). -/
  sum_nonneg : ∀ b : Fin 4, isNaN64 s.rmsSum[b] = true ∨ s.rmsSum[b].msb = false
  /-- `PEND` is a finite non-negative number of at most 2^24 (R156). -/
  pend_range : s.pend.msb = false ∧ f32le s.pend pendMax = true
  /-- In `RUN` with no sample yet, nothing has been accumulated (R140). -/
  run_fresh : s.phase = phaseRun → s.nacc = 0#32 →
    s.pend = 0#32 ∧ s.lastn = 0#32 ∧ AccumulatorsClear s ∧ s.z = .replicate 8 (.replicate 2 0#32)
  /-- In `RUN` after a sample, `PEND >= 1.0`. -/
  run_counting : s.phase = phaseRun → s.nacc ≠ 0#32 → f32ge s.pend f32One = true
  /-- In `DONE` the window is closed. -/
  done_clear : s.phase = phaseDone → s.pend = 0#32 ∧ s.nacc = 0#32 ∧ AccumulatorsClear s

/-! ### Zero streams (R112, R142) -/

/-- All twenty coefficients are finite. -/
def FiniteCoefs (s : State) : Prop := ∀ (c : Fin 4) (k : Fin 5), isFinite32 s.coef[c][k] = true

/-- Nothing but zeros has been fed: every delay register is a zero of either sign, the accumulators are clear. -/
def Silent (s : State) : Prop :=
  (∀ (i : Fin 8) (j : Fin 2), isZero32 s.z[i][j] = true) ∧ AccumulatorsClear s

/-- The pass-through coefficients of R114. -/
def passThrough : Vector F32 5 := #v[f32One, f32Zero, f32Zero, f32Zero, f32Zero]

/-! ### Streams (R155, R157, R158) -/

/-- The responses to `PUSH x` for each sample `x` in order, each with the value of `LASTN` after it, and the state
at the end. -/
def pushAll : List F32 → State → List (Response × BitVec 32) × State
  | [], s => ([], s)
  | x :: xs, s =>
    match exec (.push x) s with
    | .next t =>
      let r := pushAll xs t
      ((t.rsps.headD noneRsp, t.lastn) :: r.1, r.2)
    | .fault _ => ([], s)
    | .refused _ => ([], s)

/-- The response is a `BIN` (R75). -/
def Response.isBin (r : Response) : Bool := r.kind == 2#4

/-- The response is an `ERR` (R75). -/
def Response.isErr (r : Response) : Bool := r.kind == 15#4

/-- The bins of a stream with their sample counts: `LASTN` read after each (R208). -/
def binCounts (l : List (Response × BitVec 32)) : List Nat := (l.filter (·.1.isBin)).map (·.2.toNat)

/-- The waveform of the stream that the block is in or has ended (R158): the `BIN` payloads since the `ACK` of
`INIT`, in order. In `RUN` and `DONE` that `ACK` is the newest one. -/
def waveform (s : State) : List (BitVec 64) :=
  (((s.rsps.takeWhile (·.kind ≠ 0#4)).filter Response.isBin).map Response.data).reverse

/-! ### What a window and a sample amount to

The free values enter these through draws: "for some draws" holds whatever the free values are. -/

/-- `w` is the `BIN` payload of the window that `s` holds, and `flags` is `ERRSTAT` after finishing it (R76, R137,
R139, R171): for band `b` the code of the peak stands in bits `16b+7:16b`, the code of the energy `e b` in bits
`16b+15:16b+8`. -/
def WindowOf (s : State) (w : BitVec 64) (flags : BitVec 6) : Prop :=
  ∃ e : Fin 4 → F32,
    (∀ b : Fin 4, ∃ k k1 k2 k3 k4 k5 : Nat,
      let mean := f64div k1 s.rmsSum[b] (u32tof64 s.nacc)
      let e32 := f64to32 k4 (f64mul k3 (f64sqrt k2 mean) 0x3FF6A09E667F3BCD#64)
      e b = (if f32gt e32 0x3F800000#32 then 0x3F800000#32
             else if f32lt e32 0x00000000#32 then 0x00000000#32 else e32)
        ∧ w.extractLsb' (16 * b.val) 8 = encodeCode k s.peak[b]
        ∧ w.extractLsb' (16 * b.val + 8) 8 = encodeCode k5 (e b))
    ∧ flags = s.errstat ||| encodeFlags s.peak[0] ||| encodeFlags s.peak[1] ||| encodeFlags s.peak[2]
        ||| encodeFlags s.peak[3] ||| encodeFlags (e 0) ||| encodeFlags (e 1) ||| encodeFlags (e 2)
        ||| encodeFlags (e 3)

/-- A section with coefficients `(b0, b1, b2, a1, a2)` and delay pair `d` turns the sample `x` into the output `y` and
the new pair `d'` (R111): `y = s1 + b0*x`, `s1' = (s2 + b1*x) - a1*y`, `s2' = b2*x - a2*y`, every operation rounded by
itself. -/
def SectionStep (co : Vector F32 5) (d : Vector F32 2) (x y : F32) (d' : Vector F32 2) : Prop :=
  ∃ k : Fin 9 → Nat,
    y = f32add (k 1) d[0] (f32mul (k 0) co[0] x)
    ∧ d'[0] = f32sub (k 5) (f32add (k 3) d[1] (f32mul (k 2) co[1] x)) (f32mul (k 4) co[3] y)
    ∧ d'[1] = f32sub (k 8) (f32mul (k 6) co[2] x) (f32mul (k 7) co[4] y)

/-- `t` has the delay registers, accumulators, sticky bits and pending count that feeding the sample `x` to the
filters of `s` leaves (R111, R122, R136, R151): the chains of sections 0-1, 2-3-4-5 and 6-7 with coefficient sets 0,
1, 2 and 3 and outputs `y`, the band values `v` added to the peaks `peak`, the sums `sum`, and 1.0 to the pending count
`pend`; `flags` is `ERRSTAT` before. -/
def FedBy (x : F32) (s : State) (peak : Vector F32 4) (sum : Vector F64 4) (pend : F32) (flags : BitVec 6)
    (t : State) : Prop :=
  ∃ (y : Fin 8 → F32) (e : Fin 4 → Nat × Nat × Nat) (k : Nat),
    let v : Vector F32 4 := #v[x, y 1, y 5, y 7]
    SectionStep s.coef[0] s.z[0] x (y 0) t.z[0] ∧ SectionStep s.coef[0] s.z[1] (y 0) (y 1) t.z[1]
    ∧ SectionStep s.coef[1] s.z[2] x (y 2) t.z[2] ∧ SectionStep s.coef[1] s.z[3] (y 2) (y 3) t.z[3]
    ∧ SectionStep s.coef[2] s.z[4] (y 3) (y 4) t.z[4] ∧ SectionStep s.coef[2] s.z[5] (y 4) (y 5) t.z[5]
    ∧ SectionStep s.coef[3] s.z[6] x (y 6) t.z[6] ∧ SectionStep s.coef[3] s.z[7] (y 6) (y 7) t.z[7]
    ∧ (∀ b : Fin 4, t.peak[b] = f32maxnum peak[b] (f32abs v[b])
        ∧ t.rmsSum[b] = f64add (e b).2.2 sum[b]
            (f64mul (e b).2.1 (f32to64 (e b).1 v[b]) (f32to64 (e b).1 v[b])))
    ∧ t.errstat = flags ||| (if ∀ b : Fin 4, isFinite32 v[b] = true then 0#6 else 0b100000#6)
    ∧ t.pend = f32add k pend 0x3F800000#32

/-- `r` is the finite value nearest to the number `v`, and of two nearest ones the one whose last bit is 0 (R11). -/
def IsNearest32 (r : F32) (v : ℚ) : Prop :=
  ∀ y : F32, isFinite32 y = true →
    |f32Rat r - v| ≤ |f32Rat y - v|
      ∧ (|f32Rat r - v| = |f32Rat y - v| → f32Rat y ≠ f32Rat r → r.getLsbD 0 = false)

/-- The same in binary64. -/
def IsNearest64 (r : F64) (v : ℚ) : Prop :=
  ∀ y : F64, isFinite64 y = true →
    |f64Rat r - v| ≤ |f64Rat y - v|
      ∧ (|f64Rat r - v| = |f64Rat y - v| → f64Rat y ≠ f64Rat r → r.getLsbD 0 = false)

/-- The zero of a sign. -/
def signedZero32 (neg : Bool) : F32 := if neg then 0x80000000#32 else 0x00000000#32

/-- The zero of a sign in binary64. -/
def signedZero64 (neg : Bool) : F64 := if neg then 0x8000000000000000#64 else 0x0000000000000000#64

/-- The infinity of a sign. -/
def signedInf32 (neg : Bool) : F32 := if neg then 0xFF800000#32 else 0x7F800000#32

/-- The infinity of a sign in binary64. -/
def signedInf64 (neg : Bool) : F64 := if neg then 0xFFF0000000000000#64 else 0x7FF0000000000000#64

/-- The least magnitude that rounds beyond the largest finite binary32 value: half a spacing above it. -/
def roundLimit32 : ℚ := 2 ^ 128 - 2 ^ 103

/-- The same in binary64. -/
def roundLimit64 : ℚ := 2 ^ 1024 - 2 ^ 970

/-- `r` is the exact value `v` rounded to binary32 (R11): below the limit the nearest finite value, ties to even, from
the limit on the infinity of `v`'s sign; a result of a `v` that is not 0 has `v`'s sign, also where it is a zero. -/
def RoundsTo32 (r : F32) (v : ℚ) : Prop :=
  (|v| < roundLimit32 → isFinite32 r = true ∧ IsNearest32 r v)
  ∧ (roundLimit32 ≤ |v| → r = signedInf32 (decide (v < 0)))
  ∧ (v ≠ 0 → r.msb = decide (v < 0))

/-- The same in binary64. -/
def RoundsTo64 (r : F64) (v : ℚ) : Prop :=
  (|v| < roundLimit64 → isFinite64 r = true ∧ IsNearest64 r v)
  ∧ (roundLimit64 ≤ |v| → r = signedInf64 (decide (v < 0)))
  ∧ (v ≠ 0 → r.msb = decide (v < 0))

/-- Equal but for the payload of a NaN, which R12 leaves open: what R116 calls bit-identical. -/
def SameUpToNaN32 (a b : F32) : Prop := a = b ∨ isNaN32 a = true ∧ isNaN32 b = true

end Sys2Proof.Machine
end

