-- ==== Sys2Proof/Certificates/Slice0/Obligations.lean ====
section
/-! DEFINITION. The statements for the provers. Wherever a free value can enter, the statement says "for some
draw": it holds whatever the free value is. -/

open Sys2Proof Sys2Proof.Machine

/-! ## Command words -/

/-- R73, R77: no bit of a command's encoding is dropped. -/
def Obligations.DecodeOfEncode : Prop := ∀ i : Instr, decode (encode i) = .ok i

/-- R77, R78: a word that decodes is the one word of its command. -/
def Obligations.EncodeOfDecode : Prop := ∀ (w : Cmd) (i : Instr), decode w = .ok i → encode i = w

/-- R77: a word is command M exactly when it agrees with M's match under M's mask, and no two rows overlap. -/
def Obligations.DecodeFollowsMaskAndMatch : Prop :=
  (∀ (w : Cmd) (i : Instr), decode w = .ok i →
      ∃ r ∈ opcodeRows, r.mnemonic = i.mnemonic ∧ w &&& r.mask = r.bits)
  ∧ (∀ (w : Cmd), ∀ r ∈ opcodeRows, w &&& r.mask = r.bits → ∃ i, decode w = .ok i ∧ i.mnemonic = r.mnemonic)
  ∧ (∀ (w : Cmd), ∀ r ∈ opcodeRows, ∀ r' ∈ opcodeRows, w &&& r.mask = r.bits → w &&& r'.mask = r'.bits → r = r')

/-- Words written out from the encodings of Table R77 decode to their commands. -/
def Obligations.WrittenWordsDecode : Prop :=
  decode 0x010000000000#48 = .ok .rst
  ∧ decode 0x0200472C4400#48 = .ok (.wr 0x00#8 0x472C4400#32)
  ∧ decode 0x037800000000#48 = .ok (.rd 0x78#8)
  ∧ decode 0x040000000000#48 = .ok .init
  ∧ decode 0x05003F000000#48 = .ok (.push 0x3F000000#32)
  ∧ decode 0x060000000000#48 = .ok .flush
  ∧ decode 0x0700BF800000#48 = .ok (.enc 0xBF800000#32)
  ∧ decode 0x080000000080#48 = .ok (.dec 0x80#8)

/-- R78: which words are illegal, and that one changes only `ERRSTAT.ILLEGAL` and is answered with its `op`. -/
def Obligations.IllegalWordOnlySetsIllegal : Prop :=
  (∀ w : Cmd, legalWord w = false ↔
      let op := (w.extractLsb' 40 8).toNat
      op = 0 ∨ 9 ≤ op ∨ (op = 1 ∨ op = 4 ∨ op = 6) ∧ w.extractLsb' 0 40 ≠ 0#40 ∨ op = 3 ∧ w.extractLsb' 0 32 ≠ 0#32
        ∨ (op = 5 ∨ op = 7) ∧ w.extractLsb' 32 8 ≠ 0#8 ∨ op = 8 ∧ w.extractLsb' 8 32 ≠ 0#32)
  ∧ (legalWord 0x000000000000#48 = false ∧ legalWord 0xFFFFFFFFFFFF#48 = false)
  ∧ ∀ (s : State) (w : Cmd) (rest : List HostInput), s.inputs = .command w :: rest → legalWord w = false →
      step s = .next { s with
        inputs := rest
        errstat := s.errstat ||| 0b000001#6
        rsps := ⟨15#4, (w.extractLsb' 40 8 ++ 0x01#8).setWidth 64⟩ :: s.rsps }

/-- R83: the pseudo-commands expand to `WR` commands of the indices of Table R21, in order. -/
def Obligations.PseudoCommandsExpand : Prop :=
  (∀ b0 b1 b2 a1 a2 : F32,
    ldcoef .llp b0 b1 b2 a1 a2 = [.wr 0x10#8 b0, .wr 0x11#8 b1, .wr 0x12#8 b2, .wr 0x13#8 a1, .wr 0x14#8 a2]
    ∧ ldcoef .lhp b0 b1 b2 a1 a2 = [.wr 0x18#8 b0, .wr 0x19#8 b1, .wr 0x1A#8 b2, .wr 0x1B#8 a1, .wr 0x1C#8 a2]
    ∧ ldcoef .hlp b0 b1 b2 a1 a2 = [.wr 0x20#8 b0, .wr 0x21#8 b1, .wr 0x22#8 b2, .wr 0x23#8 a1, .wr 0x24#8 a2]
    ∧ ldcoef .hhp b0 b1 b2 a1 a2 = [.wr 0x28#8 b0, .wr 0x29#8 b1, .wr 0x2A#8 b2, .wr 0x2B#8 a1, .wr 0x2C#8 a2])
  ∧ ∀ sr bps llp lhp hlp hhp : F32,
    ldcfg sr bps llp lhp hlp hhp
      = [.wr 0x00#8 sr, .wr 0x01#8 bps, .wr 0x02#8 llp, .wr 0x03#8 lhp, .wr 0x04#8 hlp, .wr 0x05#8 hhp]

/-- R82: every register is written by its name of Table R21, a coefficient also by its alias, and any index as
`#0xNN`. -/
def Obligations.RegisterNamesAssemble : Prop :=
  (∀ r : Reg, ∀ n ∈ r.names, assembleLine ("RD ".toList ++ n) = some [.rd r.index])
  ∧ ∀ i : Fin 16, ∀ j : Fin 16,
      assembleLine ("RD #0x".toList ++ ["0123456789ABCDEF".toList[i.val]!, "0123456789ABCDEF".toList[j.val]!])
        = some [.rd (BitVec.ofNat 8 (16 * i.val + j.val))]

/-- R52: the host's byte order loses nothing of a command word and of a response's data, byte `n` of each being bits
`8n+7 : 8n`, and gives the eight bytes of a bin in field order. -/
def Obligations.ByteOrderRoundTrip : Prop :=
  (∀ w : Cmd, (bytesOfWord w).length = 6 ∧ wordOfBytes (bytesOfWord w) = w
    ∧ ∀ n : Nat, n < 6 → (bytesOfWord w)[n]? = some (w.extractLsb' (8 * n) 8))
  ∧ (∀ v : BitVec 64, (bytesOfData v).length = 8 ∧ dataOfBytes (bytesOfData v) = v
    ∧ ∀ n : Nat, n < 8 → (bytesOfData v)[n]? = some (v.extractLsb' (8 * n) 8))
  ∧ ∀ all low mid high : BitVec 8 × BitVec 8,
      bytesOfData (binPayload all low mid high)
        = [all.1, all.2, low.1, low.2, mid.1, mid.2, high.1, high.2]

/-! ## The step -/

/-- R81, R225: a step runs the decoded command, with the word taken off the host's sequence. -/
def Obligations.StepRunsDecodedCommand : Prop :=
  ∀ (s : State) (w : Cmd) (rest : List HostInput) (i : Instr),
    s.inputs = .command w :: rest → decode w = .ok i → step s = exec i { s with inputs := rest }

/-- R225, R58, R72, R75: every word, legal or not, in every state, is answered by exactly one response, and kinds 5
to 14 are never produced; `NONE` and `ACK` carry no data, and the bits that a kind does not define are 0. -/
def Obligations.EveryWordGetsOneResponse : Prop :=
  ∀ (s : State) (w : Cmd) (rest : List HostInput), s.inputs = .command w :: rest →
    ∃ t r, step s = .next t ∧ t.inputs = rest ∧ t.rsps = r :: s.rsps
      ∧ (r.kind = 0#4 ∧ r.data = 0#64 ∨ r.kind = 1#4 ∧ r.data = 0#64 ∨ r.kind = 2#4 ∨ r.kind = 3#4
          ∨ r.kind = 4#4 ∧ r.data.extractLsb' 8 56 = 0#56
          ∨ r.kind = 15#4 ∧ r.data.extractLsb' 16 48 = 0#48
              ∧ (r.data.extractLsb' 0 8 = 1#8 ∨ r.data.extractLsb' 0 8 = 2#8 ∨ r.data.extractLsb' 0 8 = 3#8
                  ∨ r.data.extractLsb' 0 8 = 4#8))

/-- R211: while the host presents nothing, the block keeps all registers. -/
def Obligations.IdleBlockKeepsEverything : Prop := ∀ s : State, s.inputs = [] → step s = .next s

/-- R35: after the reset input and after `RST`, every register reads its reset value 0, in whatever state it
happened; the reset input gives no response, `RST` gives `ACK`; afterwards an `RD` of any assigned index answers
`DATA` 0. -/
def Obligations.ResetZeroesEveryRegister : Prop :=
  (∀ (s : State) (rest : List HostInput), s.inputs = .reset :: rest →
      ∃ t, step s = .next t ∧ t.inputs = rest ∧ t.rsps = s.rsps ∧ (∀ r : Reg, readReg t r = 0#64)
        ∧ ∀ i : BitVec 8, assignedIndex i = true → exec (.rd i) t = .next { t with rsps := ⟨3#4, 0#64⟩ :: t.rsps })
  ∧ ∀ s : State, ∃ t, exec .rst s = .next t ∧ t.inputs = s.inputs ∧ t.rsps = ⟨0#4, 0#64⟩ :: s.rsps
      ∧ (∀ r : Reg, readReg t r = 0#64)
      ∧ ∀ i : BitVec 8, assignedIndex i = true → exec (.rd i) t = .next { t with rsps := ⟨3#4, 0#64⟩ :: t.rsps }

/-! ## Register access -/

/-- R21, R188: the 56 assigned and 26 writable indices, and that no two registers share one. -/
def Obligations.RegisterIndexMap : Prop :=
  (∀ i : BitVec 8, (Reg.ofIndex i).isSome = assignedIndex i)
  ∧ (∀ (i : BitVec 8) (r : Reg), Reg.ofIndex i = some r ↔ r.index = i)
  ∧ (∀ (i : BitVec 8) (r : Reg), Reg.ofIndex i = some r → r.writable = writableIndex i)
  ∧ Reg.all.length = 56 ∧ (Reg.all.filter Reg.writable).length = 26

/-- R93, Table R21: what `RD` returns for every assigned index, in every phase; nothing else changes. -/
def Obligations.RdReturnsRegister : Prop :=
  ∀ s : State,
    let data (v : BitVec 64) : Host.Outcome State Fault Refusal := .next { s with rsps := ⟨3#4, v⟩ :: s.rsps }
    exec (.rd 0x00#8) s = data (s.cfg.sr.setWidth 64) ∧ exec (.rd 0x01#8) s = data (s.cfg.bps.setWidth 64)
    ∧ exec (.rd 0x02#8) s = data (s.cfg.fLlp.setWidth 64) ∧ exec (.rd 0x03#8) s = data (s.cfg.fLhp.setWidth 64)
    ∧ exec (.rd 0x04#8) s = data (s.cfg.fHlp.setWidth 64) ∧ exec (.rd 0x05#8) s = data (s.cfg.fHhp.setWidth 64)
    ∧ (∀ (c : Fin 4) (k : Fin 5),
        exec (.rd (BitVec.ofNat 8 (0x10 + 8 * c.val + k.val))) s = data (s.coef[c][k].setWidth 64))
    ∧ (∀ (i : Fin 8) (j : Fin 2),
        exec (.rd (BitVec.ofNat 8 (0x40 + 2 * i.val + j.val))) s = data (s.z[i][j].setWidth 64))
    ∧ (∀ b : Fin 4, exec (.rd (BitVec.ofNat 8 (0x60 + b.val))) s = data (s.peak[b].setWidth 64))
    ∧ (∀ b : Fin 4, exec (.rd (BitVec.ofNat 8 (0x68 + b.val))) s = data s.rmsSum[b])
    ∧ exec (.rd 0x70#8) s = data (s.spb.setWidth 64) ∧ exec (.rd 0x71#8) s = data (s.pend.setWidth 64)
    ∧ exec (.rd 0x72#8) s = data (s.nacc.setWidth 64) ∧ exec (.rd 0x73#8) s = data (s.lastn.setWidth 64)
    ∧ exec (.rd 0x78#8) s = data (s.phase.setWidth 64) ∧ exec (.rd 0x79#8) s = data (s.errstat.setWidth 64)

/-- R92: in `IDLE`, `WR` of a writable index stores the pattern as it stands, answers `ACK`, and leaves every other
index as it reads. -/
def Obligations.WrStoresPatternOnly : Prop :=
  ∀ (s : State) (i : BitVec 8) (d : F32), s.phase = phaseIdle → writableIndex i = true →
    ∃ t, exec (.wr i d) s = .next t ∧ t.rsps = ⟨0#4, 0#64⟩ :: s.rsps ∧ t.inputs = s.inputs ∧ t.draws = s.draws
      ∧ readIndex i t = some (d.setWidth 64) ∧ ∀ j : BitVec 8, j ≠ i → readIndex j t = readIndex j s

/-- R188: the `INDEX` fault of `RD` in every phase and of `WR` in `IDLE`, to a hole and to a read-only register alike;
outside `IDLE` the phase check comes first, so a `WR` in `RUN` to any index is a `PHASE` error. -/
def Obligations.IndexFault : Prop :=
  (∀ (s : State) (i : BitVec 8), assignedIndex i = false →
      exec (.rd i) s = .next { s with
        errstat := s.errstat ||| 0b000100#6
        rsps := ⟨15#4, (i ++ 0x03#8).setWidth 64⟩ :: s.rsps })
  ∧ (∀ (s : State) (i : BitVec 8) (d : F32), s.phase = phaseIdle → writableIndex i = false →
      exec (.wr i d) s = .next { s with
        errstat := s.errstat ||| 0b000100#6
        rsps := ⟨15#4, (i ++ 0x03#8).setWidth 64⟩ :: s.rsps })
  ∧ ∀ (s : State) (i : BitVec 8) (d : F32), s.phase = phaseRun →
      exec (.wr i d) s = .next { s with errstat := s.errstat ||| 0b000010#6, rsps := ⟨15#4, 0x0102#64⟩ :: s.rsps }

/-! ## Phases and errors -/

/-- R187: the phase table. Outside the accepting phase a command raises `Err(PHASE, PHASE)` and nothing else changes;
where the table says yes, the command is never answered with that error (what its own rule then does is in the
statements of the commands). The table has the phases 0, 1 and 2; that a phase of 3, which is never produced, is
treated as one that the table does not accept, with detail 3, is the model's choice: log entry 12. -/
def Obligations.PhaseTable : Prop :=
  ∀ (s : State) (i : Instr),
    let accepted : Bool :=
      match i with
      | .rst => true
      | .wr _ _ => s.phase == 0#2
      | .rd _ => true
      | .init => s.phase == 0#2
      | .push _ => s.phase == 1#2
      | .flush => s.phase == 1#2
      | .enc _ => true
      | .dec _ => true
    (accepted = false →
      exec i s = .next { s with
        errstat := s.errstat ||| 0b000010#6
        rsps := ⟨15#4, (s.phase.setWidth 8 ++ 0x02#8).setWidth 64⟩ :: s.rsps })
    ∧ (accepted = true → ∀ t r, exec i s = .next t → t.rsps = r :: s.rsps →
        ¬ (r.kind = 15#4 ∧ r.data.extractLsb' 0 8 = 0x02#8))

/-- R190: a word that is answered with an error, whichever, leaves every register other than `ERRSTAT` exactly as it
was, sets exactly the sticky bit of the code it reports, and is answered so again if it is sent again. -/
def Obligations.RejectedCommandOnlySetsItsBit : Prop :=
  ∀ (s t : State) (w : Cmd) (rest : List HostInput) (d : BitVec 64), s.inputs = .command w :: rest →
    step s = .next t → t.rsps = ⟨15#4, d⟩ :: s.rsps →
    (∃ n : Nat, n < 4 ∧ d.extractLsb' 0 8 = BitVec.ofNat 8 (n + 1) ∧ d.extractLsb' 16 48 = 0#48
      ∧ t = { s with inputs := rest, errstat := s.errstat ||| (1#6 <<< n), rsps := ⟨15#4, d⟩ :: s.rsps })
    ∧ ∃ u, acceptWord w t = .next u ∧ u.rsps = ⟨15#4, d⟩ :: t.rsps

/-- R32: a sticky bit, once set, is cleared by no command but `RST`. -/
def Obligations.StickyBitsStay : Prop :=
  ∀ (s t : State) (i : Instr), i ≠ .rst → exec i s = .next t → s.errstat &&& t.errstat = s.errstat

/-- R41: the only phase transitions of a command. -/
def Obligations.PhaseTransitions : Prop :=
  ∀ (s t : State) (i : Instr), exec i s = .next t →
    t.phase = s.phase ∨ i = .rst ∧ t.phase = phaseIdle
      ∨ i = .init ∧ s.phase = phaseIdle ∧ t.phase = phaseRun ∧ t.rsps = ⟨0#4, 0#64⟩ :: s.rsps
      ∨ i = .flush ∧ s.phase = phaseRun ∧ t.phase = phaseDone

/-- R22, R62: from a successful `INIT` until the next reset, no command changes the configuration, a coefficient or
`SPB`. -/
def Obligations.ConfigurationFrozenAfterInit : Prop :=
  ∀ (s t : State) (i : Instr), s.phase ≠ phaseIdle → i ≠ .rst → exec i s = .next t →
    t.cfg = s.cfg ∧ t.coef = s.coef ∧ t.spb = s.spb

/-! ## INIT -/

/-- R94, R96: in `IDLE` with a configuration that passes the six checks, `INIT` answers `ACK`, sets `SPB` to
`max(SR / BPS, 64.0)`, clears the running state, enters `RUN`, and touches nothing else. -/
def Obligations.InitConstructs : Prop :=
  ∀ s : State, s.phase = phaseIdle →
    isFinite32 s.cfg.sr = true → f32gt s.cfg.sr 0x00000000#32 = true →
    isFinite32 s.cfg.bps = true → f32gt s.cfg.bps 0x00000000#32 = true →
    (∀ f ∈ [s.cfg.fLlp, s.cfg.fLhp, s.cfg.fHlp, s.cfg.fHhp],
        f32le 0x41A00000#32 f = true ∧ f32le f 0x469C4000#32 = true) →
    f32le s.cfg.fLhp s.cfg.fLlp = true → f32lt s.cfg.fLlp s.cfg.fHhp = true →
    f32le s.cfg.fHhp s.cfg.fHlp = true →
    ∃ q : F32, (∀ k, q = f32div k s.cfg.sr s.cfg.bps) ∧ isNaN32 q = false
      ∧ exec .init s = .next { s with
          spb := if f32gt q 0x42800000#32 then q else 0x42800000#32
          z := .replicate 8 (.replicate 2 0#32)
          peak := .replicate 4 0#32
          rmsSum := .replicate 4 0#64
          pend := 0#32
          nacc := 0#32
          lastn := 0#32
          phase := 1#2
          rsps := ⟨0#4, 0#64⟩ :: s.rsps }

/-- R95: the mask that a rejected `INIT` reports, bit by bit, and that nothing but `ERRSTAT.CONFIG` changes. -/
def Obligations.InitReportsFailedChecks : Prop :=
  ∀ s : State, s.phase = phaseIdle →
    ∃ d : BitVec 6,
      (d.getLsbD 0 = true ↔ ¬ (isFinite32 s.cfg.sr = true ∧ f32gt s.cfg.sr 0x00000000#32 = true))
      ∧ (d.getLsbD 1 = true ↔ ¬ (isFinite32 s.cfg.bps = true ∧ f32gt s.cfg.bps 0x00000000#32 = true))
      ∧ (d.getLsbD 2 = true ↔ ¬ ∀ f ∈ [s.cfg.fLlp, s.cfg.fLhp, s.cfg.fHlp, s.cfg.fHhp],
          f32le 0x41A00000#32 f = true ∧ f32le f 0x469C4000#32 = true)
      ∧ (d.getLsbD 3 = true ↔ ¬ f32le s.cfg.fLhp s.cfg.fLlp = true)
      ∧ (d.getLsbD 4 = true ↔ ¬ f32lt s.cfg.fLlp s.cfg.fHhp = true)
      ∧ (d.getLsbD 5 = true ↔ ¬ f32le s.cfg.fHhp s.cfg.fHlp = true)
      ∧ (d ≠ 0#6 →
          exec .init s = .next { s with
            errstat := s.errstat ||| 0b001000#6
            rsps := ⟨15#4, (d.setWidth 8 ++ 0x04#8).setWidth 64⟩ :: s.rsps })
      ∧ (d = 0#6 → ∃ t, exec .init s = .next t ∧ t.phase = phaseRun ∧ t.rsps = ⟨0#4, 0#64⟩ :: s.rsps)

/-- R27: after a successful `INIT`, `SPB >= 64.0` and `SPB` is not NaN. -/
def Obligations.InitLeavesSpbAtLeast64 : Prop :=
  ∀ s t : State, s.phase = phaseIdle → exec .init s = .next t → t.phase = phaseRun →
    isNaN32 t.spb = false ∧ f32ge t.spb 0x42800000#32 = true

/-! ## PUSH and FLUSH -/

/-- R151 while accumulating: in `RUN` with `PEND >= SPB` false, `PUSH` answers `NONE`, feeds the sample, counts it
in `NACC` (saturating) and `PEND`, and touches nothing else. -/
def Obligations.PushFeedsSample : Prop :=
  ∀ (s : State) (x : F32), s.phase = phaseRun → f32ge s.pend s.spb = false →
    ∃ t, exec (.push x) s = .next t ∧ FedBy x s s.peak s.rmsSum s.pend s.errstat t
      ∧ t.rsps = ⟨1#4, 0#64⟩ :: s.rsps
      ∧ t.nacc = (if s.nacc = 0xFFFFFFFF#32 then s.nacc else s.nacc + 1#32) ∧ t.lastn = s.lastn
      ∧ t.cfg = s.cfg ∧ t.coef = s.coef ∧ t.spb = s.spb ∧ t.phase = s.phase ∧ t.inputs = s.inputs

/-- R151 at a boundary: in `RUN` with `PEND >= SPB`, `PUSH` answers `BIN` of the window held, latches its length,
carries the residual over, and the sample is the first of the next window; the filters run on. -/
def Obligations.PushAtBoundary : Prop :=
  ∀ (s : State) (x : F32), s.phase = phaseRun → f32ge s.pend s.spb = true →
    ∃ t w flags k, exec (.push x) s = .next t ∧ WindowOf s w flags ∧ t.rsps = ⟨2#4, w⟩ :: s.rsps
      ∧ FedBy x s (.replicate 4 0#32) (.replicate 4 0#64) (f32sub k s.pend s.spb) flags t
      ∧ t.nacc = 1#32 ∧ t.lastn = s.nacc
      ∧ t.cfg = s.cfg ∧ t.coef = s.coef ∧ t.spb = s.spb ∧ t.phase = s.phase ∧ t.inputs = s.inputs

/-- R153: the response of a `PUSH` and the length it latches do not depend on the sample it carries, nor on which free
values are drawn: kind, `LASTN`, `NACC` and `PHASE` never; in a state of the invariant no peak code either, and the
energy code of a band only if its sum is a NaN, where R173 leaves the code open at each occurrence. -/
def Obligations.PushResponseExcludesItsSample : Prop :=
  ∀ (s : State) (x y : F32) (n : Nat), ∃ t u r q,
    exec (.push x) s = .next t ∧ exec (.push y) { s with draws := n } = .next u
    ∧ t.rsps = r :: s.rsps ∧ u.rsps = q :: s.rsps ∧ r.kind = q.kind
    ∧ t.lastn = u.lastn ∧ t.nacc = u.nacc ∧ t.phase = u.phase
    ∧ (Inv s → ∀ b : Fin 4,
        r.data.extractLsb' (16 * b.val) 8 = q.data.extractLsb' (16 * b.val) 8
        ∧ (isNaN64 s.rmsSum[b] = false →
            r.data.extractLsb' (16 * b.val + 8) 8 = q.data.extractLsb' (16 * b.val + 8) 8))

/-- R152: in `RUN` with a sample in the window, `FLUSH` answers `BIN` of the window held, whatever its length,
latches the length, clears the accumulators, the count and `PEND`, and enters `DONE`; the filters keep their
values. -/
def Obligations.FlushFinishesWindow : Prop :=
  ∀ s : State, s.phase = phaseRun → s.nacc ≠ 0#32 →
    ∃ t w, exec .flush s = .next t ∧ WindowOf s w t.errstat ∧ t.rsps = ⟨2#4, w⟩ :: s.rsps
      ∧ t.lastn = s.nacc ∧ t.nacc = 0#32 ∧ t.pend = 0#32 ∧ t.phase = phaseDone
      ∧ t.peak = .replicate 4 0#32 ∧ t.rmsSum = .replicate 4 0#64
      ∧ t.cfg = s.cfg ∧ t.coef = s.coef ∧ t.z = s.z ∧ t.spb = s.spb ∧ t.inputs = s.inputs

/-- R152: in `RUN` with no sample in the window, `FLUSH` answers `NONE`; only `PEND` and `PHASE` change. -/
def Obligations.FlushOfEmptyWindow : Prop :=
  ∀ s : State, s.phase = phaseRun → s.nacc = 0#32 →
    exec .flush s = .next { s with pend := 0#32, phase := 2#2, rsps := ⟨1#4, 0#64⟩ :: s.rsps }

/-- R157 and R155 for an integer `SPB`: a stream of N samples from a fresh `RUN` state, then `FLUSH`. The bin for
samples (k-1)S+1 .. kS is the response of push number kS+1; the pushes return floor((N-1)/S) bins and `FLUSH` one
more if N is not 0; in total ceil(N/S), whose lengths sum to N. -/
def Obligations.BinsOfIntegerWindows : Prop :=
  ∀ (S : Nat) (xs : List F32) (s : State), 64 ≤ S → S ≤ 16777216 → s.spb = natTof32 S →
    s.phase = phaseRun → s.pend = 0#32 → s.nacc = 0#32 →
    ∃ t r, exec .flush (pushAll xs s).2 = .next t ∧ t.rsps = r :: (pushAll xs s).2.rsps
      ∧ (pushAll xs s).1.length = xs.length
      ∧ (∀ n (h : n < (pushAll xs s).1.length),
          (pushAll xs s).1[n].1.isBin = true ↔ n ≠ 0 ∧ S ∣ n)
      ∧ ((pushAll xs s).1.filter (·.1.isBin)).length = (xs.length - 1) / S
      ∧ (r.isBin = true ↔ xs ≠ [])
      ∧ (binCounts ((pushAll xs s).1 ++ [(r, t.lastn)])).length = (xs.length + S - 1) / S
      ∧ (binCounts ((pushAll xs s).1 ++ [(r, t.lastn)])).sum = xs.length

/-- 95_test_vectors.md section 5: while no window exceeds 2^32 - 1 samples, every accepted `PUSH` is counted once,
in `LASTN` when its response is a `BIN` and in `NACC` otherwise. -/
def Obligations.EveryPushIsCounted : Prop :=
  ∀ (s t : State) (x : F32) (r : Response), s.phase = phaseRun → s.nacc ≠ 0xFFFFFFFF#32 →
    exec (.push x) s = .next t → t.rsps = r :: s.rsps →
    (r.isBin = true ∧ t.lastn = s.nacc ∧ t.nacc = 1#32)
      ∨ (r.isBin = false ∧ t.lastn = s.lastn ∧ t.nacc = s.nacc + 1#32)

/-- R156: with `SPB` above 2^24, or infinite, no `PUSH` of a reachable state ever finds a boundary. -/
def Obligations.HugeSpbNeverEndsWindow : Prop :=
  ∀ (s t : State) (x : F32), Inv s → s.phase = phaseRun → f32gt s.spb pendMax = true →
    exec (.push x) s = .next t → t.rsps = ⟨1#4, 0#64⟩ :: s.rsps ∧ t.lastn = s.lastn

/-- R158: the waveform starts empty at the `ACK` of `INIT`, and each later command of the stream appends to it the
payload of its `BIN` response, if it has one, and nothing else. -/
def Obligations.WaveformCollectsBins : Prop :=
  (∀ s t : State, s.phase = phaseIdle → exec .init s = .next t → t.phase = phaseRun → waveform t = [])
  ∧ ∀ (s t : State) (i : Instr) (r : Response), s.phase ≠ phaseIdle → i ≠ .rst → exec i s = .next t →
      t.rsps = r :: s.rsps → waveform t = waveform s ++ if r.isBin then [r.data] else []

/-! ## The filter -/

/-- R111 on the vectors V20, V21 and V23, whatever the draws: four exact steps of section 0; five steps in which the
operations round, with the `LLP` set of Table R126; and two steps of that set after an infinite sample, where the NaN
`q` stands for the one that the first of them leaves, of whatever payload. -/
def Obligations.BiquadWorkedExample : Prop :=
  ∀ k : Nat,
    let co : Vector F32 5 := #v[0x3F000000#32, 0x3E800000#32, 0x3E000000#32, 0xBF000000#32, 0x3E800000#32]
    let llp : Vector F32 5 := #v[0x39A230D3#32, 0x3A2230D3#32, 0x39A230D3#32, 0xBFF98DB8#32, 0x3F736C89#32]
    biquad k co #v[0x00000000#32, 0x00000000#32] 0x3F800000#32 = (0x3F000000#32, #v[0x3F000000#32, 0x00000000#32])
    ∧ biquad k co #v[0x3F000000#32, 0x00000000#32] 0x3F800000#32 = (0x3F800000#32, #v[0x3F400000#32, 0xBE000000#32])
    ∧ biquad k co #v[0x3F400000#32, 0xBE000000#32] 0xC0000000#32 = (0xBE800000#32, #v[0xBF400000#32, 0xBE400000#32])
    ∧ biquad k co #v[0xBF400000#32, 0xBE400000#32] 0x00000000#32 = (0xBF400000#32, #v[0xBF100000#32, 0x3E400000#32])
    ∧ biquad k llp #v[0x00000000#32, 0x00000000#32] 0x3F800000#32 = (0x39A230D3#32, #v[0x3AA0260D#32, 0x377EF6E0#32])
    ∧ biquad k llp #v[0x3AA0260D#32, 0x377EF6E0#32] 0x00000000#32 = (0x3AA0260D#32, #v[0x3B1D1CA2#32, 0xBA984804#32])
    ∧ biquad k llp #v[0x3B1D1CA2#32, 0xBA984804#32] 0x00000000#32 = (0x3B1D1CA2#32, #v[0x3B662BA4#32, 0xBB1564CA#32])
    ∧ biquad k llp #v[0x3B662BA4#32, 0xBB1564CA#32] 0x00000000#32 = (0x3B662BA4#32, #v[0x3B95AD79#32, 0xBB5ADD02#32])
    ∧ biquad k llp #v[0x3B95AD79#32, 0xBB5ADD02#32] 0x3F000000#32 = (0x3B9ABF00#32, #v[0x3BCA676E#32, 0xBB8E1361#32])
    ∧ (let r := biquad k llp #v[0x00000000#32, 0x00000000#32] 0x7F800000#32
      r.1 = 0x7F800000#32 ∧ r.2[0] = 0x7F800000#32 ∧ isNaN32 r.2[1] = true)
    ∧ ∀ q : F32, isNaN32 q = true →
        let r := biquad k llp #v[0x7F800000#32, q] 0x00000000#32
        r.1 = 0x7F800000#32 ∧ isNaN32 r.2[0] = true ∧ r.2[1] = 0xFF800000#32

/-- R115: nothing is fused: the product is rounded before it is added. -/
def Obligations.BiquadIsNotFused : Prop :=
  ∀ k : Nat,
    f32mul k 0x3F800800#32 0x3F800800#32 = 0x3F801000#32
    ∧ (biquad k #v[0x3F800800#32, 0#32, 0#32, 0#32, 0#32] #v[0xBF800000#32, 0#32] 0x3F800800#32).1 = 0x3A000000#32

/-- R114: with pass-through coefficients and a delay pair of `+0.0`, a section returns every finite non-zero sample
bit for bit and keeps the pair; `-0.0` gives `+0.0` and leaves `-0.0` in the second register. -/
def Obligations.PassThroughSection : Prop :=
  (∀ (k : Nat) (x : F32), isFinite32 x = true → isZero32 x = false →
      biquad k passThrough #v[0#32, 0#32] x = (x, #v[0#32, 0#32]))
  ∧ (∀ k : Nat, biquad k passThrough #v[0#32, 0#32] 0x00000000#32 = (0#32, #v[0#32, 0#32]))
  ∧ (∀ k : Nat, biquad k passThrough #v[0#32, 0#32] 0x80000000#32 = (0#32, #v[0#32, 0x80000000#32]))
  ∧ ∀ (k : Nat) (d : Vector F32 2) (x : F32), isZero32 d[0] = true → isZero32 d[1] = true → isFinite32 x = true →
      isZero32 (biquad k passThrough d x).2[0] = true ∧ isZero32 (biquad k passThrough d x).2[1] = true
      ∧ (isZero32 x = false → (biquad k passThrough d x).1 = x)
      ∧ (isZero32 x = true → isZero32 (biquad k passThrough d x).1 = true)

/-- R112: a section with finite coefficients and zero delays turns zeros into zeros. -/
def Obligations.BiquadKeepsZeros : Prop :=
  ∀ (k : Nat) (co : Vector F32 5) (d : Vector F32 2) (x : F32), (∀ j : Fin 5, isFinite32 co[j] = true) →
    isZero32 d[0] = true → isZero32 d[1] = true → isZero32 x = true →
    isZero32 (biquad k co d x).1 = true ∧ isZero32 (biquad k co d x).2[0] = true
      ∧ isZero32 (biquad k co d x).2[1] = true

/-- R113: once the first delay register of a section is NaN it stays NaN, outside `IDLE`, until a reset. -/
def Obligations.NaNDelayStays : Prop :=
  ∀ (s t : State) (i : Instr) (j : Fin 8), s.phase ≠ phaseIdle → i ≠ .rst → exec i s = .next t →
    isNaN32 s.z[j][0] = true → isNaN32 t.z[j][0] = true

/-- R116, R122, V32: what a `PUSH` does to the `low` band depends on coefficient set `LLP` and the delay registers of
sections 0 and 1 alone; to the `mid` band, on sets `LHP` and `HLP` and sections 2 to 5; to the `high` band, on set
`HHP` and sections 6 and 7. The two states may draw different free values, so equality is up to NaN payloads. -/
def Obligations.BandsAreIndependent : Prop :=
  ∀ (s s' : State) (x : F32),
    let r := bankStep x s
    let r' := bankStep x s'
    let sameDelays (i : Fin 8) : Prop := ∀ j : Fin 2, SameUpToNaN32 r.2.z[i][j] r'.2.z[i][j]
    (s.coef[0] = s'.coef[0] → s.z[0] = s'.z[0] → s.z[1] = s'.z[1] →
      SameUpToNaN32 r.1[1] r'.1[1] ∧ sameDelays 0 ∧ sameDelays 1)
    ∧ (s.coef[1] = s'.coef[1] → s.coef[2] = s'.coef[2] → s.z[2] = s'.z[2] → s.z[3] = s'.z[3] → s.z[4] = s'.z[4] →
        s.z[5] = s'.z[5] →
      SameUpToNaN32 r.1[2] r'.1[2] ∧ sameDelays 2 ∧ sameDelays 3 ∧ sameDelays 4 ∧ sameDelays 5)
    ∧ (s.coef[3] = s'.coef[3] → s.z[6] = s'.z[6] → s.z[7] = s'.z[7] →
      SameUpToNaN32 r.1[3] r'.1[3] ∧ sameDelays 6 ∧ sameDelays 7)

/-- R221: the configuration registers influence no command but `RD`, `WR` and `INIT`: with another configuration,
`PUSH`, `FLUSH`, `ENC` and `DEC` give the same response and the same next state but for `CFG`. Both runs draw from one
counter; that they then draw the same NaN payloads and NaN codes is the model's choice, not the spec's: log entry 3. -/
def Obligations.ConfigurationDoesNotReachStream : Prop :=
  ∀ (s t : State) (c : Cfg) (i : Instr),
    ((∃ x, i = .push x) ∨ i = .flush ∨ (∃ x, i = .enc x) ∨ ∃ d, i = .dec d) → exec i s = .next t →
    exec i { s with cfg := c } = .next { t with cfg := c }

/-! ## Zero streams -/

/-- Source §8, R112, R142: from a state of the invariant in `RUN`, silent and with finite coefficients, a zero sample
is answered by `NONE` or by the all-zero bin, sets no flag, and leaves such a state again; `FLUSH` likewise, but that it
ends the stream. -/
def Obligations.ZeroStreamGivesZeroBins : Prop :=
  ∀ (s : State) (x : F32), Inv s → s.phase = phaseRun → FiniteCoefs s → Silent s → isZero32 x = true →
    (∃ t, exec (.push x) s = .next t ∧ Inv t ∧ t.phase = phaseRun ∧ FiniteCoefs t ∧ Silent t ∧ t.errstat = s.errstat
      ∧ (t.rsps = ⟨1#4, 0#64⟩ :: s.rsps ∨ t.rsps = ⟨2#4, 0#64⟩ :: s.rsps))
    ∧ ∃ t, exec .flush s = .next t ∧ Inv t ∧ t.phase = phaseDone ∧ FiniteCoefs t ∧ Silent t ∧ t.errstat = s.errstat
      ∧ (t.rsps = ⟨1#4, 0#64⟩ :: s.rsps ∨ t.rsps = ⟨2#4, 0#64⟩ :: s.rsps)

/-! ## The quantizer -/

/-- R171, R172: for every finite non-negative operand (and `-0.0`), `ENC` answers `min(255, floor(256 x))` on real
numbers and sets no flag; for `+inf` it answers 255. -/
def Obligations.EncIsClampedFloor : Prop :=
  (∀ (s : State) (x : F32), isFinite32 x = true → 0 ≤ f32Rat x →
      ∃ n, exec (.enc x) s = .next { s with
        draws := n
        rsps := ⟨4#4, BitVec.ofNat 64 (min 255 ⌊256 * f32Rat x⌋.toNat)⟩ :: s.rsps })
  ∧ ∀ s : State, ∃ n, exec (.enc 0x7F800000#32) s = .next { s with draws := n, rsps := ⟨4#4, 255#64⟩ :: s.rsps }

/-- R171, R173: a negative operand gives code 0 and sets `NEG`; a NaN gives some code and sets `NONFIN`. Neither
rejects the command. -/
def Obligations.EncOfNegativeAndNaN : Prop :=
  (∀ (s : State) (x : F32), isNaN32 x = false → x.msb = true → isZero32 x = false →
      ∃ n, exec (.enc x) s = .next { s with
        draws := n, errstat := s.errstat ||| 0b010000#6, rsps := ⟨4#4, 0#64⟩ :: s.rsps })
  ∧ ∀ (s : State) (x : F32), isNaN32 x = true →
      ∃ (n : Nat) (code : BitVec 8), exec (.enc x) s = .next { s with
        draws := n, errstat := s.errstat ||| 0b100000#6, rsps := ⟨4#4, code.setWidth 64⟩ :: s.rsps }

/-- R174: on the non-negative numbers, `+inf` among them, `Encode` is non-decreasing; the smallest number with a code
of at least `c` is `c/256`. -/
def Obligations.EncodeIsMonotone : Prop :=
  (∀ (k k' : Nat) (x y : F32), f32ge x 0x00000000#32 = true → f32le x y = true →
      (encodeCode k x).toNat ≤ (encodeCode k' y).toNat)
  ∧ ∀ (k : Nat) (x : F32) (c : Nat), isFinite32 x = true → 0 ≤ f32Rat x → c ≤ 255 →
      (c ≤ (encodeCode k x).toNat ↔ (c : ℚ) / 256 ≤ f32Rat x)

/-- R176: `DEC c` answers the binary32 value nearest to `c / 255`, in every phase, and changes no register. -/
def Obligations.DecIsNearestQuotient : Prop :=
  ∀ c : BitVec 8, ∃ d : F32, isFinite32 d = true
    ∧ (∀ y : F32, isFinite32 y = true → |f32Rat d - c.toNat / 255| ≤ |f32Rat y - c.toNat / 255|)
    ∧ ∀ s : State, exec (.dec c) s = .next { s with rsps := ⟨3#4, d.setWidth 64⟩ :: s.rsps }

/-- R178: the round trip code, value, code is exact for all 256 codes, in any two states; code 0 is `+0.0` and code
255 is 1.0. -/
def Obligations.CodesSurviveRoundTrip : Prop :=
  (∀ c : BitVec 8, ∃ d : F32,
      (∀ s : State, exec (.dec c) s = .next { s with rsps := ⟨3#4, d.setWidth 64⟩ :: s.rsps })
      ∧ ∀ s : State, ∃ n, exec (.enc d) s = .next { s with draws := n, rsps := ⟨4#4, c.setWidth 64⟩ :: s.rsps })
  ∧ ∀ s : State, exec (.dec 0x00#8) s = .next { s with rsps := ⟨3#4, 0#64⟩ :: s.rsps }
      ∧ exec (.dec 0xFF#8) s = .next { s with rsps := ⟨3#4, 0x3F800000#64⟩ :: s.rsps }

/-! ## Arithmetic -/

/-- R11: the binary32 operations on finite operands round the exact result to nearest, ties to even, an infinity of its
sign from the rounding limit on; a sum of exactly 0 is `+0.0` unless both terms are negative zeros, a zero product or
quotient has the sign of its operands' signs, and a division by zero of what is not zero gives an infinity. An infinite
operand of a valid operation gives an infinity, but a finite number over an infinity a zero. -/
def Obligations.F32ArithmeticRoundsToNearest : Prop :=
  (∀ (k : Nat) (a b : F32), isFinite32 a = true → isFinite32 b = true →
    RoundsTo32 (f32add k a b) (f32Rat a + f32Rat b)
    ∧ RoundsTo32 (f32sub k a b) (f32Rat a - f32Rat b)
    ∧ RoundsTo32 (f32mul k a b) (f32Rat a * f32Rat b)
    ∧ (isZero32 b = false → RoundsTo32 (f32div k a b) (f32Rat a / f32Rat b))
    ∧ (f32Rat a + f32Rat b = 0 → f32add k a b = signedZero32 (a.msb && b.msb))
    ∧ (f32Rat a - f32Rat b = 0 → f32sub k a b = signedZero32 (a.msb && !b.msb))
    ∧ (f32Rat a * f32Rat b = 0 → f32mul k a b = signedZero32 (a.msb != b.msb))
    ∧ (isZero32 a = true → isZero32 b = false → f32div k a b = signedZero32 (a.msb != b.msb))
    ∧ (isZero32 a = false → isZero32 b = true → f32div k a b = signedInf32 (a.msb != b.msb)))
  ∧ (∀ (k : Nat) (n : Bool) (a : F32), isFinite32 a = true →
      f32add k (signedInf32 n) a = signedInf32 n ∧ f32add k a (signedInf32 n) = signedInf32 n
      ∧ f32sub k (signedInf32 n) a = signedInf32 n ∧ f32sub k a (signedInf32 n) = signedInf32 (!n)
      ∧ (isZero32 a = false → f32mul k (signedInf32 n) a = signedInf32 (n != a.msb)
          ∧ f32mul k a (signedInf32 n) = signedInf32 (a.msb != n))
      ∧ f32div k (signedInf32 n) a = signedInf32 (n != a.msb)
      ∧ f32div k a (signedInf32 n) = signedZero32 (a.msb != n))
  ∧ ∀ (k : Nat) (n m : Bool),
      f32add k (signedInf32 n) (signedInf32 n) = signedInf32 n
      ∧ f32sub k (signedInf32 n) (signedInf32 (!n)) = signedInf32 n
      ∧ f32mul k (signedInf32 n) (signedInf32 m) = signedInf32 (n != m)

/-- R11: the binary64 operations of the accumulators, in the same sense; so none gives a NaN on finite operands, but for
`0/0`. -/
def Obligations.F64ArithmeticRoundsToNearest : Prop :=
  (∀ (k : Nat) (a b : F64), isFinite64 a = true → isFinite64 b = true →
    RoundsTo64 (f64add k a b) (f64Rat a + f64Rat b)
    ∧ RoundsTo64 (f64mul k a b) (f64Rat a * f64Rat b)
    ∧ (f64Rat b ≠ 0 → RoundsTo64 (f64div k a b) (f64Rat a / f64Rat b))
    ∧ (f64Rat a + f64Rat b = 0 → f64add k a b = signedZero64 (a.msb && b.msb))
    ∧ (f64Rat a * f64Rat b = 0 → f64mul k a b = signedZero64 (a.msb != b.msb))
    ∧ (f64Rat a = 0 → f64Rat b ≠ 0 → f64div k a b = signedZero64 (a.msb != b.msb))
    ∧ (f64Rat a ≠ 0 → f64Rat b = 0 → f64div k a b = signedInf64 (a.msb != b.msb)))
  ∧ (∀ (k : Nat) (n : Bool) (a : F64), isFinite64 a = true →
      f64add k (signedInf64 n) a = signedInf64 n ∧ f64add k a (signedInf64 n) = signedInf64 n
      ∧ (f64Rat a ≠ 0 → f64mul k (signedInf64 n) a = signedInf64 (n != a.msb)
          ∧ f64mul k a (signedInf64 n) = signedInf64 (a.msb != n))
      ∧ f64div k (signedInf64 n) a = signedInf64 (n != a.msb)
      ∧ f64div k a (signedInf64 n) = signedZero64 (a.msb != n))
  ∧ ∀ (k : Nat) (n m : Bool),
      f64add k (signedInf64 n) (signedInf64 n) = signedInf64 n
      ∧ f64mul k (signedInf64 n) (signedInf64 m) = signedInf64 (n != m)

/-- R11: the binary64 square root of a finite number of sign 0 is finite, of sign 0, and the value nearest to the real
root; the root of `-0.0` is `-0.0` and that of `+inf` is `+inf` (negative operands: `ProducedNaNsAreQuiet`). -/
def Obligations.F64SqrtRoundsToNearest : Prop :=
  (∀ (k : Nat) (a : F64), isFinite64 a = true → a.msb = false →
    isFinite64 (f64sqrt k a) = true ∧ (f64sqrt k a).msb = false
    ∧ ∀ y : F64, isFinite64 y = true →
        |(f64Rat (f64sqrt k a) : ℝ) - Real.sqrt (f64Rat a : ℝ)| ≤ |(f64Rat y : ℝ) - Real.sqrt (f64Rat a : ℝ)|)
  ∧ ∀ k : Nat, f64sqrt k (signedZero64 true) = signedZero64 true ∧ f64sqrt k (signedInf64 false) = signedInf64 false

/-- R11: the conversion of a finite binary64 number to binary32 rounds to nearest, ties to even, with an infinity from
the rounding limit on, and keeps the sign of a zero; both conversions keep infinities. -/
def Obligations.F64To32RoundsToNearest : Prop :=
  (∀ (k : Nat) (a : F64), isFinite64 a = true →
    RoundsTo32 (f64to32 k a) (f64Rat a) ∧ (f64Rat a = 0 → f64to32 k a = signedZero32 a.msb))
  ∧ ∀ (k : Nat) (neg : Bool),
      f64to32 k (signedInf64 neg) = signedInf32 neg ∧ f32to64 k (signedInf32 neg) = signedInf64 neg

/-- R11, R12: in both formats a NaN operand gives a NaN, an invalid operation gives a NaN, and every NaN that a
primitive produces is quiet: exponent all ones, top fraction bit 1, whatever the draw. -/
def Obligations.ProducedNaNsAreQuiet : Prop :=
  (∀ (k : Nat) (a b : F32), isNaN32 a = true ∨ isNaN32 b = true →
      isNaN32 (f32add k a b) = true ∧ isNaN32 (f32sub k a b) = true ∧ isNaN32 (f32mul k a b) = true
        ∧ isNaN32 (f32div k a b) = true)
  ∧ (∀ (k : Nat) (a b : F64), isNaN64 a = true ∨ isNaN64 b = true →
      isNaN64 (f64add k a b) = true ∧ isNaN64 (f64mul k a b) = true ∧ isNaN64 (f64div k a b) = true)
  ∧ (∀ (k : Nat) (a : F32), isNaN32 a = true → isNaN32 (f32floor k a) = true ∧ isNaN64 (f32to64 k a) = true)
  ∧ (∀ (k : Nat) (a : F64), isNaN64 a = true → isNaN64 (f64sqrt k a) = true ∧ isNaN32 (f64to32 k a) = true)
  ∧ (∀ (k : Nat) (n m : Bool),
      isNaN32 (f32add k (signedInf32 n) (signedInf32 (!n))) = true
        ∧ isNaN32 (f32sub k (signedInf32 n) (signedInf32 n)) = true
        ∧ isNaN32 (f32mul k (signedZero32 n) (signedInf32 m)) = true
        ∧ isNaN32 (f32mul k (signedInf32 n) (signedZero32 m)) = true
        ∧ isNaN32 (f32div k (signedZero32 n) (signedZero32 m)) = true
        ∧ isNaN32 (f32div k (signedInf32 n) (signedInf32 m)) = true)
  ∧ (∀ (k : Nat) (n m : Bool),
      isNaN64 (f64add k (signedInf64 n) (signedInf64 (!n))) = true
        ∧ isNaN64 (f64mul k (signedZero64 n) (signedInf64 m)) = true
        ∧ isNaN64 (f64mul k (signedInf64 n) (signedZero64 m)) = true
        ∧ isNaN64 (f64div k (signedZero64 n) (signedZero64 m)) = true
        ∧ isNaN64 (f64div k (signedInf64 n) (signedInf64 m)) = true)
  ∧ (∀ (k : Nat) (a : F64), a.msb = true → a ≠ signedZero64 true → isNaN64 (f64sqrt k a) = true)
  ∧ (∀ (k : Nat) (a b r : F32) (c : F64),
      r = f32add k a b ∨ r = f32sub k a b ∨ r = f32mul k a b ∨ r = f32div k a b ∨ r = f32floor k a ∨ r = f64to32 k c →
      isNaN32 r = true → r &&& 0x7FC00000#32 = 0x7FC00000#32)
  ∧ ∀ (k : Nat) (a b r : F64) (c : F32),
      r = f64add k a b ∨ r = f64mul k a b ∨ r = f64div k a b ∨ r = f64sqrt k a ∨ r = f32to64 k c →
      isNaN64 r = true → r &&& 0x7FF8000000000000#64 = 0x7FF8000000000000#64

/-- R11: the four comparisons are those of the numeric values, an infinity lying beyond every number of its sign; a NaN
operand makes each of them false. `f32abs` gives the absolute value, of an infinity `+inf`, and only clears the sign bit
of any pattern. `f32maxnum` is the operand that is a number if the other is a NaN (the first if both are NaNs), and of
two numbers the first if it is at least the second, else the second: one of them, and at least both. -/
def Obligations.ComparisonsAreNumeric : Prop :=
  (∀ a b : F32, isFinite32 a = true → isFinite32 b = true →
      (f32lt a b = true ↔ f32Rat a < f32Rat b) ∧ (f32le a b = true ↔ f32Rat a ≤ f32Rat b)
      ∧ (f32gt a b = true ↔ f32Rat b < f32Rat a) ∧ (f32ge a b = true ↔ f32Rat b ≤ f32Rat a))
  ∧ (∀ a b : F32, f32gt a b = f32lt b a ∧ f32ge a b = f32le b a)
  ∧ (∀ a b : F32, isNaN32 a = true ∨ isNaN32 b = true →
      f32lt a b = false ∧ f32le a b = false ∧ f32gt a b = false ∧ f32ge a b = false)
  ∧ (∀ a : F32, isFinite32 a = true →
      f32lt a 0x7F800000#32 = true ∧ f32lt 0xFF800000#32 a = true ∧ f32lt 0x7F800000#32 a = false
        ∧ f32lt a 0xFF800000#32 = false
        ∧ f32le a 0x7F800000#32 = true ∧ f32le 0xFF800000#32 a = true ∧ f32le 0x7F800000#32 a = false
        ∧ f32le a 0xFF800000#32 = false)
  ∧ (∀ n m : Bool, f32lt (signedInf32 n) (signedInf32 m) = (n && !m)
      ∧ f32le (signedInf32 n) (signedInf32 m) = (n || !m))
  ∧ (∀ a : F32, (f32abs a).msb = false ∧ (f32abs a).extractLsb' 0 31 = a.extractLsb' 0 31
      ∧ (isFinite32 a = true → isFinite32 (f32abs a) = true ∧ f32Rat (f32abs a) = |f32Rat a|))
  ∧ (∀ n : Bool, f32abs (signedInf32 n) = 0x7F800000#32)
  ∧ (∀ a b : F32, isNaN32 b = true → f32maxnum a b = a)
  ∧ (∀ a b : F32, isNaN32 a = true → isNaN32 b = false → f32maxnum a b = b)
  ∧ ∀ a b : F32, isNaN32 a = false → isNaN32 b = false →
      (f32ge a b = true → f32maxnum a b = a) ∧ (f32ge a b = false → f32maxnum a b = b)
      ∧ f32ge (f32maxnum a b) a = true ∧ f32ge (f32maxnum a b) b = true

/-- R136: the square of a finite band value is exact in binary64, so the only rounding of an accumulation is the
addition. -/
def Obligations.BandSquareIsExact : Prop :=
  ∀ (k k' : Nat) (v : F32), isFinite32 v = true →
    f64Rat (f32to64 k v) = f32Rat v ∧ isFinite64 (f64mul k' (f32to64 k v) (f32to64 k v)) = true
      ∧ f64Rat (f64mul k' (f32to64 k v) (f32to64 k v)) = f32Rat v ^ 2

/-- R11, R179: the integer conversions are exact. -/
def Obligations.IntegerConversionsAreExact : Prop :=
  (∀ c : BitVec 8, isFinite32 (u8tof32 c) = true ∧ f32Rat (u8tof32 c) = c.toNat)
  ∧ ∀ n : BitVec 32, isFinite64 (u32tof64 n) = true ∧ f64Rat (u32tof64 n) = n.toNat

/-! ## The invariant -/

/-- The reset state satisfies the invariant of the reachable states. -/
def Obligations.ResetSatisfiesInv : Prop := Inv State.reset

/-- Every step keeps the invariant of the reachable states (95_test_vectors.md section 5), from every state that
satisfies it. -/
def Obligations.StepKeepsInv : Prop := ∀ s t : State, Inv s → step s = .next t → Inv t

/-! ## Ports and blocks -/

/-- R71, R72: a response is presented unchanged, `cmd_ready` is 0 and no register moves, until a cycle in which
`rsp_ready` is 1 (or a reset); in that cycle it is delivered, once. Then `cmd_ready` rises after the block's own free
number of cycles; up to there no response is presented and no register moves, whatever the host does at the ports (reset
apart). That a number of 0 means the cycle right after the delivering one is the model's choice: log entry 7. -/
def Obligations.PortHoldsResponse : Prop :=
  ∀ (b : PortBlock) (i : PortIn) (r : Response), b.rspOut = some r → i.rst = false →
    b.cmdReady = false
    ∧ (i.rspReady = false → b.cycle i = b)
    ∧ (i.rspReady = true →
        (b.cycle i).rspOut = none ∧ (b.cycle i).regs = b.regs.respond r
        ∧ ∀ is : List PortIn, (∀ j ∈ is, j.rst = false) → is.length ≤ Config.readyCycles b.waits →
            let c := PortBlock.cycles (i :: is) b
            c.rspOut = none ∧ c.regs = b.regs.respond r
              ∧ (is.length = Config.readyCycles b.waits → c.cmdReady = true))

/-- R71, R72: a ready block waits for a valid command. An accepted command is executed exactly as the command-level model
executes it, and its response is presented after the block's own free number of cycles, whatever the host does at the
ports meanwhile (reset apart); up to there `cmd_ready` and `rsp_valid` are 0 and no register moves. That a number of 0
means the cycle right after the accepting one is the model's choice: log entry 7. -/
def Obligations.PortRunsCommand : Prop :=
  (∀ (b : PortBlock) (i : PortIn), b.cmdReady = true → i.rst = false →
    b.rspOut = none ∧ (i.cmdValid = false → b.cycle i = b))
  ∧ ∀ (b : PortBlock) (i : PortIn) (is : List PortIn), b.cmdReady = true → i.cmdValid = true → i.rst = false →
    (∀ j ∈ is, j.rst = false) → is.length = Config.execCycles b.waits →
    (∀ n < is.length,
      let c := PortBlock.cycles (i :: is.take n) b
      c.rspOut = none ∧ c.cmdReady = false ∧ c.regs = b.regs)
    ∧ ∃ t r, acceptWord i.cmd b.regs = .next t ∧ t.rsps = r :: b.regs.rsps
        ∧ (PortBlock.cycles (i :: is) b).rspOut = some r ∧ (PortBlock.cycles (i :: is) b).regs.respond r = t

/-- R215: in every cycle with `rst` = 1, whatever the block is doing, every register takes its reset value, no
command is accepted and no response is presented. Once `rst` is 0, `cmd_ready` rises after the block's own free number
of cycles, counted from the first edge with `rst` = 0; up to there no response is presented and no register moves. That
a number of 0 means right after that edge is the model's choice: log entry 7. -/
def Obligations.PortResetOverrides : Prop :=
  ∀ (b : PortBlock) (i : PortIn), i.rst = true →
    (∀ r : Reg, readReg (b.cycle i).regs r = 0#64) ∧ (b.cycle i).regs.rsps = b.regs.rsps
      ∧ (b.cycle i).cmdReady = false ∧ (b.cycle i).rspOut = none
      ∧ ∀ is : List PortIn, (∀ j ∈ is, j.rst = false) → is.length ≤ Config.readyCycles b.waits + 1 →
          let c := PortBlock.cycles (i :: is) b
          c.rspOut = none ∧ c.regs = (b.cycle i).regs
            ∧ (is.length = Config.readyCycles b.waits + 1 → c.cmdReady = true)

/-- R207: a step of one block moves no other block, and does what the block would do alone. -/
def Obligations.BlocksAreIndependent : Prop :=
  ∀ (blocks : List State) (i : Nat) (s : State), blocks[i]? = some s →
    ∃ t blocks', step s = .next t ∧ stepBlock i blocks = .next blocks' ∧ blocks'[i]? = some t
      ∧ blocks'.length = blocks.length ∧ ∀ j, j ≠ i → blocks'[j]? = blocks[j]?
end

