-- ==== Sys2Proof/Laws/Decode.lean ====
section
/-! SUPPORT. Command words as three fields: what the decoder and the masks of Table R77 see of a packed word. -/

namespace Sys2Proof

@[simp] theorem opField_packWord (op idx : BitVec 8) (data : BitVec 32) : opField (packWord op idx data) = op := by
  ext i hi
  simp only [opField, packWord, BitVec.getElem_extractLsb', BitVec.getLsbD_append]
  rw [if_neg (by omega), if_neg (by omega), BitVec.getLsbD_eq_getElem (by omega)]
  congr 1; omega

@[simp] theorem idxField_packWord (op idx : BitVec 8) (data : BitVec 32) : idxField (packWord op idx data) = idx := by
  ext i hi
  simp only [idxField, packWord, BitVec.getElem_extractLsb', BitVec.getLsbD_append]
  rw [if_neg (by omega), if_pos (by omega), BitVec.getLsbD_eq_getElem (by omega)]
  congr 1; omega

@[simp] theorem dataField_packWord (op idx : BitVec 8) (data : BitVec 32) :
    dataField (packWord op idx data) = data := by
  ext i hi
  simp only [dataField, packWord, BitVec.getElem_extractLsb', BitVec.getLsbD_append]
  rw [if_pos (by omega), BitVec.getLsbD_eq_getElem (by omega)]
  congr 1; omega

/-- A word is its three fields (Table R73). -/
theorem packWord_fields (w : Cmd) : packWord (opField w) (idxField w) (dataField w) = w := by
  apply BitVec.eq_of_getLsbD_eq
  intro i hi
  simp only [opField, idxField, dataField, packWord, BitVec.getLsbD_append, BitVec.getLsbD_extractLsb']
  split
  · simp [*]
  · split
    · rw [decide_eq_true (by omega), Bool.true_and]; congr 1; omega
    · rw [decide_eq_true (by omega), Bool.true_and]; congr 1; omega

/-- Two words are equal exactly when their fields are. -/
theorem word_eq_iff (v w : Cmd) :
    v = w ↔ opField v = opField w ∧ idxField v = idxField w ∧ dataField v = dataField w := by
  refine ⟨fun h => h ▸ ⟨rfl, rfl, rfl⟩, fun ⟨h1, h2, h3⟩ => ?_⟩
  rw [← packWord_fields v, ← packWord_fields w, h1, h2, h3]

@[simp] theorem opField_and (v w : Cmd) : opField (v &&& w) = opField v &&& opField w := by
  ext i hi; simp [opField]

@[simp] theorem idxField_and (v w : Cmd) : idxField (v &&& w) = idxField v &&& idxField w := by
  ext i hi; simp [idxField]

@[simp] theorem dataField_and (v w : Cmd) : dataField (v &&& w) = dataField v &&& dataField w := by
  ext i hi; simp [dataField]

/-- A packed word under a mask, field by field (R77). -/
theorem matches_packWord (r : OpcodeRow) (op idx : BitVec 8) (data : BitVec 32) :
    r.matchesWord (packWord op idx data) = true
      ↔ op &&& opField r.mask = opField r.bits ∧ idx &&& idxField r.mask = idxField r.bits
        ∧ data &&& dataField r.mask = dataField r.bits := by
  simp [OpcodeRow.matchesWord, word_eq_iff]

end Sys2Proof
end

