-- ==== Sys2Proof/Laws/Float.lean ====
section
/-! SUPPORT. What rounding does (R11): the patterns of a format are its values in order, and a rounded result is
the value nearest to the exact one. -/

namespace Sys2Proof.Machine

/-- The units that a pattern without its sign stands for, infinity and NaN patterns read as the next binade. -/
def FloatFormat.mag (F : FloatFormat) (b : Nat) : Nat :=
  if b / 2 ^ F.fracBits = 0 then b
  else (2 ^ F.fracBits + b % 2 ^ F.fracBits) * 2 ^ (b / 2 ^ F.fracBits - 1)

/-- `q * 2^s` units has the pattern `s * 2^fracBits + q`, for `q` in the range that `roundRatio` produces. -/
theorem FloatFormat.mag_shift (F : FloatFormat) (s q : Nat) (hs : s = 0 ∨ 2 ^ F.fracBits ≤ q)
    (hq : q ≤ 2 ^ (F.fracBits + 1)) : F.mag (s * 2 ^ F.fracBits + q) = q * 2 ^ s := by
  have hp : 0 < 2 ^ F.fracBits := Nat.two_pow_pos _
  have h2 : 2 ^ (F.fracBits + 1) = 2 * 2 ^ F.fracBits := by rw [pow_succ]; ring
  have hdiv : (s * 2 ^ F.fracBits + q) / 2 ^ F.fracBits = s + q / 2 ^ F.fracBits := by
    rw [add_comm, Nat.add_mul_div_right _ _ hp, add_comm]
  have hmod : (s * 2 ^ F.fracBits + q) % 2 ^ F.fracBits = q % 2 ^ F.fracBits := by
    rw [add_comm, Nat.add_mul_mod_self_right]
  unfold FloatFormat.mag
  rw [hdiv, hmod]
  rcases Nat.lt_or_ge q (2 ^ F.fracBits) with hlt | hge
  · have hs0 : s = 0 := by omega
    subst hs0
    simp [Nat.div_eq_of_lt hlt]
  · rcases Nat.lt_or_ge q (2 * 2 ^ F.fracBits) with hlt2 | hge2
    · have hd : q / 2 ^ F.fracBits = 1 :=
        Nat.div_eq_of_lt_le (by omega) (by omega)
      have hm : q % 2 ^ F.fracBits = q - 2 ^ F.fracBits := by
        rw [Nat.mod_eq_sub_mod hge, Nat.mod_eq_of_lt (by omega)]
      rw [hd, hm, if_neg (by omega), Nat.add_sub_cancel]
      congr 1; omega
    · have hq2 : q = 2 * 2 ^ F.fracBits := by omega
      have hd : q / 2 ^ F.fracBits = 2 := by rw [hq2, Nat.mul_div_cancel _ hp]
      have hm : q % 2 ^ F.fracBits = 0 := by rw [hq2, Nat.mul_mod_left]
      rw [hd, hm, if_neg (by omega), hq2]
      have : s + 2 - 1 = s + 1 := by omega
      rw [this, pow_succ]; ring

/-- Consecutive patterns are consecutive values: the order of patterns is the order of values. -/
theorem FloatFormat.mag_strictMono (F : FloatFormat) : StrictMono F.mag := by
  apply strictMono_nat_of_lt_succ
  intro b
  have hp : 0 < 2 ^ F.fracBits := Nat.two_pow_pos _
  have h2 : 2 ^ (F.fracBits + 1) = 2 * 2 ^ F.fracBits := by rw [pow_succ]; ring
  by_cases h0 : b / 2 ^ F.fracBits = 0
  · have hb : b < 2 ^ F.fracBits := by
      rcases Nat.div_eq_zero_iff.mp h0 with h | h <;> omega
    have e1 := F.mag_shift 0 b (.inl rfl) (by omega)
    have e2 := F.mag_shift 0 (b + 1) (.inl rfl) (by omega)
    simp only [zero_mul, zero_add, pow_zero, mul_one] at e1 e2
    omega
  · obtain ⟨s, hs⟩ : ∃ s, b / 2 ^ F.fracBits = s + 1 := ⟨_, (Nat.succ_pred_eq_of_pos (Nat.pos_of_ne_zero h0)).symm⟩
    have hdm := Nat.div_add_mod b (2 ^ F.fracBits)
    have hlt := Nat.mod_lt b hp
    set m := b % 2 ^ F.fracBits
    have hb : b = s * 2 ^ F.fracBits + (2 ^ F.fracBits + m) := by
      rw [hs] at hdm; rw [← hdm]; ring
    have e1 := F.mag_shift s (2 ^ F.fracBits + m) (.inr (by omega)) (by omega)
    have e2 := F.mag_shift s (2 ^ F.fracBits + m + 1) (.inr (by omega)) (by omega)
    rw [← hb] at e1
    rw [← add_assoc, ← hb] at e2
    rw [e1, e2]
    exact Nat.mul_lt_mul_of_pos_right (Nat.lt_succ_self _) (Nat.two_pow_pos _)

/-- What a finite pattern without its sign stands for. -/
theorem FloatFormat.classify_finite (F : FloatFormat) (neg : Bool) (b : Nat) (hb : b < F.infBits) :
    F.classify (F.withSign neg b) = .finite neg (F.mag b) := by
  have hp : 0 < 2 ^ F.fracBits := Nat.two_pow_pos _
  have he : 0 < 2 ^ F.expBits := Nat.two_pow_pos _
  have hsb : F.signBit = 2 ^ F.expBits * 2 ^ F.fracBits := by simp [FloatFormat.signBit, pow_add]
  have hlt : b < F.signBit := by
    rw [hsb]
    refine lt_of_lt_of_le hb (Nat.mul_le_mul_right _ (by omega))
  have hdlt : b / 2 ^ F.fracBits < 2 ^ F.expBits - 1 := (Nat.div_lt_iff_lt_mul hp).mpr hb
  have hneg : F.withSign neg b / F.signBit % 2 = if neg then 1 else 0 := by
    cases neg
    · simp [FloatFormat.withSign, Nat.div_eq_of_lt hlt]
    · simp [FloatFormat.withSign, Nat.add_div_left _ (by rw [hsb]; positivity : 0 < F.signBit), Nat.div_eq_of_lt hlt]
  have hfrac : F.withSign neg b % 2 ^ F.fracBits = b % 2 ^ F.fracBits := by
    cases neg
    · rfl
    · simp [FloatFormat.withSign, hsb]
  have hexp : F.withSign neg b / 2 ^ F.fracBits % 2 ^ F.expBits = b / 2 ^ F.fracBits := by
    have hm : b / 2 ^ F.fracBits % 2 ^ F.expBits = b / 2 ^ F.fracBits := Nat.mod_eq_of_lt (by omega)
    cases neg
    · simpa [FloatFormat.withSign] using hm
    · simp only [FloatFormat.withSign, hsb, if_true]
      rw [Nat.add_comm, Nat.add_mul_div_right _ _ hp, Nat.add_mod_right, hm]
  unfold FloatFormat.classify
  simp only [hneg, hfrac, hexp]
  rw [if_neg (by omega)]
  by_cases h0 : b / 2 ^ F.fracBits = 0
  · have hb' : b < 2 ^ F.fracBits := by
      rcases Nat.div_eq_zero_iff.mp h0 with h | h <;> omega
    cases neg <;> simp [h0, FloatFormat.mag, Nat.mod_eq_of_lt hb']
  · cases neg <;> simp [h0, FloatFormat.mag]

/-- The pattern of an infinity stands for it. -/
theorem FloatFormat.classify_infBits (F : FloatFormat) (neg : Bool) :
    F.classify (F.withSign neg F.infBits) = .inf neg := by
  have hp : 0 < 2 ^ F.fracBits := Nat.two_pow_pos _
  have he : 0 < 2 ^ F.expBits := Nat.two_pow_pos _
  have hsb : F.signBit = 2 ^ F.expBits * 2 ^ F.fracBits := by simp [FloatFormat.signBit, pow_add]
  have hlt : F.infBits < F.signBit := by
    rw [hsb]; exact Nat.mul_lt_mul_of_pos_right (by omega) hp
  have hneg : F.withSign neg F.infBits / F.signBit % 2 = if neg then 1 else 0 := by
    cases neg
    · simp [FloatFormat.withSign, Nat.div_eq_of_lt hlt]
    · simp [FloatFormat.withSign, Nat.add_div_left _ (by rw [hsb]; positivity : 0 < F.signBit), Nat.div_eq_of_lt hlt]
  have hfrac : F.withSign neg F.infBits % 2 ^ F.fracBits = 0 := by
    cases neg <;> simp [FloatFormat.withSign, FloatFormat.infBits, hsb, Nat.add_mod]
  have hexp : F.withSign neg F.infBits / 2 ^ F.fracBits % 2 ^ F.expBits = 2 ^ F.expBits - 1 := by
    have hm : F.infBits / 2 ^ F.fracBits = 2 ^ F.expBits - 1 := by
      rw [FloatFormat.infBits, Nat.mul_div_cancel _ hp]
    have hm2 : (2 ^ F.expBits - 1) % 2 ^ F.expBits = 2 ^ F.expBits - 1 := Nat.mod_eq_of_lt (by omega)
    cases neg
    · simp [FloatFormat.withSign, hm, hm2]
    · simp only [FloatFormat.withSign, hsb, if_true]
      rw [Nat.add_comm, Nat.add_mul_div_right _ _ hp, Nat.add_mod_right, hm, hm2]
  unfold FloatFormat.classify
  simp only [hneg, hfrac, hexp, if_true]
  cases neg <;> rfl

/-- What `roundRatio` does, unclamped: it finds the pattern `p` of the largest value at most `num/den`, at a
distance `r/den` below it, the next value lying `step/den` above, and goes to the nearer, ties to even. -/
theorem FloatFormat.roundRatio_cases (F : FloatFormat) (num den : Nat) (hd : 0 < den) :
    ∃ s q r, (s = 0 ∨ 2 ^ F.fracBits ≤ q) ∧ q < 2 ^ (F.fracBits + 1)
      ∧ num = den * F.mag (s * 2 ^ F.fracBits + q) + r
      ∧ F.mag (s * 2 ^ F.fracBits + q + 1) = F.mag (s * 2 ^ F.fracBits + q) + 2 ^ s
      ∧ r < den * 2 ^ s
      ∧ F.roundRatio num den
          = min (s * 2 ^ F.fracBits + q + (if roundsUp q r (den * 2 ^ s) then 1 else 0)) F.infBits := by
  set N := num / den with hN
  set s := N.log2 - F.fracBits with hs
  have hstep : 0 < den * 2 ^ s := Nat.mul_pos hd (Nat.two_pow_pos _)
  set q := num / (den * 2 ^ s) with hq
  have hqN : q = N / 2 ^ s := by rw [hq, hN, Nat.div_div_eq_div_mul]
  have hup : q < 2 ^ (F.fracBits + 1) := by
    rw [hqN, Nat.div_lt_iff_lt_mul (Nat.two_pow_pos _), ← pow_add]
    refine lt_of_lt_of_le (Nat.lt_log2_self (n := N)) (Nat.pow_le_pow_right (by norm_num) (by omega))
  have hlow : s = 0 ∨ 2 ^ F.fracBits ≤ q := by
    by_cases h0 : s = 0
    · exact .inl h0
    · right
      have hN0 : N ≠ 0 := by
        rintro h; apply h0; rw [hs, h]; simp
      rw [hqN, Nat.le_div_iff_mul_le (Nat.two_pow_pos _), ← pow_add]
      exact le_trans (Nat.pow_le_pow_right (by norm_num) (by omega)) (Nat.log2_self_le hN0)
  have e1 := F.mag_shift s q hlow (by omega)
  have e2 := F.mag_shift s (q + 1) (hlow.imp id (by omega)) (by omega)
  refine ⟨s, q, num % (den * 2 ^ s), hlow, hup, ?_, ?_, Nat.mod_lt _ hstep, ?_⟩
  · have h := Nat.div_add_mod num (den * 2 ^ s)
    rw [← hq] at h
    rw [e1, show den * (q * 2 ^ s) = den * 2 ^ s * q by ring, h]
  · rw [add_assoc, e2, e1]; ring
  · unfold FloatFormat.roundRatio
    simp only [← hN, ← hs, ← hq]
    congr 1
    split <;> omega

/-- A value of the format is its own rounding. -/
theorem FloatFormat.roundRatio_exact (F : FloatFormat) (b den : Nat) (hd : 0 < den) (hb : b < F.infBits) :
    F.roundRatio (den * F.mag b) den = b := by
  obtain ⟨s, q, r, -, -, hnum, hnext, hr, hround⟩ := F.roundRatio_cases (den * F.mag b) den hd
  set p := s * 2 ^ F.fracBits + q
  have hp : p = b := by
    rcases lt_trichotomy p b with h | h | h
    · have h1 : F.mag (p + 1) ≤ F.mag b := F.mag_strictMono.monotone h
      rw [hnext] at h1
      have h2 := Nat.mul_le_mul_left den h1
      rw [Nat.mul_add] at h2
      omega
    · exact h
    · have h1 : F.mag b < F.mag p := F.mag_strictMono h
      have h2 := Nat.mul_lt_mul_of_pos_left h1 hd
      omega
  have hr0 : r = 0 := by rw [hp] at hnum; omega
  have hstep : 0 < den * 2 ^ s := Nat.mul_pos hd (Nat.two_pow_pos _)
  rw [hround, hr0, hp]
  have : roundsUp q 0 (den * 2 ^ s) = false := by
    simp only [roundsUp, Nat.mul_zero, Bool.or_eq_false_iff, decide_eq_false_iff_not, Bool.and_eq_false_imp]
    exact ⟨by omega, by intro h; simp at h; omega⟩
  rw [this]
  simp; omega

/-- Rounding to nearest (R11), unless the result is the infinity: no value of the format is nearer to `num/den`. -/
theorem FloatFormat.roundRatio_nearest (F : FloatFormat) (num den b : Nat) (hd : 0 < den)
    (hfin : F.roundRatio num den < F.infBits) :
    |(F.mag (F.roundRatio num den) : ℚ) - num / den| ≤ |(F.mag b : ℚ) - num / den| := by
  obtain ⟨s, q, r, -, -, hnum, hnext, hr, hround⟩ := F.roundRatio_cases num den hd
  set p := s * 2 ^ F.fracBits + q
  have hdq : (0 : ℚ) < den := by exact_mod_cast hd
  have hx : (num : ℚ) / den = F.mag p + r / den := by
    rw [hnum]; push_cast; field_simp
  have hrq : (r : ℚ) / den < 2 ^ s := by
    rw [div_lt_iff₀ hdq, mul_comm]; exact_mod_cast hr
  have hr0 : (0 : ℚ) ≤ r / den := by positivity
  have hnextq : (F.mag (p + 1) : ℚ) = F.mag p + 2 ^ s := by exact_mod_cast hnext
  have hbq : (F.mag b : ℚ) ≤ F.mag p ∨ (F.mag p : ℚ) + 2 ^ s ≤ F.mag b := by
    rcases Nat.lt_or_ge p b with h | h
    · right
      have := F.mag_strictMono.monotone (Nat.succ_le_of_lt h)
      rw [← hnextq]; exact_mod_cast this
    · left; exact_mod_cast F.mag_strictMono.monotone h
  rw [hx]
  by_cases hu : roundsUp q r (den * 2 ^ s) = true
  · rw [hu] at hround
    have hval : F.roundRatio num den = p + 1 := by simp at hround; omega
    have hhalf : (2 : ℚ) ^ s ≤ 2 * (r / den) := by
      have : den * 2 ^ s ≤ 2 * r := by
        simp only [roundsUp, Bool.or_eq_true, decide_eq_true_eq, Bool.and_eq_true, beq_iff_eq] at hu
        omega
      have : (den : ℚ) * 2 ^ s ≤ 2 * r := by exact_mod_cast this
      rw [← mul_div_assoc, le_div_iff₀ hdq]; linarith
    rw [hval, hnextq, abs_of_nonneg (by linarith)]
    rcases hbq with h | h
    · rw [abs_of_nonpos (by linarith)]; linarith
    · rw [abs_of_nonneg (by linarith)]; linarith
  · have hu : roundsUp q r (den * 2 ^ s) = false := by simpa using hu
    rw [hu] at hround
    have hval : F.roundRatio num den = p := by simp at hround; omega
    have hhalf : 2 * ((r : ℚ) / den) ≤ 2 ^ s := by
      have : 2 * r ≤ den * 2 ^ s := by
        simp only [roundsUp, Bool.or_eq_false_iff, decide_eq_false_iff_not] at hu
        omega
      have : (2 : ℚ) * r ≤ den * 2 ^ s := by exact_mod_cast this
      rw [← mul_div_assoc, div_le_iff₀ hdq]; linarith
    rw [hval, abs_of_nonpos (by linarith)]
    rcases hbq with h | h
    · rw [abs_of_nonpos (by linarith)]; linarith
    · rw [abs_of_nonneg (by linarith)]; linarith

/-- Rounding never exceeds the pattern of infinity. -/
theorem FloatFormat.roundRatio_le_infBits (F : FloatFormat) (num den : Nat) :
    F.roundRatio num den ≤ F.infBits := Nat.min_le_right _ _

/-- Rounding is monotone. -/
theorem FloatFormat.roundRatio_mono (F : FloatFormat) {n₁ d₁ n₂ d₂ : Nat} (h₁ : 0 < d₁) (h₂ : 0 < d₂)
    (h : n₁ * d₂ ≤ n₂ * d₁) : F.roundRatio n₁ d₁ ≤ F.roundRatio n₂ d₂ := by
  obtain ⟨s, q, r, hs, hq, hnum, hnext, hr, hround⟩ := F.roundRatio_cases n₁ d₁ h₁
  obtain ⟨s', q', r', hs', hq', hnum', hnext', hr', hround'⟩ := F.roundRatio_cases n₂ d₂ h₂
  set p := s * 2 ^ F.fracBits + q with hp
  set p' := s' * 2 ^ F.fracBits + q' with hp'
  have hpp : p ≤ p' := by
    by_contra hlt
    have h1 : F.mag p' + 2 ^ s' ≤ F.mag p := by
      rw [← hnext']; exact F.mag_strictMono.monotone (by omega)
    have h3 : n₂ * d₁ < n₁ * d₂ := by
      calc n₂ * d₁ < (d₂ * F.mag p' + d₂ * 2 ^ s') * d₁ := Nat.mul_lt_mul_of_pos_right (by omega) h₁
        _ = (F.mag p' + 2 ^ s') * (d₁ * d₂) := by ring
        _ ≤ F.mag p * (d₁ * d₂) := Nat.mul_le_mul_right _ h1
        _ = (d₁ * F.mag p) * d₂ := by ring
        _ ≤ n₁ * d₂ := Nat.mul_le_mul_right _ (by omega)
    omega
  rw [hround, hround']
  refine min_le_min ?_ le_rfl
  rcases Nat.lt_or_ge p p' with hlt | hge
  · split <;> split <;> omega
  · have he : p = p' := by omega
    have hgap : 2 ^ s = 2 ^ s' := by
      have := hnext; rw [he] at this; omega
    have hpar : q % 2 = q' % 2 ∨ roundsUp q r (d₁ * 2 ^ s) = false := by
      have hss : s = s' := Nat.pow_right_injective (le_refl 2) hgap
      left; subst hss; omega
    have hss : s = s' := Nat.pow_right_injective (le_refl 2) hgap
    have hqq : q = q' := by subst hss; omega
    have hrr : r * d₂ ≤ r' * d₁ := by
      rw [hnum, hnum', he] at h
      have e : (d₁ * F.mag p' + r) * d₂ = F.mag p' * (d₁ * d₂) + r * d₂ := by ring
      have e' : (d₂ * F.mag p' + r') * d₁ = F.mag p' * (d₁ * d₂) + r' * d₁ := by ring
      omega
    have hup : roundsUp q r (d₁ * 2 ^ s) = true → roundsUp q' r' (d₂ * 2 ^ s') = true := by
      subst hss; subst hqq
      simp only [roundsUp, Bool.or_eq_true, decide_eq_true_eq, Bool.and_eq_true, beq_iff_eq]
      rintro (h5 | ⟨h5, h6⟩)
      · left
        have h7 : d₁ * 2 ^ s * d₂ < 2 * r * d₂ := Nat.mul_lt_mul_of_pos_right h5 h₂
        have h8 : d₂ * 2 ^ s * d₁ < 2 * r' * d₁ := by
          calc d₂ * 2 ^ s * d₁ = d₁ * 2 ^ s * d₂ := by ring
            _ < 2 * r * d₂ := h7
            _ = 2 * (r * d₂) := by ring
            _ ≤ 2 * (r' * d₁) := Nat.mul_le_mul_left _ hrr
            _ = 2 * r' * d₁ := by ring
        exact Nat.lt_of_mul_lt_mul_right h8
      · have h8 : d₂ * 2 ^ s * d₁ ≤ 2 * r' * d₁ := by
          calc d₂ * 2 ^ s * d₁ = (d₁ * 2 ^ s) * d₂ := by ring
            _ = 2 * (r * d₂) := by rw [← h5]; ring
            _ ≤ 2 * (r' * d₁) := Nat.mul_le_mul_left _ hrr
            _ = 2 * r' * d₁ := by ring
        have h9 := Nat.le_of_mul_le_mul_right h8 h₁
        omega
    cases hu : roundsUp q r (d₁ * 2 ^ s)
    · simp; omega
    · rw [hup hu]; omega

end Sys2Proof.Machine
end

