-- ==== Sys2Proof/Laws/State.lean ====
section
/-! SUPPORT. One lemma per field per update of the state, so that no proof unfolds a record update. -/

namespace Sys2Proof.Machine

/-! ### `State.respond` -/

@[simp] theorem State.respond_cfg (s : State) (r : Response) : (s.respond r).cfg = s.cfg := rfl
@[simp] theorem State.respond_coef (s : State) (r : Response) : (s.respond r).coef = s.coef := rfl
@[simp] theorem State.respond_z (s : State) (r : Response) : (s.respond r).z = s.z := rfl
@[simp] theorem State.respond_peak (s : State) (r : Response) : (s.respond r).peak = s.peak := rfl
@[simp] theorem State.respond_rmsSum (s : State) (r : Response) : (s.respond r).rmsSum = s.rmsSum := rfl
@[simp] theorem State.respond_spb (s : State) (r : Response) : (s.respond r).spb = s.spb := rfl
@[simp] theorem State.respond_pend (s : State) (r : Response) : (s.respond r).pend = s.pend := rfl
@[simp] theorem State.respond_nacc (s : State) (r : Response) : (s.respond r).nacc = s.nacc := rfl
@[simp] theorem State.respond_lastn (s : State) (r : Response) : (s.respond r).lastn = s.lastn := rfl
@[simp] theorem State.respond_phase (s : State) (r : Response) : (s.respond r).phase = s.phase := rfl
@[simp] theorem State.respond_errstat (s : State) (r : Response) : (s.respond r).errstat = s.errstat := rfl
@[simp] theorem State.respond_draws (s : State) (r : Response) : (s.respond r).draws = s.draws := rfl
@[simp] theorem State.respond_inputs (s : State) (r : Response) : (s.respond r).inputs = s.inputs := rfl
@[simp] theorem State.respond_rsps (s : State) (r : Response) : (s.respond r).rsps = r :: s.rsps := rfl

/-! ### `State.setFlags` -/

@[simp] theorem State.setFlags_cfg (s : State) (m : BitVec 6) : (s.setFlags m).cfg = s.cfg := rfl
@[simp] theorem State.setFlags_coef (s : State) (m : BitVec 6) : (s.setFlags m).coef = s.coef := rfl
@[simp] theorem State.setFlags_z (s : State) (m : BitVec 6) : (s.setFlags m).z = s.z := rfl
@[simp] theorem State.setFlags_peak (s : State) (m : BitVec 6) : (s.setFlags m).peak = s.peak := rfl
@[simp] theorem State.setFlags_rmsSum (s : State) (m : BitVec 6) : (s.setFlags m).rmsSum = s.rmsSum := rfl
@[simp] theorem State.setFlags_spb (s : State) (m : BitVec 6) : (s.setFlags m).spb = s.spb := rfl
@[simp] theorem State.setFlags_pend (s : State) (m : BitVec 6) : (s.setFlags m).pend = s.pend := rfl
@[simp] theorem State.setFlags_nacc (s : State) (m : BitVec 6) : (s.setFlags m).nacc = s.nacc := rfl
@[simp] theorem State.setFlags_lastn (s : State) (m : BitVec 6) : (s.setFlags m).lastn = s.lastn := rfl
@[simp] theorem State.setFlags_phase (s : State) (m : BitVec 6) : (s.setFlags m).phase = s.phase := rfl
@[simp] theorem State.setFlags_errstat (s : State) (m : BitVec 6) :
    (s.setFlags m).errstat = s.errstat ||| m := rfl
@[simp] theorem State.setFlags_draws (s : State) (m : BitVec 6) : (s.setFlags m).draws = s.draws := rfl
@[simp] theorem State.setFlags_inputs (s : State) (m : BitVec 6) : (s.setFlags m).inputs = s.inputs := rfl
@[simp] theorem State.setFlags_rsps (s : State) (m : BitVec 6) : (s.setFlags m).rsps = s.rsps := rfl

/-! ### `State.drew` -/

@[simp] theorem State.drew_cfg (s : State) (n : Nat) : (s.drew n).cfg = s.cfg := rfl
@[simp] theorem State.drew_coef (s : State) (n : Nat) : (s.drew n).coef = s.coef := rfl
@[simp] theorem State.drew_z (s : State) (n : Nat) : (s.drew n).z = s.z := rfl
@[simp] theorem State.drew_peak (s : State) (n : Nat) : (s.drew n).peak = s.peak := rfl
@[simp] theorem State.drew_rmsSum (s : State) (n : Nat) : (s.drew n).rmsSum = s.rmsSum := rfl
@[simp] theorem State.drew_spb (s : State) (n : Nat) : (s.drew n).spb = s.spb := rfl
@[simp] theorem State.drew_pend (s : State) (n : Nat) : (s.drew n).pend = s.pend := rfl
@[simp] theorem State.drew_nacc (s : State) (n : Nat) : (s.drew n).nacc = s.nacc := rfl
@[simp] theorem State.drew_lastn (s : State) (n : Nat) : (s.drew n).lastn = s.lastn := rfl
@[simp] theorem State.drew_phase (s : State) (n : Nat) : (s.drew n).phase = s.phase := rfl
@[simp] theorem State.drew_errstat (s : State) (n : Nat) : (s.drew n).errstat = s.errstat := rfl
@[simp] theorem State.drew_draws (s : State) (n : Nat) : (s.drew n).draws = s.draws + n := rfl
@[simp] theorem State.drew_inputs (s : State) (n : Nat) : (s.drew n).inputs = s.inputs := rfl
@[simp] theorem State.drew_rsps (s : State) (n : Nat) : (s.drew n).rsps = s.rsps := rfl

/-! ### `raiseErr` -/

@[simp] theorem raiseErr_cfg (s : State) (e : ErrCode) (d : BitVec 8) :
    (raiseErr s e d).cfg = s.cfg := rfl
@[simp] theorem raiseErr_coef (s : State) (e : ErrCode) (d : BitVec 8) :
    (raiseErr s e d).coef = s.coef := rfl
@[simp] theorem raiseErr_z (s : State) (e : ErrCode) (d : BitVec 8) :
    (raiseErr s e d).z = s.z := rfl
@[simp] theorem raiseErr_peak (s : State) (e : ErrCode) (d : BitVec 8) :
    (raiseErr s e d).peak = s.peak := rfl
@[simp] theorem raiseErr_rmsSum (s : State) (e : ErrCode) (d : BitVec 8) :
    (raiseErr s e d).rmsSum = s.rmsSum := rfl
@[simp] theorem raiseErr_spb (s : State) (e : ErrCode) (d : BitVec 8) :
    (raiseErr s e d).spb = s.spb := rfl
@[simp] theorem raiseErr_pend (s : State) (e : ErrCode) (d : BitVec 8) :
    (raiseErr s e d).pend = s.pend := rfl
@[simp] theorem raiseErr_nacc (s : State) (e : ErrCode) (d : BitVec 8) :
    (raiseErr s e d).nacc = s.nacc := rfl
@[simp] theorem raiseErr_lastn (s : State) (e : ErrCode) (d : BitVec 8) :
    (raiseErr s e d).lastn = s.lastn := rfl
@[simp] theorem raiseErr_phase (s : State) (e : ErrCode) (d : BitVec 8) :
    (raiseErr s e d).phase = s.phase := rfl
@[simp] theorem raiseErr_errstat (s : State) (e : ErrCode) (d : BitVec 8) :
    (raiseErr s e d).errstat = s.errstat ||| e.mask := rfl
@[simp] theorem raiseErr_draws (s : State) (e : ErrCode) (d : BitVec 8) :
    (raiseErr s e d).draws = s.draws := rfl
@[simp] theorem raiseErr_inputs (s : State) (e : ErrCode) (d : BitVec 8) :
    (raiseErr s e d).inputs = s.inputs := rfl
@[simp] theorem raiseErr_rsps (s : State) (e : ErrCode) (d : BitVec 8) :
    (raiseErr s e d).rsps = errRsp e d :: s.rsps := rfl

/-! ### `clearAccumulators` -/

@[simp] theorem clearAccumulators_cfg (s : State) : (clearAccumulators s).cfg = s.cfg := rfl
@[simp] theorem clearAccumulators_coef (s : State) : (clearAccumulators s).coef = s.coef := rfl
@[simp] theorem clearAccumulators_z (s : State) : (clearAccumulators s).z = s.z := rfl
@[simp] theorem clearAccumulators_peak (s : State) : (clearAccumulators s).peak = .replicate 4 f32Zero := rfl
@[simp] theorem clearAccumulators_rmsSum (s : State) : (clearAccumulators s).rmsSum = .replicate 4 f64Zero := rfl
@[simp] theorem clearAccumulators_spb (s : State) : (clearAccumulators s).spb = s.spb := rfl
@[simp] theorem clearAccumulators_pend (s : State) : (clearAccumulators s).pend = s.pend := rfl
@[simp] theorem clearAccumulators_nacc (s : State) : (clearAccumulators s).nacc = s.nacc := rfl
@[simp] theorem clearAccumulators_lastn (s : State) : (clearAccumulators s).lastn = s.lastn := rfl
@[simp] theorem clearAccumulators_phase (s : State) : (clearAccumulators s).phase = s.phase := rfl
@[simp] theorem clearAccumulators_errstat (s : State) : (clearAccumulators s).errstat = s.errstat := rfl
@[simp] theorem clearAccumulators_draws (s : State) : (clearAccumulators s).draws = s.draws := rfl
@[simp] theorem clearAccumulators_inputs (s : State) : (clearAccumulators s).inputs = s.inputs := rfl
@[simp] theorem clearAccumulators_rsps (s : State) : (clearAccumulators s).rsps = s.rsps := rfl

/-! ### `accAdd` -/

@[simp] theorem accAdd_cfg (b : Fin 4) (v : F32) (s : State) : (accAdd b v s).cfg = s.cfg := rfl
@[simp] theorem accAdd_coef (b : Fin 4) (v : F32) (s : State) : (accAdd b v s).coef = s.coef := rfl
@[simp] theorem accAdd_z (b : Fin 4) (v : F32) (s : State) : (accAdd b v s).z = s.z := rfl
@[simp] theorem accAdd_peak (b : Fin 4) (v : F32) (s : State) :
    (accAdd b v s).peak = s.peak.set b (peakAfter s.peak[b] v) := rfl
@[simp] theorem accAdd_rmsSum (b : Fin 4) (v : F32) (s : State) :
    (accAdd b v s).rmsSum = s.rmsSum.set b (sumAfter s.draws s.rmsSum[b] v) := rfl
@[simp] theorem accAdd_spb (b : Fin 4) (v : F32) (s : State) : (accAdd b v s).spb = s.spb := rfl
@[simp] theorem accAdd_pend (b : Fin 4) (v : F32) (s : State) : (accAdd b v s).pend = s.pend := rfl
@[simp] theorem accAdd_nacc (b : Fin 4) (v : F32) (s : State) : (accAdd b v s).nacc = s.nacc := rfl
@[simp] theorem accAdd_lastn (b : Fin 4) (v : F32) (s : State) : (accAdd b v s).lastn = s.lastn := rfl
@[simp] theorem accAdd_phase (b : Fin 4) (v : F32) (s : State) : (accAdd b v s).phase = s.phase := rfl
@[simp] theorem accAdd_errstat (b : Fin 4) (v : F32) (s : State) :
    (accAdd b v s).errstat = s.errstat ||| nonfinFlags v := rfl
@[simp] theorem accAdd_draws (b : Fin 4) (v : F32) (s : State) :
    (accAdd b v s).draws = s.draws + 3 := rfl
@[simp] theorem accAdd_inputs (b : Fin 4) (v : F32) (s : State) :
    (accAdd b v s).inputs = s.inputs := rfl
@[simp] theorem accAdd_rsps (b : Fin 4) (v : F32) (s : State) : (accAdd b v s).rsps = s.rsps := rfl

/-! ### `construct` -/

@[simp] theorem construct_cfg (s : State) : (construct s).cfg = s.cfg := rfl
@[simp] theorem construct_coef (s : State) : (construct s).coef = s.coef := rfl
@[simp] theorem construct_z (s : State) :
    (construct s).z = .replicate 8 (.replicate 2 f32Zero) := rfl
@[simp] theorem construct_peak (s : State) : (construct s).peak = .replicate 4 f32Zero := rfl
@[simp] theorem construct_rmsSum (s : State) : (construct s).rmsSum = .replicate 4 f64Zero := rfl
@[simp] theorem construct_spb (s : State) : (construct s).spb = computeSpb s.draws s.cfg := rfl
@[simp] theorem construct_pend (s : State) : (construct s).pend = f32Zero := rfl
@[simp] theorem construct_nacc (s : State) : (construct s).nacc = 0 := rfl
@[simp] theorem construct_lastn (s : State) : (construct s).lastn = 0 := rfl
@[simp] theorem construct_phase (s : State) : (construct s).phase = phaseRun := rfl
@[simp] theorem construct_errstat (s : State) : (construct s).errstat = s.errstat := rfl
@[simp] theorem construct_draws (s : State) : (construct s).draws = s.draws := rfl
@[simp] theorem construct_inputs (s : State) : (construct s).inputs = s.inputs := rfl
@[simp] theorem construct_rsps (s : State) : (construct s).rsps = s.rsps := rfl

/-! ### `resetRegisters` -/

@[simp] theorem resetRegisters_draws (s : State) : (resetRegisters s).draws = s.draws := rfl
@[simp] theorem resetRegisters_inputs (s : State) : (resetRegisters s).inputs = s.inputs := rfl
@[simp] theorem resetRegisters_rsps (s : State) : (resetRegisters s).rsps = s.rsps := rfl
@[simp] theorem resetRegisters_cfg (s : State) : (resetRegisters s).cfg = State.reset.cfg := rfl
@[simp] theorem resetRegisters_coef (s : State) : (resetRegisters s).coef = State.reset.coef := rfl
@[simp] theorem resetRegisters_z (s : State) : (resetRegisters s).z = State.reset.z := rfl
@[simp] theorem resetRegisters_peak (s : State) : (resetRegisters s).peak = State.reset.peak := rfl
@[simp] theorem resetRegisters_rmsSum (s : State) : (resetRegisters s).rmsSum = State.reset.rmsSum := rfl
@[simp] theorem resetRegisters_spb (s : State) : (resetRegisters s).spb = State.reset.spb := rfl
@[simp] theorem resetRegisters_pend (s : State) : (resetRegisters s).pend = State.reset.pend := rfl
@[simp] theorem resetRegisters_nacc (s : State) : (resetRegisters s).nacc = State.reset.nacc := rfl
@[simp] theorem resetRegisters_lastn (s : State) : (resetRegisters s).lastn = State.reset.lastn := rfl
@[simp] theorem resetRegisters_phase (s : State) : (resetRegisters s).phase = State.reset.phase := rfl
@[simp] theorem resetRegisters_errstat (s : State) : (resetRegisters s).errstat = State.reset.errstat := rfl

end Sys2Proof.Machine
end

