-- ==== Sys2Proof/Laws/Ops.lean ====
section
/-! SUPPORT. For each shared operation, all it can do: an equation that gives the whole next state. -/

namespace Sys2Proof.Machine

/-- The encoder changes nothing but the sticky bits. -/
theorem encodeStep_eq (x : F32) (s : State) :
    encodeStep x s
      = (encodeCode s.draws x, { s with errstat := s.errstat ||| encodeFlags x, draws := s.draws + 1 }) := rfl

/-- One section changes nothing but its own delay pair (R116). -/
theorem biquadStep_eq (i : Fin 8) (x : F32) (s : State) :
    biquadStep i x s
      = ((biquad s.draws s.coef[sectionSet i] s.z[i] x).1,
         { s with z := s.z.set i (biquad s.draws s.coef[sectionSet i] s.z[i] x).2, draws := s.draws + 9 }) := rfl

/-- The bank changes nothing but the delay registers (R122). -/
theorem bankStep_state (x : F32) (s : State) :
    (bankStep x s).2 = { s with z := (bankStep x s).2.z, draws := s.draws + 72 } := rfl

/-- The `low` chain of a state's bank: sections 0 and 1. -/
def lowChain (x : F32) (s : State) : (F32 × Vector F32 2) × (F32 × Vector F32 2) :=
  let r0 := biquad s.draws s.coef[0] s.z[0] x
  (r0, biquad (s.draws + 9) s.coef[0] s.z[1] r0.1)

/-- The `mid` chain: sections 2, 3, 4, 5. -/
def midChain (x : F32) (s : State) :
    (F32 × Vector F32 2) × (F32 × Vector F32 2) × (F32 × Vector F32 2) × (F32 × Vector F32 2) :=
  let r2 := biquad (s.draws + 18) s.coef[1] s.z[2] x
  let r3 := biquad (s.draws + 27) s.coef[1] s.z[3] r2.1
  let r4 := biquad (s.draws + 36) s.coef[2] s.z[4] r3.1
  (r2, r3, r4, biquad (s.draws + 45) s.coef[2] s.z[5] r4.1)

/-- The `high` chain: sections 6 and 7. -/
def highChain (x : F32) (s : State) : (F32 × Vector F32 2) × (F32 × Vector F32 2) :=
  let r6 := biquad (s.draws + 54) s.coef[3] s.z[6] x
  (r6, biquad (s.draws + 63) s.coef[3] s.z[7] r6.1)

/-- The bank as its three chains: no section reads another chain's registers (R122). -/
theorem bankStep_eq (x : F32) (s : State) :
    bankStep x s
      = (#v[x, (lowChain x s).2.1, (midChain x s).2.2.2.1, (highChain x s).2.1],
         { s with
           z := #v[(lowChain x s).1.2, (lowChain x s).2.2, (midChain x s).1.2, (midChain x s).2.1.2,
                   (midChain x s).2.2.1.2, (midChain x s).2.2.2.2, (highChain x s).1.2, (highChain x s).2.2]
           draws := s.draws + 72 }) := by
  obtain ⟨cfg, coef, ⟨⟨zl⟩, hz⟩, _⟩ := s
  match zl, hz with
  | [a0, a1, a2, a3, a4, a5, a6, a7], _ => rfl

/-- Four band values reach the four accumulators and nothing else (R136). -/
theorem accumulate_eq (v : Vector F32 4) (s : State) :
    accumulate v s
      = { s with
          errstat := s.errstat ||| nonfinFlags v[0] ||| nonfinFlags v[1] ||| nonfinFlags v[2] ||| nonfinFlags v[3]
          peak := #v[peakAfter s.peak[0] v[0], peakAfter s.peak[1] v[1], peakAfter s.peak[2] v[2],
                     peakAfter s.peak[3] v[3]]
          rmsSum := #v[sumAfter s.draws s.rmsSum[0] v[0], sumAfter (s.draws + 3) s.rmsSum[1] v[1],
                       sumAfter (s.draws + 6) s.rmsSum[2] v[2], sumAfter (s.draws + 9) s.rmsSum[3] v[3]]
          draws := s.draws + 12 } := by
  obtain ⟨cfg, coef, z, ⟨⟨pl⟩, hp⟩, ⟨⟨rl⟩, hr⟩, _⟩ := s
  match pl, hp, rl, hr with
  | [a0, a1, a2, a3], _, [b0, b1, b2, b3], _ => rfl

/-- The sticky bits that finishing band `b` sets (R137). -/
def finishFlags (k : Nat) (b : Fin 4) (s : State) : BitVec 6 :=
  encodeFlags s.peak[b] ||| encodeFlags (energy k s.rmsSum[b] s.nacc)

/-- The two codes of band `b` (R137): six draws from `k`. -/
def finishCodes (k : Nat) (b : Fin 4) (s : State) : BitVec 8 × BitVec 8 :=
  (encodeCode k s.peak[b], encodeCode (k + 5) (energy (k + 1) s.rmsSum[b] s.nacc))

/-- Finishing one band changes nothing but the sticky bits (R137). -/
theorem accFinish_eq (b : Fin 4) (n : BitVec 32) (s : State) :
    accFinish b n s
      = ((encodeCode s.draws s.peak[b], encodeCode (s.draws + 5) (energy (s.draws + 1) s.rmsSum[b] n)),
         { s with
           errstat := s.errstat ||| encodeFlags s.peak[b] ||| encodeFlags (energy (s.draws + 1) s.rmsSum[b] n)
           draws := s.draws + 6 }) := rfl

/-- Finishing the window: the payload from the four bands, the length latched, the accumulators cleared, and
nothing else but sticky bits (R139). -/
theorem finishAll_eq (s : State) :
    finishAll s
      = (binPayload (finishCodes s.draws 0 s) (finishCodes (s.draws + 6) 1 s) (finishCodes (s.draws + 12) 2 s)
           (finishCodes (s.draws + 18) 3 s),
         { s with
           errstat := s.errstat ||| finishFlags (s.draws + 1) 0 s ||| finishFlags (s.draws + 7) 1 s
             ||| finishFlags (s.draws + 13) 2 s ||| finishFlags (s.draws + 19) 3 s
           peak := .replicate 4 f32Zero
           rmsSum := .replicate 4 f64Zero
           lastn := s.nacc
           nacc := 0
           draws := s.draws + 24 }) := by
  simp only [finishAll, accFinish_eq, finishCodes, finishFlags, clearAccumulators, BitVec.or_assoc]

/-- Feeding a sample (R151, parts 2 and 3): the band values `v` of the bank go to the accumulators. -/
theorem feed_eq (x : F32) (s : State) :
    feed x s
      = { s with
          errstat := (accumulate (bankStep x (s.setFlags (nonfinFlags x))).1
            (bankStep x (s.setFlags (nonfinFlags x))).2).errstat
          z := (bankStep x (s.setFlags (nonfinFlags x))).2.z
          peak := (accumulate (bankStep x (s.setFlags (nonfinFlags x))).1
            (bankStep x (s.setFlags (nonfinFlags x))).2).peak
          rmsSum := (accumulate (bankStep x (s.setFlags (nonfinFlags x))).1
            (bankStep x (s.setFlags (nonfinFlags x))).2).rmsSum
          nacc := naccAfter s.nacc
          pend := f32add (s.draws + 84) s.pend f32One
          draws := s.draws + 85 } := by
  simp only [feed]
  rw [accumulate_eq, bankStep_state]
  simp [State.setFlags, Nat.add_assoc]

/-- What feeding a sample leaves alone. -/
theorem feed_frame (x : F32) (s : State) :
    (feed x s).cfg = s.cfg ∧ (feed x s).coef = s.coef ∧ (feed x s).spb = s.spb ∧ (feed x s).lastn = s.lastn
      ∧ (feed x s).phase = s.phase ∧ (feed x s).inputs = s.inputs ∧ (feed x s).rsps = s.rsps := by
  rw [feed_eq]; exact ⟨rfl, rfl, rfl, rfl, rfl, rfl, rfl⟩

/-- What a boundary leaves alone (R139: the filters run on, only the accumulators restart). -/
theorem boundary_frame (s : State) :
    (boundary s).2.cfg = s.cfg ∧ (boundary s).2.coef = s.coef ∧ (boundary s).2.z = s.z
      ∧ (boundary s).2.spb = s.spb ∧ (boundary s).2.phase = s.phase ∧ (boundary s).2.inputs = s.inputs
      ∧ (boundary s).2.rsps = s.rsps := by
  unfold boundary
  split
  · rw [finishAll_eq]; exact ⟨rfl, rfl, rfl, rfl, rfl, rfl, rfl⟩
  · exact ⟨rfl, rfl, rfl, rfl, rfl, rfl, rfl⟩

end Sys2Proof.Machine
end

