-- ==== Sys2Proof/Laws/Patterns.lean ====
section
/-! SUPPORT. The primitives of R11 on bit patterns: which pattern stands for what, and what a delivered result
stands for. -/

namespace Sys2Proof.Machine

/-! ### The two formats -/

@[simp] theorem binary32_unitExp : binary32.unitExp = 149 := rfl
@[simp] theorem binary64_unitExp : binary64.unitExp = 1074 := rfl
@[simp] theorem binary32_infBits : binary32.infBits = 0x7F800000 := rfl
@[simp] theorem binary64_infBits : binary64.infBits = 0x7FF0000000000000 := rfl
@[simp] theorem binary32_signBit : binary32.signBit = 0x80000000 := rfl
@[simp] theorem binary64_signBit : binary64.signBit = 0x8000000000000000 := rfl

/-! ### binary32 patterns -/

/-- A pattern is its sign and the rest. -/
theorem toNat_withSign32 (a : F32) : a.toNat = binary32.withSign a.msb (a.toNat % 0x80000000) := by
  have := a.isLt
  simp only [FloatFormat.withSign, binary32_signBit, BitVec.msb_eq_decide]
  split <;> rename_i h <;> simp at h <;> omega

theorem isFinite32_iff (a : F32) : isFinite32 a = true ↔ a.toNat % 0x80000000 < 0x7F800000 := by
  have := a.isLt
  simp only [isFinite32, bne_iff_ne, ne_eq, ← BitVec.toNat_inj, BitVec.extractLsb'_toNat, Nat.shiftRight_eq_div_pow,
    BitVec.toNat_ofNat]
  omega

theorem isNaN32_iff (a : F32) : isNaN32 a = true ↔ 0x7F800000 < a.toNat % 0x80000000 := by
  have := a.isLt
  simp only [isNaN32, Bool.and_eq_true, beq_iff_eq, bne_iff_ne, ne_eq, ← BitVec.toNat_inj, BitVec.extractLsb'_toNat,
    Nat.shiftRight_eq_div_pow, BitVec.toNat_ofNat]
  omega

/-- A finite pattern stands for its sign and the units of the rest (R10). -/
theorem value32_finite (a : F32) (h : isFinite32 a = true) :
    value32 a = .finite a.msb (binary32.mag (a.toNat % 0x80000000)) := by
  unfold value32
  conv_lhs => rw [toNat_withSign32 a]
  exact binary32.classify_finite _ _ ((isFinite32_iff a).mp h)

/-- A NaN pattern stands for a NaN. -/
theorem value32_nan (a : F32) (h : isNaN32 a = true) : value32 a = .nan := by
  rw [isNaN32_iff] at h
  have := a.isLt
  unfold value32 FloatFormat.classify
  simp only [binary32, FloatFormat.signBit]
  norm_num
  rw [if_pos (by omega), if_neg (by omega)]

/-- Every pattern is finite, an infinity or a NaN. -/
theorem value32_inf (a : F32) (h : isFinite32 a = false) (hn : isNaN32 a = false) : value32 a = .inf a.msb := by
  have h1 : ¬ a.toNat % 0x80000000 < 0x7F800000 := by rw [← isFinite32_iff]; simp [h]
  have h2 : ¬ 0x7F800000 < a.toNat % 0x80000000 := by rw [← isNaN32_iff]; simp [hn]
  unfold value32
  rw [toNat_withSign32 a, show a.toNat % 0x80000000 = binary32.infBits by simp; omega]
  exact binary32.classify_infBits _

theorem isNaN32_of_finite (a : F32) (h : isFinite32 a = true) : isNaN32 a = false := by
  have h1 := (isFinite32_iff a).mp h
  have h2 : ¬ 0x7F800000 < a.toNat % 0x80000000 := by omega
  rw [← isNaN32_iff] at h2
  simpa using h2

theorem value32_eq_nan_iff (a : F32) : value32 a = .nan ↔ isNaN32 a = true := by
  constructor
  · intro h
    by_contra hn
    have hn : isNaN32 a = false := by simpa using hn
    cases hf : isFinite32 a
    · rw [value32_inf a hf hn] at h; cases h
    · rw [value32_finite a hf] at h; cases h
  · exact value32_nan a

/-- The quiet NaN of a draw is a NaN, whatever the draw (R12). -/
theorem isNaN32_quietNan32 (k : Nat) : isNaN32 (quietNan32 k) = true := by
  have h1 : (quietNan32 k).extractLsb' 23 8 = 0xFF#8 := by
    unfold quietNan32
    rw [BitVec.extractLsb'_or]
    generalize (Config.nan32 k).extractLsb' 23 8 = x
    have : (0x7FC00000#32).extractLsb' 23 8 = BitVec.allOnes 8 := by decide
    rw [this, BitVec.or_allOnes]; rfl
  have h2 : (quietNan32 k).extractLsb' 0 23 ≠ 0#23 := by
    intro h
    have := congrArg (fun v => v.getLsbD 22) h
    simp [quietNan32] at this
  simp [isNaN32, h1, h2]

/-- The finite pattern delivered for a ratio stands for the rounded units, with the exact result's sign. -/
theorem deliver32_ratio (k : Nat) (neg : Bool) (num den : Nat) :
    (deliver32 k (.ratio neg num den)).toNat = binary32.withSign neg (binary32.roundRatio num den) := by
  have := binary32.roundRatio_le_infBits num den
  simp only [binary32_infBits] at this
  cases neg <;> simp [deliver32, FloatFormat.deliver, FloatFormat.withSign] <;> omega

theorem deliver32_ratio_msb (k : Nat) (neg : Bool) (num den : Nat) :
    (deliver32 k (.ratio neg num den)).msb = neg := by
  have := binary32.roundRatio_le_infBits num den
  simp only [binary32_infBits] at this
  rw [BitVec.msb_eq_decide, deliver32_ratio]
  cases neg
  · simp [FloatFormat.withSign]; omega
  · simp [FloatFormat.withSign]

theorem deliver32_ratio_rest (k : Nat) (neg : Bool) (num den : Nat) :
    (deliver32 k (.ratio neg num den)).toNat % 0x80000000 = binary32.roundRatio num den := by
  have := binary32.roundRatio_le_infBits num den
  simp only [binary32_infBits] at this
  rw [deliver32_ratio]
  cases neg <;> simp [FloatFormat.withSign] <;> omega

theorem isFinite32_deliver32_ratio (k : Nat) (neg : Bool) (num den : Nat) :
    isFinite32 (deliver32 k (.ratio neg num den)) = true ↔ binary32.roundRatio num den < 0x7F800000 := by
  rw [isFinite32_iff, deliver32_ratio_rest]

theorem isNaN32_deliver32_ratio (k : Nat) (neg : Bool) (num den : Nat) :
    isNaN32 (deliver32 k (.ratio neg num den)) = false := by
  have := binary32.roundRatio_le_infBits num den
  simp only [binary32_infBits] at this
  by_contra h
  have h := (isNaN32_iff _).mp (by simpa using h)
  rw [deliver32_ratio_rest] at h
  omega

theorem value32_deliver32_ratio (k : Nat) (neg : Bool) (num den : Nat)
    (h : binary32.roundRatio num den < 0x7F800000) :
    value32 (deliver32 k (.ratio neg num den)) = .finite neg (binary32.mag (binary32.roundRatio num den)) := by
  rw [value32_finite _ ((isFinite32_deliver32_ratio k neg num den).mpr h), deliver32_ratio_msb, deliver32_ratio_rest]

theorem deliver32_inf (k : Nat) (neg : Bool) :
    deliver32 k (.inf neg) = if neg then 0xFF800000#32 else 0x7F800000#32 := by
  cases neg <;> rfl

theorem value32_deliver32_inf (k : Nat) (neg : Bool) : value32 (deliver32 k (.inf neg)) = .inf neg := by
  rw [deliver32_inf]
  revert neg; decide

/-- A pattern is determined by its sign and its value. -/
theorem eq_of_value32_finite {a b : F32} (ha : isFinite32 a = true) (h : value32 a = value32 b)
    (hb : isFinite32 b = true) : a = b := by
  rw [value32_finite a ha, value32_finite b hb] at h
  injection h with h1 h2
  have h3 := binary32.mag_strictMono.injective h2
  apply BitVec.eq_of_toNat_eq
  rw [toNat_withSign32 a, toNat_withSign32 b, h1, h3]

/-- Delivering the value of a finite pattern gives the pattern back: rounding is exact on the format's values. -/
theorem deliver32_exact (k : Nat) (a : F32) (h : isFinite32 a = true) (den : Nat) (hd : 0 < den) :
    deliver32 k (.ratio a.msb (den * binary32.mag (a.toNat % 0x80000000)) den) = a := by
  apply BitVec.eq_of_toNat_eq
  rw [deliver32_ratio, binary32.roundRatio_exact _ _ hd ((isFinite32_iff a).mp h), ← toNat_withSign32]

/-! ### binary64 patterns -/

theorem toNat_withSign64 (a : F64) : a.toNat = binary64.withSign a.msb (a.toNat % 0x8000000000000000) := by
  have := a.isLt
  simp only [FloatFormat.withSign, binary64_signBit, BitVec.msb_eq_decide]
  split <;> rename_i h <;> simp at h <;> omega

theorem isFinite64_iff (a : F64) : isFinite64 a = true ↔ a.toNat % 0x8000000000000000 < 0x7FF0000000000000 := by
  have := a.isLt
  simp only [isFinite64, bne_iff_ne, ne_eq, ← BitVec.toNat_inj, BitVec.extractLsb'_toNat, Nat.shiftRight_eq_div_pow,
    BitVec.toNat_ofNat]
  omega

theorem isNaN64_iff (a : F64) : isNaN64 a = true ↔ 0x7FF0000000000000 < a.toNat % 0x8000000000000000 := by
  have := a.isLt
  simp only [isNaN64, Bool.and_eq_true, beq_iff_eq, bne_iff_ne, ne_eq, ← BitVec.toNat_inj, BitVec.extractLsb'_toNat,
    Nat.shiftRight_eq_div_pow, BitVec.toNat_ofNat]
  omega

theorem value64_finite (a : F64) (h : isFinite64 a = true) :
    value64 a = .finite a.msb (binary64.mag (a.toNat % 0x8000000000000000)) := by
  unfold value64
  conv_lhs => rw [toNat_withSign64 a]
  exact binary64.classify_finite _ _ ((isFinite64_iff a).mp h)

theorem value64_nan (a : F64) (h : isNaN64 a = true) : value64 a = .nan := by
  rw [isNaN64_iff] at h
  have := a.isLt
  unfold value64 FloatFormat.classify
  simp only [binary64, FloatFormat.signBit]
  norm_num
  rw [if_pos (by omega), if_neg (by omega)]

theorem value64_inf (a : F64) (h : isFinite64 a = false) (hn : isNaN64 a = false) : value64 a = .inf a.msb := by
  have h1 : ¬ a.toNat % 0x8000000000000000 < 0x7FF0000000000000 := by rw [← isFinite64_iff]; simp [h]
  have h2 : ¬ 0x7FF0000000000000 < a.toNat % 0x8000000000000000 := by rw [← isNaN64_iff]; simp [hn]
  unfold value64
  rw [toNat_withSign64 a, show a.toNat % 0x8000000000000000 = binary64.infBits by simp; omega]
  exact binary64.classify_infBits _

/-- The quiet NaN of a draw is a NaN, whatever the draw (R12). -/
theorem isNaN64_quietNan64 (k : Nat) : isNaN64 (quietNan64 k) = true := by
  have h1 : (quietNan64 k).extractLsb' 52 11 = 0x7FF#11 := by
    unfold quietNan64
    rw [BitVec.extractLsb'_or]
    generalize (Config.nan64 k).extractLsb' 52 11 = x
    have : (0x7FF8000000000000#64).extractLsb' 52 11 = BitVec.allOnes 11 := by decide
    rw [this, BitVec.or_allOnes]; rfl
  have h2 : (quietNan64 k).extractLsb' 0 52 ≠ 0#52 := by
    intro h
    have := congrArg (fun v => v.getLsbD 51) h
    simp [quietNan64] at this
  simp [isNaN64, h1, h2]

theorem deliver64_ratio (k : Nat) (neg : Bool) (num den : Nat) :
    (deliver64 k (.ratio neg num den)).toNat = binary64.withSign neg (binary64.roundRatio num den) := by
  have := binary64.roundRatio_le_infBits num den
  simp only [binary64_infBits] at this
  cases neg <;> simp [deliver64, FloatFormat.deliver, FloatFormat.withSign] <;> omega

theorem deliver64_ratio_msb (k : Nat) (neg : Bool) (num den : Nat) :
    (deliver64 k (.ratio neg num den)).msb = neg := by
  have := binary64.roundRatio_le_infBits num den
  simp only [binary64_infBits] at this
  rw [BitVec.msb_eq_decide, deliver64_ratio]
  cases neg
  · simp [FloatFormat.withSign]; omega
  · simp [FloatFormat.withSign]

theorem deliver64_ratio_rest (k : Nat) (neg : Bool) (num den : Nat) :
    (deliver64 k (.ratio neg num den)).toNat % 0x8000000000000000 = binary64.roundRatio num den := by
  have := binary64.roundRatio_le_infBits num den
  simp only [binary64_infBits] at this
  rw [deliver64_ratio]
  cases neg <;> simp [FloatFormat.withSign] <;> omega

theorem value64_deliver64_ratio (k : Nat) (neg : Bool) (num den : Nat)
    (h : binary64.roundRatio num den < 0x7FF0000000000000) :
    value64 (deliver64 k (.ratio neg num den)) = .finite neg (binary64.mag (binary64.roundRatio num den)) := by
  rw [value64_finite _ ((isFinite64_iff _).mpr (by rw [deliver64_ratio_rest]; exact h)), deliver64_ratio_msb,
    deliver64_ratio_rest]

theorem deliver64_inf (k : Nat) (neg : Bool) :
    deliver64 k (.inf neg) = if neg then 0xFFF0000000000000#64 else 0x7FF0000000000000#64 := by
  cases neg <;> rfl

theorem value64_deliver64_inf (k : Nat) (neg : Bool) : value64 (deliver64 k (.inf neg)) = .inf neg := by
  rw [deliver64_inf]
  revert neg; decide

end Sys2Proof.Machine
end

