-- ==== Sys2Proof/Laws/PerInstr.lean ====
section
/-! SUPPORT. One statement per command, for the statements about all commands. -/

namespace Sys2Proof.Laws.EncodesUnderItsMask

/-- The word that `encode` gives for `i` matches `i`'s row of Table R77 and no other row. -/
def Statement (i : Instr) : Prop :=
  ∀ r ∈ opcodeRows, r.matchesWord (encode i) = true ↔ r.mnemonic = i.mnemonic

/-- All rows at once, each field of the word against each field of the row. -/
theorem of_fields (i : Instr) (op idx : BitVec 8) (data : BitVec 32) (h : encode i = packWord op idx data)
    (rows : ∀ r ∈ opcodeRows,
      (op &&& opField r.mask = opField r.bits ∧ idx &&& idxField r.mask = idxField r.bits
        ∧ data &&& dataField r.mask = dataField r.bits) ↔ r.mnemonic = i.mnemonic) : Statement i := by
  intro r hr
  rw [h, matches_packWord]
  exact rows r hr

theorem rst : Statement .rst :=
  of_fields _ _ _ _ rfl (by simp [opcodeRows, Instr.mnemonic, opField, idxField, dataField])

theorem wr (idx : BitVec 8) (data : F32) : Statement (.wr idx data) :=
  of_fields _ _ _ _ rfl (by simp [opcodeRows, Instr.mnemonic, opField, idxField, dataField])

theorem rd (idx : BitVec 8) : Statement (.rd idx) :=
  of_fields _ _ _ _ rfl (by simp [opcodeRows, Instr.mnemonic, opField, idxField, dataField])

theorem init : Statement .init :=
  of_fields _ _ _ _ rfl (by simp [opcodeRows, Instr.mnemonic, opField, idxField, dataField])

theorem push (x : F32) : Statement (.push x) :=
  of_fields _ _ _ _ rfl (by simp [opcodeRows, Instr.mnemonic, opField, idxField, dataField])

theorem flush : Statement .flush :=
  of_fields _ _ _ _ rfl (by simp [opcodeRows, Instr.mnemonic, opField, idxField, dataField])

theorem enc (x : F32) : Statement (.enc x) :=
  of_fields _ _ _ _ rfl (by simp [opcodeRows, Instr.mnemonic, opField, idxField, dataField])

/-- The bits that format `B` reserves are zero in every code operand. -/
theorem code_reserved_bits : ∀ code : BitVec 8, (0#24 ++ code) &&& 0xFFFFFF00#32 = 0#32 := by decide

theorem dec (code : BitVec 8) : Statement (.dec code) :=
  of_fields _ _ _ _ rfl (by
    simp [opcodeRows, Instr.mnemonic, opField, idxField, dataField]
    exact code_reserved_bits code)

end Sys2Proof.Laws.EncodesUnderItsMask
end

