-- ==== Sys2Proof/Laws/Port.lean ====
section
/-! SUPPORT. The small lemmas of the port layer: what the outputs show in each stage, and what one edge does. -/

namespace Sys2Proof.Machine

/-- A response is presented exactly in the stage that holds it. -/
theorem PortBlock.rspOut_eq_some (b : PortBlock) (r : Response) : b.rspOut = some r ↔ b.stage = .responding r := by
  unfold PortBlock.rspOut
  split <;> simp [*]

/-- `cmd_ready` is 1 exactly in its stage. -/
theorem PortBlock.cmdReady_iff (b : PortBlock) : b.cmdReady = true ↔ b.stage = .ready := by
  unfold PortBlock.cmdReady
  split <;> simp [*]

@[simp] theorem PortBlock.recover_regs (b : PortBlock) (n : Nat) : (b.recover n).regs = b.regs := by cases n <;> rfl

@[simp] theorem PortBlock.recover_rspOut (b : PortBlock) (n : Nat) : (b.recover n).rspOut = none := by cases n <;> rfl

@[simp] theorem PortBlock.cycle_rst (b : PortBlock) (i : PortIn) (h : i.rst = true) : b.cycle i = b.reset := by
  simp [PortBlock.cycle, h]

/-- A working block does not look at its inputs, reset apart. -/
theorem PortBlock.cycle_working (b : PortBlock) (i : PortIn) (w : Cmd) (n : Nat) (h : i.rst = false)
    (hs : b.stage = .working w n) : b.cycle i = b.work w n := by
  simp [PortBlock.cycle, h, hs]

/-- Executing a command presents its one response. -/
theorem PortBlock.execute_next (b : PortBlock) (w : Cmd) (t : State) (h : acceptWord w b.regs = .next t) :
    b.execute w = b.present t := by
  simp [PortBlock.execute, h]

/-- After as many edges as it has cycles left, a working block has executed its command (R72). -/
theorem PortBlock.cycles_work (w : Cmd) (t : State) (is : List PortIn) (his : ∀ j ∈ is, j.rst = false) (b : PortBlock)
    (h : acceptWord w b.regs = .next t) : PortBlock.cycles is (b.work w is.length) = b.present t := by
  induction is generalizing b with
  | nil => exact b.execute_next w t h
  | cons i is ih =>
    rw [PortBlock.cycles, cycle_working _ i w is.length (his i List.mem_cons_self) rfl]
    exact ih (fun j hj => his j (List.mem_cons_of_mem _ hj)) { b with stage := .working w is.length } h

/-- A working block shows nothing at its outputs and keeps its registers while it has cycles left (R71, R72). -/
theorem PortBlock.cycles_work_lt (w : Cmd) (is : List PortIn) (his : ∀ j ∈ is, j.rst = false) (b : PortBlock) (n : Nat)
    (h : is.length < n) :
    PortBlock.cycles is (b.work w n) = { b with stage := .working w (n - is.length - 1) } := by
  induction is generalizing b n with
  | nil => match n, h with | _ + 1, _ => rfl
  | cons i is ih =>
    match n, h with
    | n + 1, h =>
      rw [PortBlock.cycles, cycle_working _ i w n (his i List.mem_cons_self) rfl,
        ih (fun j hj => his j (List.mem_cons_of_mem _ hj)) _ n (by simpa using h), List.length_cons,
        Nat.add_sub_add_right]
      rfl

/-- Each edge takes one off the cycles in which a recovering block keeps `cmd_ready` at 0 (R71, R215). -/
theorem PortBlock.cycles_recover (is : List PortIn) (his : ∀ j ∈ is, j.rst = false) (b : PortBlock) (n : Nat)
    (h : is.length ≤ n) : PortBlock.cycles is (b.recover n) = b.recover (n - is.length) := by
  induction is generalizing b n with
  | nil => rfl
  | cons i is ih =>
    match n, h with
    | n + 1, h =>
      have hi := his i List.mem_cons_self
      have hc : (b.recover (n + 1)).cycle i = { b with stage := .recovering n }.recover n := by
        simp [PortBlock.recover, PortBlock.cycle, hi]
      rw [PortBlock.cycles, hc, ih (fun j hj => his j (List.mem_cons_of_mem _ hj)) _ n (by simpa using h),
        List.length_cons, Nat.add_sub_add_right]
      cases n - is.length <;> rfl

@[simp] theorem PortBlock.recover_cmdReady (b : PortBlock) (n : Nat) : (b.recover n).cmdReady = (n == 0) := by
  cases n <;> rfl

end Sys2Proof.Machine
end

