-- ==== Sys2Proof/Laws/Rounding.lean ====
section
/-! SUPPORT. When a rounded result is an infinity (R11), and that a result depends on its draw only in the payload of a
NaN (R12, R116). -/

namespace Sys2Proof.Machine

/-- Rounding stays below the infinity exactly below the midpoint of the largest finite value and the next one. -/
theorem FloatFormat.roundRatio_lt_infBits_iff (F : FloatFormat) (num den b : Nat) (hd : 0 < den)
    (hb : F.infBits = b + 1) (hodd : b % 2 = 1) (hf : F.fracBits ≠ 0) :
    F.roundRatio num den < F.infBits ↔ 2 * num < den * (F.mag b + F.mag F.infBits) := by
  obtain ⟨s, q, r, hs, hq, hnum, hnext, hr, hround⟩ := F.roundRatio_cases num den hd
  have hpar : (s * 2 ^ F.fracBits + q) % 2 = q % 2 := by
    obtain ⟨f, hf⟩ := Nat.exists_eq_succ_of_ne_zero hf
    rw [hf, pow_succ, ← mul_assoc]; omega
  set p := s * 2 ^ F.fracBits + q with hp
  rw [hround, hb]
  rcases lt_trichotomy p b with h | h | h
  · have h1 : F.mag (p + 1) ≤ F.mag b := F.mag_strictMono.monotone h
    have h2 : F.mag b < F.mag (b + 1) := F.mag_strictMono (by omega)
    rw [hnext] at h1
    have h3 := Nat.mul_le_mul_left den h1
    rw [Nat.mul_add] at h3
    have h4 := Nat.mul_lt_mul_of_pos_left h2 hd
    rw [Nat.mul_add]
    constructor
    · intro _; omega
    · intro _; split <;> omega
  · subst h
    rw [hnext, Nat.mul_add, Nat.mul_add]
    cases hu : roundsUp q r (den * 2 ^ s) <;>
      simp only [roundsUp, Bool.or_eq_true, Bool.or_eq_false_iff, decide_eq_true_eq, decide_eq_false_iff_not,
        Bool.and_eq_true, Bool.and_eq_false_imp, beq_iff_eq, beq_eq_false_iff_ne] at hu
    · have : ¬ 2 * r = den * 2 ^ s := fun e => hu.2 e (by omega)
      simp; omega
    · simp; omega
  · have h1 : F.mag (b + 1) ≤ F.mag p := F.mag_strictMono.monotone h
    have h2 : F.mag b < F.mag (b + 1) := F.mag_strictMono (by omega)
    have h3 := Nat.mul_le_mul_left den h1
    have h4 := Nat.mul_le_mul_left den h2.le
    rw [Nat.mul_add]
    constructor
    · intro h5; exfalso; revert h5; split <;> omega
    · intro h5; omega

/-- Of two values equally near to `num/den`, rounding takes the one with the even pattern. -/
theorem FloatFormat.roundRatio_even (F : FloatFormat) (num den b : Nat) (hd : 0 < den) (hf : F.fracBits ≠ 0)
    (hfin : F.roundRatio num den < F.infBits) (hb : b ≠ F.roundRatio num den)
    (htie : |(F.mag (F.roundRatio num den) : ℚ) - num / den| = |(F.mag b : ℚ) - num / den|) :
    F.roundRatio num den % 2 = 0 := by
  obtain ⟨s, q, r, -, -, hnum, hnext, hr, hround⟩ := F.roundRatio_cases num den hd
  have hpar : (s * 2 ^ F.fracBits + q) % 2 = q % 2 := by
    obtain ⟨f, hf⟩ := Nat.exists_eq_succ_of_ne_zero hf
    rw [hf, pow_succ, ← mul_assoc]; omega
  set p := s * 2 ^ F.fracBits + q
  have hdq : (0 : ℚ) < den := by exact_mod_cast hd
  have hx : (num : ℚ) / den = F.mag p + r / den := by rw [hnum]; push_cast; field_simp
  have hrq : (r : ℚ) / den < 2 ^ s := by rw [div_lt_iff₀ hdq, mul_comm]; exact_mod_cast hr
  have hr0 : (0 : ℚ) ≤ r / den := by positivity
  have hnextq : (F.mag (p + 1) : ℚ) = F.mag p + 2 ^ s := by exact_mod_cast hnext
  have hmid : 2 * ((r : ℚ) / den) = 2 ^ s → 2 * r = den * 2 ^ s := fun h => by
    rw [← mul_div_assoc, div_eq_iff hdq.ne', mul_comm _ (den : ℚ)] at h; exact_mod_cast h
  have hlt : ∀ c d, c < d → (F.mag c : ℚ) < F.mag d := fun c d h => by exact_mod_cast F.mag_strictMono h
  rw [hx] at htie
  cases hu : roundsUp q r (den * 2 ^ s)
  · have hval : F.roundRatio num den = p := by rw [hu] at hround; simp at hround; omega
    simp only [roundsUp, Bool.or_eq_false_iff, decide_eq_false_iff_not, Bool.and_eq_false_imp, beq_iff_eq,
      beq_eq_false_iff_ne] at hu
    rw [hval] at htie hb ⊢
    rw [abs_of_nonpos (by linarith)] at htie
    rcases Nat.lt_or_gt_of_ne hb with h | h
    · have := hlt _ _ h
      rw [abs_of_nonpos (by linarith)] at htie; linarith
    · have h1 : (F.mag (p + 1) : ℚ) ≤ F.mag b := by exact_mod_cast F.mag_strictMono.monotone (Nat.succ_le_of_lt h)
      have h2 : 2 * ((r : ℚ) / den) ≤ 2 ^ s := by
        have : (2 : ℚ) * r ≤ den * 2 ^ s := by exact_mod_cast Nat.le_of_not_lt hu.1
        rw [← mul_div_assoc, div_le_iff₀ hdq]; linarith
      rw [abs_of_nonneg (by linarith)] at htie
      have := hu.2 (hmid (by linarith))
      omega
  · have hval : F.roundRatio num den = p + 1 := by rw [hu] at hround; simp at hround; omega
    simp only [roundsUp, Bool.or_eq_true, decide_eq_true_eq, Bool.and_eq_true, beq_iff_eq] at hu
    rw [hval] at htie hb ⊢
    rw [hnextq, abs_of_nonneg (by linarith)] at htie
    have h2 : 2 ^ s ≤ 2 * ((r : ℚ) / den) := by
      have : den * 2 ^ s ≤ 2 * r := by omega
      have : (den : ℚ) * 2 ^ s ≤ 2 * r := by exact_mod_cast this
      rw [← mul_div_assoc, le_div_iff₀ hdq]; linarith
    rcases Nat.lt_or_gt_of_ne hb with h | h
    · have h1 : (F.mag b : ℚ) ≤ F.mag p := by exact_mod_cast F.mag_strictMono.monotone (Nat.le_of_lt_succ h)
      rw [abs_of_nonpos (by linarith)] at htie
      have := hmid (by linarith)
      omega
    · have := hlt _ _ h
      rw [hnextq] at this
      rw [abs_of_nonneg (by linarith)] at htie; linarith

/-- A magnitude with a sign. -/
def signed (neg : Bool) (m : ℚ) : ℚ := if neg then -m else m

theorem signed_cast (neg : Bool) (m : Nat) : ((signedMag neg m : ℤ) : ℚ) = signed neg m := by
  cases neg <;> simp [signedMag, signed]

/-- Rounding to nearest, ties to even, among the values of both signs. -/
theorem FloatFormat.roundRatio_signed (F : FloatFormat) (num den b : Nat) (neg neg' : Bool) (hd : 0 < den)
    (hf : F.fracBits ≠ 0) (hfin : F.roundRatio num den < F.infBits) :
    |signed neg (F.mag (F.roundRatio num den)) - signed neg (num / den)|
        ≤ |signed neg' (F.mag b) - signed neg (num / den)|
      ∧ (|signed neg (F.mag (F.roundRatio num den)) - signed neg (num / den)|
          = |signed neg' (F.mag b) - signed neg (num / den)| →
        signed neg' (F.mag b) ≠ signed neg (F.mag (F.roundRatio num den)) → F.roundRatio num den % 2 = 0) := by
  have near := F.roundRatio_nearest num den b hd hfin
  have near0 := F.roundRatio_nearest num den 0 hd hfin
  have even := F.roundRatio_even num den b hd hf hfin
  have even0 := F.roundRatio_even num den 0 hd hf hfin
  have h0 : F.mag 0 = 0 := by simp [FloatFormat.mag]
  have hx : (0 : ℚ) ≤ num / den := by positivity
  have hb : (0 : ℚ) ≤ F.mag b := Nat.cast_nonneg _
  rw [h0, Nat.cast_zero, zero_sub, abs_neg, abs_of_nonneg hx] at near0 even0
  set M : ℚ := ((F.mag (F.roundRatio num den) : ℕ) : ℚ) with hM
  set x : ℚ := num / den
  have habs : ∀ n, |signed n M - signed n x| = |M - x| := by
    intro n; cases n
    · rfl
    · simp only [signed, if_true]; rw [← abs_neg]; congr 1; ring
  have hdiff : ∀ n m : Bool, n ≠ m → ∀ y : ℚ, 0 ≤ y → |signed m y - signed n x| = y + x := by
    intro n m h y hy
    cases n <;> cases m <;> simp only [signed, ne_eq, not_true, if_true] at h ⊢
    · rw [if_neg (by decide), abs_of_nonpos (by linarith)]; ring
    · rw [if_neg (by decide), abs_of_nonneg (by linarith)]; ring
  have hsame : ∀ n (y : ℚ), |signed n y - signed n x| = |y - x| := by
    intro n y; cases n
    · rfl
    · simp only [signed, if_true]; rw [← abs_neg]; congr 1; ring
  rw [habs]
  by_cases hs : neg = neg'
  · subst hs
    rw [hsame]
    refine ⟨near, fun ht hne => even (fun e => hne ?_) ht⟩
    rw [e]
  · rw [hdiff neg neg' hs _ hb]
    refine ⟨by linarith, fun ht hne => ?_⟩
    have hb0 : (F.mag b : ℚ) = 0 := by linarith
    refine even0 (fun e => hne ?_) (by linarith)
    have hM0 : M = 0 := by rw [hM, ← e, h0, Nat.cast_zero]
    rw [hb0, hM0]
    cases neg <;> cases neg' <;> simp [signed]

/-- The binary32 instance: `(2^25 - 1) * 2^252` units are `roundLimit32`. -/
theorem roundRatio32_lt_iff (num den : Nat) (hd : 0 < den) :
    binary32.roundRatio num den < 0x7F800000 ↔ num < den * (0x1FFFFFF * 2 ^ 252) := by
  have h := binary32.roundRatio_lt_infBits_iff num den 0x7F7FFFFF hd rfl (by decide) (by decide)
  rw [show binary32.mag 0x7F7FFFFF + binary32.mag binary32.infBits = 2 * (0x1FFFFFF * 2 ^ 252) by decide +kernel] at h
  rw [← binary32_infBits, h, Nat.mul_left_comm, Nat.mul_lt_mul_left (by decide)]

/-- The binary64 instance: `(2^54 - 1) * 2^2044` units are `roundLimit64`. -/
theorem roundRatio64_lt_iff (num den : Nat) (hd : 0 < den) :
    binary64.roundRatio num den < 0x7FF0000000000000 ↔ num < den * (0x3FFFFFFFFFFFFF * 2 ^ 2044) := by
  have h := binary64.roundRatio_lt_infBits_iff num den 0x7FEFFFFFFFFFFFFF hd rfl (by decide) (by decide)
  rw [show binary64.mag 0x7FEFFFFFFFFFFFFF + binary64.mag binary64.infBits = 2 * (0x3FFFFFFFFFFFFF * 2 ^ 2044)
    by decide +kernel] at h
  rw [← binary64_infBits, h, Nat.mul_left_comm, Nat.mul_lt_mul_left (by decide)]

/-- The limit in units. -/
theorem roundLimit32_units : roundLimit32 * 2 ^ 149 = ((0x1FFFFFF * 2 ^ 252 : ℕ) : ℚ) := by
  rw [roundLimit32, Nat.cast_mul, Nat.cast_pow, show (2 : ℚ) ^ 128 = 2 ^ 103 * 2 ^ 25 by rw [← pow_add],
    show ((2 : ℕ) : ℚ) ^ 252 = 2 ^ 103 * 2 ^ 149 by rw [Nat.cast_ofNat, ← pow_add]]
  generalize (2 : ℚ) ^ 103 = a
  generalize (2 : ℚ) ^ 149 = b
  push_cast; ring

/-- The limit in units. -/
theorem roundLimit64_units : roundLimit64 * 2 ^ 1074 = ((0x3FFFFFFFFFFFFF * 2 ^ 2044 : ℕ) : ℚ) := by
  rw [roundLimit64, Nat.cast_mul, Nat.cast_pow, Nat.cast_ofNat, show (1024 : ℕ) = 970 + 54 from rfl,
    show (2044 : ℕ) = 970 + 1074 from rfl, pow_add, pow_add]
  generalize (2 : ℚ) ^ 970 = a
  generalize (2 : ℚ) ^ 1074 = b
  ring

/-- The number of a finite pattern. -/
theorem f32Rat_finite (a : F32) (h : isFinite32 a = true) :
    f32Rat a = signed a.msb (binary32.mag (a.toNat % 0x80000000)) / 2 ^ 149 := by
  rw [f32Rat, value32_finite a h, ← signed_cast]

/-- The number of a finite pattern. -/
theorem f64Rat_finite (a : F64) (h : isFinite64 a = true) :
    f64Rat a = signed a.msb (binary64.mag (a.toNat % 0x8000000000000000)) / 2 ^ 1074 := by
  rw [f64Rat, value64_finite a h, ← signed_cast]

theorem abs_signed (neg : Bool) {x : ℚ} (h : 0 ≤ x) : |signed neg x| = x := by
  cases neg
  · exact abs_of_nonneg h
  · simp only [signed, if_true, abs_neg]; exact abs_of_nonneg h

theorem signed_neg_iff (neg : Bool) {x : ℚ} (h : 0 < x) : signed neg x < 0 ↔ neg = true := by
  cases neg
  · simp [signed, h.le]
  · simp [signed, h]

theorem decide_signed_div (neg : Bool) {x u : ℚ} (hx : 0 < x) (hu : 0 < u) : decide (signed neg x / u < 0) = neg := by
  rw [Bool.eq_iff_iff, decide_eq_true_eq, div_lt_iff₀ hu, zero_mul, signed_neg_iff neg hx]

theorem roundLimit32_pos : 0 < roundLimit32 := sub_pos.mpr (pow_lt_pow_right₀ one_lt_two (by decide))

theorem roundLimit64_pos : 0 < roundLimit64 := sub_pos.mpr (pow_lt_pow_right₀ one_lt_two (by decide))

theorem isFinite64_deliver64_ratio (k : Nat) (neg : Bool) (num den : Nat) :
    isFinite64 (deliver64 k (.ratio neg num den)) = true ↔ binary64.roundRatio num den < 0x7FF0000000000000 := by
  rw [isFinite64_iff, deliver64_ratio_rest]

/-- What `deliver32` makes of an exact ratio is that ratio rounded (R11). -/
theorem deliver32_rounds (k : Nat) (neg : Bool) (num den : Nat) (hd : 0 < den) :
    RoundsTo32 (deliver32 k (.ratio neg num den)) (signed neg (num / den) / 2 ^ 149) := by
  have hdq : (0 : ℚ) < den := by exact_mod_cast hd
  have hx : (0 : ℚ) ≤ num / den := by positivity
  have hu : (0 : ℚ) < 2 ^ 149 := pow_pos two_pos _
  have hpos : signed neg ((num : ℚ) / den) / 2 ^ 149 ≠ 0 → (0 : ℚ) < num / den := fun h =>
    lt_of_le_of_ne hx fun e => h (by rw [← e]; cases neg <;> simp [signed])
  have hlim : |signed neg ((num : ℚ) / den) / 2 ^ 149| < roundLimit32
      ↔ binary32.roundRatio num den < 0x7F800000 := by
    rw [roundRatio32_lt_iff num den hd, abs_div, abs_signed neg hx, abs_of_pos hu, div_lt_iff₀ hu, div_lt_iff₀ hdq,
      roundLimit32_units, ← Nat.cast_mul, Nat.cast_lt, Nat.mul_comm den]
  refine ⟨fun h => ?_, fun h => ?_, fun h => ?_⟩
  · have hfin := hlim.mp h
    have hr := (isFinite32_deliver32_ratio k neg num den).mpr hfin
    refine ⟨hr, fun y hy => ?_⟩
    obtain ⟨h1, h2⟩ := binary32.roundRatio_signed num den (y.toNat % 0x80000000) neg y.msb hd (by decide) hfin
    rw [f32Rat_finite _ hr, f32Rat_finite _ hy, deliver32_ratio_msb, deliver32_ratio_rest, ← sub_div, ← sub_div,
      abs_div, abs_div, div_le_div_iff_of_pos_right (abs_pos.mpr hu.ne'), div_left_inj' (abs_pos.mpr hu.ne').ne',
      ne_eq, div_left_inj' hu.ne']
    refine ⟨h1, fun ht hne => ?_⟩
    have he := h2 ht hne
    rw [BitVec.getLsbD, Nat.testBit_zero, deliver32_ratio]
    cases neg <;> simp [FloatFormat.withSign, binary32_signBit] <;> omega
  · have hfin : binary32.roundRatio num den = 0x7F800000 := by
      have := mt hlim.mpr (not_lt.mpr h)
      have := binary32.roundRatio_le_infBits num den
      rw [binary32_infBits] at this
      omega
    have hp := hpos fun e => by rw [e, abs_zero] at h; exact absurd h (not_le.mpr roundLimit32_pos)
    apply BitVec.eq_of_toNat_eq
    rw [deliver32_ratio, hfin, decide_signed_div neg hp hu]
    cases neg <;> rfl
  · rw [deliver32_ratio_msb, decide_signed_div neg (hpos h) hu]

/-- What `deliver64` makes of an exact ratio is that ratio rounded (R11). -/
theorem deliver64_rounds (k : Nat) (neg : Bool) (num den : Nat) (hd : 0 < den) :
    RoundsTo64 (deliver64 k (.ratio neg num den)) (signed neg (num / den) / 2 ^ 1074) := by
  have hdq : (0 : ℚ) < den := by exact_mod_cast hd
  have hx : (0 : ℚ) ≤ num / den := by positivity
  have hu : (0 : ℚ) < 2 ^ 1074 := pow_pos two_pos _
  have hpos : signed neg ((num : ℚ) / den) / 2 ^ 1074 ≠ 0 → (0 : ℚ) < num / den := fun h =>
    lt_of_le_of_ne hx fun e => h (by rw [← e]; cases neg <;> simp [signed])
  have hlim : |signed neg ((num : ℚ) / den) / 2 ^ 1074| < roundLimit64
      ↔ binary64.roundRatio num den < 0x7FF0000000000000 := by
    rw [roundRatio64_lt_iff num den hd, abs_div, abs_signed neg hx, abs_of_pos hu, div_lt_iff₀ hu, div_lt_iff₀ hdq,
      roundLimit64_units, ← Nat.cast_mul, Nat.cast_lt, Nat.mul_comm den]
  refine ⟨fun h => ?_, fun h => ?_, fun h => ?_⟩
  · have hfin := hlim.mp h
    have hr := (isFinite64_deliver64_ratio k neg num den).mpr hfin
    refine ⟨hr, fun y hy => ?_⟩
    obtain ⟨h1, h2⟩ := binary64.roundRatio_signed num den (y.toNat % 0x8000000000000000) neg y.msb hd (by decide) hfin
    rw [f64Rat_finite _ hr, f64Rat_finite _ hy, deliver64_ratio_msb, deliver64_ratio_rest, ← sub_div, ← sub_div,
      abs_div, abs_div, div_le_div_iff_of_pos_right (abs_pos.mpr hu.ne'), div_left_inj' (abs_pos.mpr hu.ne').ne',
      ne_eq, div_left_inj' hu.ne']
    refine ⟨h1, fun ht hne => ?_⟩
    have he := h2 ht hne
    rw [BitVec.getLsbD, Nat.testBit_zero, deliver64_ratio]
    cases neg <;> simp [FloatFormat.withSign, binary64_signBit] <;> omega
  · have hfin : binary64.roundRatio num den = 0x7FF0000000000000 := by
      have := mt hlim.mpr (not_lt.mpr h)
      have := binary64.roundRatio_le_infBits num den
      rw [binary64_infBits] at this
      omega
    have hp := hpos fun e => by rw [e, abs_zero] at h; exact absurd h (not_le.mpr roundLimit64_pos)
    apply BitVec.eq_of_toNat_eq
    rw [deliver64_ratio, hfin, decide_signed_div neg hp hu]
    cases neg <;> rfl
  · rw [deliver64_ratio_msb, decide_signed_div neg (hpos h) hu]

/-! ### Draws -/

/-- Patterns that are the same but for a payload have the same value. -/
theorem value32_congr {a b : F32} (h : SameUpToNaN32 a b) : value32 a = value32 b := by
  rcases h with rfl | ⟨ha, hb⟩
  · rfl
  · rw [value32_nan a ha, value32_nan b hb]

/-- What is delivered depends on the draw only in the payload of a NaN. -/
theorem deliver32_congr (k k' : Nat) (r : ExactResult) : SameUpToNaN32 (deliver32 k r) (deliver32 k' r) := by
  cases r with
  | nan => exact .inr ⟨isNaN32_quietNan32 k, isNaN32_quietNan32 k'⟩
  | inf neg => exact .inl rfl
  | ratio neg num den => exact .inl rfl

theorem f32add_congr {a a' b b' : F32} (ha : SameUpToNaN32 a a') (hb : SameUpToNaN32 b b') (k k' : Nat) :
    SameUpToNaN32 (f32add k a b) (f32add k' a' b') := by
  unfold f32add; rw [value32_congr ha, value32_congr hb]; exact deliver32_congr ..

theorem f32sub_congr {a a' b b' : F32} (ha : SameUpToNaN32 a a') (hb : SameUpToNaN32 b b') (k k' : Nat) :
    SameUpToNaN32 (f32sub k a b) (f32sub k' a' b') := by
  unfold f32sub; rw [value32_congr ha, value32_congr hb]; exact deliver32_congr ..

theorem f32mul_congr {a a' b b' : F32} (ha : SameUpToNaN32 a a') (hb : SameUpToNaN32 b b') (k k' : Nat) :
    SameUpToNaN32 (f32mul k a b) (f32mul k' a' b') := by
  unfold f32mul; rw [value32_congr ha, value32_congr hb]; exact deliver32_congr ..

/-- A section with the same coefficients and delays, on samples that are the same but for a payload, gives outputs and
delays that are (R116). -/
theorem biquad_congr (k k' : Nat) (co : Vector F32 5) (d : Vector F32 2) {x x' : F32} (h : SameUpToNaN32 x x') :
    SameUpToNaN32 (biquad k co d x).1 (biquad k' co d x').1
      ∧ ∀ j : Fin 2, SameUpToNaN32 (biquad k co d x).2[j] (biquad k' co d x').2[j] := by
  have same (a : F32) : SameUpToNaN32 a a := .inl rfl
  have hy : SameUpToNaN32 (biquad k co d x).1 (biquad k' co d x').1 := f32add_congr (same _) (f32mul_congr (same _) h ..) ..
  refine ⟨hy, fun j => ?_⟩
  fin_cases j
  · exact f32sub_congr (f32add_congr (same _) (f32mul_congr (same _) h ..) ..) (f32mul_congr (same _) hy ..) ..
  · exact f32sub_congr (f32mul_congr (same _) h ..) (f32mul_congr (same _) hy ..) ..

/-- A section none of whose results is a NaN does the same whatever the draws. -/
theorem biquad_of_not_nan (k k' : Nat) (co : Vector F32 5) (d : Vector F32 2) (x : F32)
    (hy : isNaN32 (biquad k' co d x).1 = false) (h0 : isNaN32 (biquad k' co d x).2[0] = false)
    (h1 : isNaN32 (biquad k' co d x).2[1] = false) : biquad k co d x = biquad k' co d x := by
  have eq {a b : F32} (h : SameUpToNaN32 a b) (hb : isNaN32 b = false) : a = b :=
    h.resolve_right fun hn => by rw [hn.2] at hb; cases hb
  obtain ⟨e, ed⟩ := biquad_congr k k' co d (x := x) (x' := x) (.inl rfl)
  refine Prod.ext (eq e hy) (Vector.ext fun j hj => ?_)
  match j, hj with
  | 0, _ => exact eq (ed 0) h0
  | 1, _ => exact eq (ed 1) h1

/-- What a section does is the step of R111, operation by operation. -/
theorem biquad_sectionStep (k : Nat) (co : Vector F32 5) (d : Vector F32 2) (x : F32) :
    SectionStep co d x (biquad k co d x).1 (biquad k co d x).2 :=
  ⟨fun n => k + n.val, rfl, rfl, rfl⟩

/-! ### Infinities -/

@[simp] theorem value32_signedInf32 (neg : Bool) : value32 (signedInf32 neg) = .inf neg := by revert neg; decide

@[simp] theorem value64_signedInf64 (neg : Bool) : value64 (signedInf64 neg) = .inf neg := by revert neg; decide

/-- A finite pattern has no units exactly if it is a zero. -/
theorem mag32_eq_zero_iff (a : F32) : binary32.mag (a.toNat % 0x80000000) = 0 ↔ isZero32 a = true := by
  rw [show 0 = binary32.mag 0 from rfl, binary32.mag_strictMono.injective.eq_iff]
  have := a.isLt
  simp only [isZero32, Bool.or_eq_true, beq_iff_eq, ← BitVec.toNat_inj, BitVec.toNat_ofNat]
  omega

/-- What a decimal literal stands for (R82): the decimal rounded, with the literal's sign; an infinity beyond the range
of binary32 and the sign of a zero are log entry 10. -/
theorem nearestF32_rounds (neg : Bool) (digits places : Nat) :
    RoundsTo32 (nearestF32 neg digits places) (signed neg (digits / 10 ^ places))
    ∧ (nearestF32 neg digits places).msb = neg := by
  refine ⟨?_, deliver32_ratio_msb 0 neg _ _⟩
  have h := deliver32_rounds 0 neg (digits * 2 ^ binary32.unitExp) (10 ^ places) (by positivity)
  have e : signed neg (((digits * 2 ^ binary32.unitExp : ℕ) : ℚ) / ((10 ^ places : ℕ) : ℚ)) / 2 ^ 149
      = signed neg (digits / 10 ^ places) := by
    have hu : binary32.unitExp = 149 := rfl
    rw [hu]
    cases neg <;> simp only [signed] <;> push_cast <;> field_simp <;> norm_num
  rwa [e] at h

end Sys2Proof.Machine
end

