-- ==== Sys2Proof/Laws/Sqrt.lean ====
section
/-! SUPPORT. The integer square root is the integer square root. -/

namespace Sys2Proof.Machine

/-- The search keeps its bracket and closes it. -/
theorem sqrtBits_spec (n b q : Nat) (lo : q * q ≤ n) (hi : n < (q + 2 ^ b) * (q + 2 ^ b)) :
    sqrtBits n b q * sqrtBits n b q ≤ n ∧ n < (sqrtBits n b q + 1) * (sqrtBits n b q + 1) := by
  induction b generalizing q with
  | zero => exact ⟨lo, by simpa [sqrtBits] using hi⟩
  | succ b ih =>
    rw [sqrtBits]
    split
    · exact ih _ ‹_› (by rwa [Nat.add_assoc, ← Nat.two_mul, ← Nat.pow_succ'])
    · exact ih _ lo (by omega)

/-- `isqrt n` is the largest natural number whose square is at most `n`. -/
theorem isqrt_spec (n : Nat) : isqrt n * isqrt n ≤ n ∧ n < (isqrt n + 1) * (isqrt n + 1) := by
  refine sqrtBits_spec n _ 0 (Nat.zero_le _) ?_
  rw [Nat.zero_add, ← Nat.pow_add]
  exact Nat.lt_of_lt_of_le Nat.lt_log2_self (Nat.pow_le_pow_right (by decide) (by omega))

end Sys2Proof.Machine
end

