-- ==== Sys2Proof/Tests/Slice0.lean ====
section
/-! SUPPORT. Tests: every expected value is one the spec prints (the V, S and worked-example numbers are those of
95_test_vectors.md), and for each statement with hypotheses a theorem showing that something meets them. -/

namespace Sys2Proof.Tests

open Sys2Proof Sys2Proof.Machine

/-! ## States -/

/-- The "standard configuration" of 95_test_vectors.md. -/
def stdCfg : Cfg := ⟨0x472C4400, 0x42C80000, 0x437A0000, 0x43480000, 0x451C4000, 0x44FA0000⟩

/-- Phase `IDLE`, configured. -/
def idle : State := { State.reset with cfg := stdCfg }

/-- Phase `RUN` with `SPB` = 64.0 and pass-through coefficients, no sample yet (V40). -/
def run : State :=
  { State.reset with
    cfg := { stdCfg with bps := 0x472C4400 }, coef := .replicate 4 passThrough, spb := 0x42800000, phase := 1 }

/-- The same after 64 samples of 0.5 (V40): at a bin boundary. -/
def full : State :=
  { run with
    pend := 0x42800000, nacc := 64, peak := .replicate 4 0x3F000000, rmsSum := .replicate 4 0x4030000000000000 }

/-- `RUN` with `SPB` = +inf, every other thing as in `run`. -/
def endless : State := { run with spb := 0x7F800000 }

/-- `RUN` after 65 zero samples: silent, one sample in the window. -/
def zeros : State := { run with pend := 0x3F800000, nacc := 1, lastn := 64 }

/-- Phase `DONE`. -/
def done : State := { run with phase := 2, lastn := 64 }

/-- The response of one step or command. -/
def rsp (o : Outcome) : Option Response :=
  match o with
  | .next t => t.rsps.head?
  | .fault _ => none
  | .refused _ => none

/-- A register after one step or command. -/
def after (o : Outcome) (r : Reg) : Option (BitVec 64) :=
  match o with
  | .next t => some (readReg t r)
  | .fault _ => none
  | .refused _ => none

/-! ## Well-formedness and decoding: one refused word per check (V1) -/

theorem test_op_zero_refused : legalWord 0x000000000000 = false ∧ decode 0x000000000000 = .error (.unknownOpcode 0) := by
  decide
theorem test_op_ones_refused :
    legalWord 0xFFFFFFFFFFFF = false ∧ decode 0xFFFFFFFFFFFF = .error (.unknownOpcode 0xFF) := by decide
theorem test_op_nine_refused :
    legalWord 0x090000000000 = false ∧ decode 0x090000000000 = .error (.unknownOpcode 9) := by decide
theorem test_rst_data_refused :
    legalWord 0x010000000001 = false ∧ decode 0x010000000001 = .error (.reservedNotZero 1) := by decide
theorem test_rst_idx_refused :
    legalWord 0x010100000000 = false ∧ decode 0x010100000000 = .error (.reservedNotZero 1) := by decide
theorem test_rd_data_refused :
    legalWord 0x030000000001 = false ∧ decode 0x030000000001 = .error (.reservedNotZero 3) := by decide
theorem test_init_data_refused :
    legalWord 0x040000000100 = false ∧ decode 0x040000000100 = .error (.reservedNotZero 4) := by decide
theorem test_push_idx_refused :
    legalWord 0x05013F000000 = false ∧ decode 0x05013F000000 = .error (.reservedNotZero 5) := by decide
theorem test_flush_data_refused :
    legalWord 0x060000000001 = false ∧ decode 0x060000000001 = .error (.reservedNotZero 6) := by decide
theorem test_enc_idx_refused :
    legalWord 0x0701BF800000 = false ∧ decode 0x0701BF800000 = .error (.reservedNotZero 7) := by decide
theorem test_dec_data_refused :
    legalWord 0x080000000100 = false ∧ decode 0x080000000100 = .error (.reservedNotZero 8) := by decide
theorem test_dec_idx_refused :
    legalWord 0x080100000000 = false ∧ decode 0x080100000000 = .error (.reservedNotZero 8) := by decide

/-! Words written out from Table R77 (`op`, then `idx`, then `data`). -/

theorem test_decode_rst : decode 0b000000010000000000000000000000000000000000000000#48 = .ok .rst := by decide
theorem test_decode_wr :
    decode 0b000000100001010001111111110000000000000000000001#48 = .ok (.wr 0x14 0x7FC00001) := by decide
theorem test_decode_rd : decode 0b000000110111100100000000000000000000000000000000#48 = .ok (.rd 0x79) := by decide
theorem test_decode_init : decode 0b000001000000000000000000000000000000000000000000#48 = .ok .init := by decide
theorem test_decode_push :
    decode 0b000001010000000011111111111111111111111111111111#48 = .ok (.push 0xFFFFFFFF) := by decide
theorem test_decode_flush : decode 0b000001100000000000000000000000000000000000000000#48 = .ok .flush := by decide
theorem test_decode_enc :
    decode 0b000001110000000000111101110011001100110011001101#48 = .ok (.enc 0x3DCCCCCD) := by decide
theorem test_decode_dec : decode 0b000010000000000000000000000000000000000011111110#48 = .ok (.dec 0xFE) := by decide

/-- The table's numbering of bits, and the byte order of R52. -/
theorem test_table_word : decodeTableWord 48 0x0200472C4400 = some (.wr 0 0x472C4400)
    ∧ decodeTableWord 48 0x05013F000000 = none ∧ decodeTableWord 49 0x010000000000 = none := by decide
theorem test_byte_order : bytesOfWord 0x0200472C4400 = [0x00, 0x44, 0x2C, 0x47, 0x00, 0x02]
    ∧ wordOfBytes [0x00, 0x44, 0x2C, 0x47, 0x00, 0x02] = 0x0200472C4400
    ∧ bytesOfData 0xC3C0B58002010403 = [0x03, 0x04, 0x01, 0x02, 0x80, 0xB5, 0xC0, 0xC3]
    ∧ dataOfBytes [0x03, 0x04, 0x01, 0x02, 0x80, 0xB5, 0xC0, 0xC3] = 0xC3C0B58002010403 := by decide

/-! Text form (R82, R83, program lines of 95_test_vectors.md). -/

theorem test_assemble_wr : assembleLine "WR SR, 44100.0f ; comment".toList = some [.wr 0x00 0x472C4400] := by
  decide +kernel
theorem test_assemble_alias : assembleLine "RD HHP.a2".toList = some [.rd 0x2C] := by decide +kernel
theorem test_assemble_negative : assembleLine "PUSH -0.5f".toList = some [.push 0xBF000000] := by decide +kernel
theorem test_assemble_tie : assembleLine "ENC 0.1f".toList = some [.enc 0x3DCCCCCD] := by decide +kernel
/-- Log entry 10: beyond the binary32 range, and a negative literal that rounds to a zero (`-0.0f`: P2, line 13). -/
theorem test_assemble_range : assembleLine ("PUSH -35".toList ++ List.replicate 37 '0' ++ ['f']) = some [.push 0xFF800000]
    ∧ assembleLine ("ENC -0.".toList ++ List.replicate 49 '0' ++ "1f".toList) = some [.enc 0x80000000]
    ∧ assembleLine "ENC -0.0f".toList = some [.enc 0x80000000] := by decide +kernel
theorem test_assemble_code : assembleLine "DEC 128".toList = some [.dec 0x80] := by decide +kernel
theorem test_assemble_unknown : assembleLine "RD NOPE".toList = none := by decide +kernel

/-! ## Commands, one step each -/

/-- V15: in `RUN`, with samples in the window. -/
theorem test_rst_in_run : rsp (exec .rst full) = some ⟨0, 0⟩ ∧ after (exec .rst full) .sr = some 0 := by decide

/-- V10: a NaN is stored as it stands. -/
theorem test_wr_nan : after (exec (.wr 0x14 0x7FC00001) State.reset) (.coef 0 4) = some 0x7FC00001 := by decide
theorem test_wr_read_only : rsp (exec (.wr 0x40 0x3F800000) State.reset) = some ⟨15, 0x4003⟩ := by decide

/-- V10. -/
theorem test_rd_hole : rsp (exec (.rd 0x15) State.reset) = some ⟨15, 0x1503⟩ := by decide
theorem test_rd_sum : rsp (exec (.rd 0x6B) full) = some ⟨3, 0x4030000000000000⟩ := by decide

/-- V12; V13, all registers zero. -/
theorem test_init_standard : after (exec .init idle) .spb = some 0x43DC8000 ∧ after (exec .init idle) .phase = some 1 := by
  decide +kernel
theorem test_init_unconfigured : rsp (exec .init State.reset) = some ⟨15, 0x1704⟩ := by decide

/-- R151's example: the 65th push of 0.5. -/
theorem test_push_boundary : rsp (exec (.push 0x3F000000) full) = some ⟨2, 0xB580B580B580B580⟩ := by decide +kernel
theorem test_push_counts : after (exec (.push 0x3F000000) full) .pend = some 0x3F800000
    ∧ after (exec (.push 0x3F000000) full) .lastn = some 64
    ∧ after (exec (.push 0x3F000000) full) (.rmsSum 2) = some 0x3FD0000000000000 := by decide +kernel

/-- V35, the row of samples 0.25, -0.75, 0.5; V41, N = 0. -/
theorem test_flush_three : rsp (exec .flush { endless with
    nacc := 3, pend := 0x40400000, peak := .replicate 4 0x3F400000, rmsSum := .replicate 4 0x3FEC000000000000 })
      = some ⟨2, 0xC3C0C3C0C3C0C3C0⟩ := by decide +kernel
theorem test_flush_empty : rsp (exec .flush run) = some ⟨1, 0⟩ ∧ after (exec .flush run) .phase = some 2 := by decide

/-- R171's example; R173: -1.0 sets `NEG`. -/
theorem test_enc_tenth : rsp (exec (.enc 0x3DCCCCCD) State.reset) = some ⟨4, 25⟩ := by decide
theorem test_enc_negative : rsp (exec (.enc 0xBF800000) State.reset) = some ⟨4, 0⟩
    ∧ after (exec (.enc 0xBF800000) State.reset) .errstat = some 0x10 := by decide

/-- S1. -/
theorem test_dec_127 : rsp (exec (.dec 127) State.reset) = some ⟨3, 0x3EFEFEFF⟩ := by decide
theorem test_dec_254 : rsp (exec (.dec 254) done) = some ⟨3, 0x3F7EFEFF⟩ := by decide

/-- V1: an illegal word through the step, and V40: a second `FLUSH`. -/
theorem test_step_illegal : rsp (step (presentWord 0x080100000000 run)) = some ⟨15, 0x0801⟩ := by decide
theorem test_step_second_flush : rsp (step (presentWord 0x060000000000 done)) = some ⟨15, 0x0202⟩ := by decide

/-- V22, V24, V25: no fusing, gradual underflow to even, overflow. -/
theorem test_no_fusing : (biquad 0 #v[0x3F800800, 0, 0, 0, 0] #v[0xBF800000, 0] 0x3F800800).1 = 0x3A000000 := by decide
/-- V21, calls 1 and 5: the order of the roundings shows in both delay registers. -/
theorem test_rounded_run :
    let llp : Vector F32 5 := #v[0x39A230D3, 0x3A2230D3, 0x39A230D3, 0xBFF98DB8, 0x3F736C89]
    biquad 0 llp #v[0, 0] 0x3F800000 = (0x39A230D3, #v[0x3AA0260D, 0x377EF6E0])
    ∧ biquad 0 llp #v[0x3B95AD79, 0xBB5ADD02] 0x3F000000 = (0x3B9ABF00, #v[0x3BCA676E, 0xBB8E1361]) := by decide +kernel
theorem test_subnormal_to_even : f32mul 0 0x3F000000 0x00000001 = 0x00000000
    ∧ f32mul 0 0x3F000000 0x00000003 = 0x00000002 ∧ f32mul 0 0x3F000000 0x00800000 = 0x00400000 := by decide
theorem test_overflow : f32mul 0 0x40000000 0x7F7FFFFF = 0x7F800000 := by decide

/-- The two sides of the rounding limit, 2^103 above the greatest number and the number just below that (R11). -/
theorem test_rounding_limit : f32add 0 0x7F7FFFFF 0x73000000 = 0x7F800000
    ∧ f32add 0 0x7F7FFFFF 0x72FFFFFF = 0x7F7FFFFF ∧ f32sub 0 0xFF7FFFFF 0x73000000 = 0xFF800000 := by decide +kernel

/-- R126: the first call of the unit impulse, `mid` and `high`. -/
theorem test_impulse :
    ((bankStep 0x3F800000 { run with coef :=
      #v[#v[0x39A230D3, 0x3A2230D3, 0x39A230D3, 0xBFF98DB8, 0x3F736C89],
         #v[0x3F7AE4B8, 0xBFFAE4B8, 0x3F7AE4B8, 0xBFFAD7AE, 0x3F75E385],
         #v[0x3CCE3E24, 0x3D4E3E24, 0x3CCE3E24, 0xBFC07917, 0x3F1AB9F2],
         #v[0x3F513EDB, 0xBFD13EDB, 0x3F513EDB, 0xBFCCF098, 0x3F2B1A3B]] }).1)
      = #v[0x3F800000, 0x33CD83A9, 0x3A1F9804, 0x3F2B07B1] := by decide +kernel

/-! ## Witnesses: something meets the hypotheses of each statement -/

/-- The invariant holds in a state that is running with a full window. -/
theorem witness_inv_full : Inv full where
  phase_legal := by decide
  idle_clear := fun h => absurd h (by decide)
  configured := fun _ => by decide
  peak_nonneg := by decide
  sum_nonneg := by decide
  pend_range := by decide
  run_fresh := fun _ h => absurd h (by decide)
  run_counting := fun _ _ => by decide
  done_clear := fun h => absurd h (by decide)

/-- And in one with an infinite `SPB` and no sample yet. -/
theorem witness_inv_endless : Inv endless where
  phase_legal := by decide
  idle_clear := fun h => absurd h (by decide)
  configured := fun _ => by decide
  peak_nonneg := by decide
  sum_nonneg := by decide
  pend_range := by decide
  run_fresh := fun _ _ => ⟨rfl, rfl, ⟨rfl, rfl⟩, rfl⟩
  run_counting := fun _ h => absurd rfl h
  done_clear := fun h => absurd h (by decide)

/-- And in a silent one. -/
theorem witness_inv_zeros : Inv zeros where
  phase_legal := by decide
  idle_clear := fun h => absurd h (by decide)
  configured := fun _ => by decide
  peak_nonneg := by decide
  sum_nonneg := by decide
  pend_range := by decide
  run_fresh := fun _ h => absurd h (by decide)
  run_counting := fun _ _ => by decide
  done_clear := fun h => absurd h (by decide)

theorem witness_EncodeOfDecode : decode 0x0800000000FF = .ok (.dec 0xFF) := by decide
theorem witness_DecodeFollowsMaskAndMatch :
    ∃ r ∈ opcodeRows, (0x037800000000#48 : Cmd) &&& r.mask = r.bits := by decide
theorem witness_IllegalWordOnlySetsIllegal :
    (presentWord 0x090000000000 full).inputs = .command 0x090000000000 :: [] ∧ legalWord 0x090000000000 = false
      ∧ legalWord 0x080000000100 = false ∧ legalWord 0x050100000000 = false ∧ legalWord 0x030080000000 = false
      ∧ legalWord 0x060000000001 = false := by decide
theorem witness_StepRunsDecodedCommand :
    (presentWord 0x05003F000000 full).inputs = .command 0x05003F000000 :: [] ∧ decode 0x05003F000000
      = .ok (.push 0x3F000000) := by decide
theorem witness_EveryWordGetsOneResponse :
    (presentWord 0x000000000000 run).inputs = .command 0x000000000000 :: [] := by decide
theorem witness_IdleBlockKeepsEverything : full.inputs = [] := by decide
theorem witness_ResetZeroesEveryRegister :
    ({ full with inputs := [.reset] } : State).inputs = .reset :: [] ∧ assignedIndex 0x00 = true
      ∧ assignedIndex 0x79 = true := by decide
theorem witness_RegisterIndexMap : Reg.ofIndex 0x2C = some (.coef 3 4) ∧ Reg.ofIndex 0x6B = some (.rmsSum 3) := by decide
theorem witness_WrStoresPatternOnly : idle.phase = phaseIdle ∧ writableIndex 0x00 = true ∧ writableIndex 0x05 = true
    ∧ writableIndex 0x10 = true ∧ writableIndex 0x2C = true ∧ writableIndex 0x2D = false := by decide
theorem witness_IndexFault : assignedIndex 0x06 = false ∧ assignedIndex 0xFF = false ∧ idle.phase = phaseIdle
    ∧ writableIndex 0x40 = false ∧ writableIndex 0x79 = false ∧ writableIndex 0x2D = false ∧ run.phase = phaseRun := by
  decide

/-- Both clauses of the phase table: a rejected `WR` in `RUN`, an accepted `RD` in `DONE`. -/
theorem witness_PhaseTable : (run.phase == 0#2) = false ∧ (done.phase == 1#2) = false
    ∧ ∃ t r, exec (.rd 0x78) done = .next t ∧ t.rsps = r :: done.rsps := ⟨by decide, by decide, _, _, rfl, rfl⟩
theorem witness_RejectedCommandOnlySetsItsBit :
    (∃ t, step (presentWord 0x090000000000 run) = .next t ∧ t.rsps = ⟨15#4, 0x0901#64⟩ :: run.rsps)
    ∧ (∃ t, step (presentWord 0x020000000000 run) = .next t ∧ t.rsps = ⟨15#4, 0x0102#64⟩ :: run.rsps)
    ∧ (∃ t, step (presentWord 0x03FF00000000 run) = .next t ∧ t.rsps = ⟨15#4, 0xFF03#64⟩ :: run.rsps)
    ∧ ∃ t, step (presentWord 0x040000000000 State.reset) = .next t ∧ t.rsps = ⟨15#4, 0x1704#64⟩ :: State.reset.rsps :=
  ⟨⟨_, rfl, by decide⟩, ⟨_, rfl, by decide⟩, ⟨_, rfl, by decide⟩, ⟨_, rfl, by decide⟩⟩
theorem witness_StickyBitsStay : ∃ t, exec (.enc 0xBF800000) full = .next t ∧ Instr.enc 0xBF800000 ≠ .rst :=
  ⟨_, rfl, by decide⟩
theorem witness_PhaseTransitions : (∃ t, exec .init idle = .next t ∧ t.phase = phaseRun)
    ∧ (∃ t, exec .flush full = .next t ∧ t.phase = phaseDone) ∧ ∃ t, exec .rst done = .next t ∧ t.phase = phaseIdle :=
  ⟨⟨_, rfl, by decide⟩, ⟨_, rfl, by decide⟩, ⟨_, rfl, by decide⟩⟩
theorem witness_ConfigurationFrozenAfterInit :
    full.phase ≠ phaseIdle ∧ Instr.flush ≠ .rst ∧ ∃ t, exec .flush full = .next t := ⟨by decide, by decide, _, rfl⟩

/-- The hypotheses of `InitConstructs` on a configuration. -/
def passesChecks (c : Cfg) : Prop :=
  isFinite32 c.sr = true ∧ f32gt c.sr 0x00000000#32 = true ∧ isFinite32 c.bps = true ∧ f32gt c.bps 0x00000000#32 = true
    ∧ (∀ f ∈ [c.fLlp, c.fLhp, c.fHlp, c.fHhp], f32le 0x41A00000#32 f = true ∧ f32le f 0x469C4000#32 = true)
    ∧ f32le c.fLhp c.fLlp = true ∧ f32lt c.fLlp c.fHhp = true ∧ f32le c.fHhp c.fHlp = true

/-- The standard configuration, and the one at both ends of the range (V14, last row). -/
theorem witness_InitConstructs : idle.phase = phaseIdle ∧ passesChecks stdCfg
    ∧ passesChecks { stdCfg with fLlp := 0x41A00000, fLhp := 0x41A00000, fHlp := 0x469C4000, fHhp := 0x469C4000 } := by
  refine ⟨by decide, ?_, ?_⟩ <;>
    refine ⟨by decide, by decide, by decide, by decide, ?_, by decide, by decide, by decide⟩ <;>
    simp only [List.forall_mem_cons] <;> exact ⟨by decide, by decide, by decide, by decide, by simp⟩

/-- V13: configurations that fail check 2, 3, 4, 5 alone, and one that fails none. -/
theorem witness_InitReportsFailedChecks : State.reset.phase = phaseIdle
    ∧ validate { stdCfg with fLhp := 0x419FEB85 } = 0b000100
    ∧ validate { stdCfg with fLlp := 0x43480000, fLhp := 0x437A0000 } = 0b001000
    ∧ validate { stdCfg with fLlp := 0x44FA0000 } = 0b010000
    ∧ validate { stdCfg with fHlp := 0x44FA0000, fHhp := 0x451C4000 } = 0b100000
    ∧ validate { stdCfg with sr := 0x7F800000 } = 0b000001 ∧ validate { stdCfg with bps := 0xBF800000 } = 0b000010
    ∧ validate stdCfg = 0 := by decide
theorem witness_InitLeavesSpbAtLeast64 :
    idle.phase = phaseIdle ∧ ∃ t, exec .init idle = .next t ∧ t.phase = phaseRun := ⟨by decide, _, rfl, by decide⟩
theorem witness_PushFeedsSample : run.phase = phaseRun ∧ f32ge run.pend run.spb = false
    ∧ f32ge 0x427FFFFF run.spb = false := by decide
theorem witness_PushAtBoundary : full.phase = phaseRun ∧ f32ge full.pend full.spb = true := by decide
theorem witness_PushResponseExcludesItsSample : Inv full ∧ ∀ b : Fin 4, isNaN64 full.rmsSum[b] = false :=
  ⟨witness_inv_full, by decide⟩
theorem witness_FlushFinishesWindow : full.phase = phaseRun ∧ full.nacc ≠ 0#32 := by decide
theorem witness_FlushOfEmptyWindow : run.phase = phaseRun ∧ run.nacc = 0#32 := by decide
theorem witness_BinsOfIntegerWindows : run.spb = natTof32 64 ∧ run.phase = phaseRun ∧ run.pend = 0#32
    ∧ run.nacc = 0#32 ∧ natTof32 16777216 = pendMax := by decide
theorem witness_EveryPushIsCounted :
    (full.phase = phaseRun ∧ full.nacc ≠ 0xFFFFFFFF#32 ∧ ∃ t r, exec (.push 0) full = .next t ∧ t.rsps = r :: full.rsps)
    ∧ run.phase = phaseRun ∧ run.nacc ≠ 0xFFFFFFFF#32 ∧ ∃ t r, exec (.push 0) run = .next t ∧ t.rsps = r :: run.rsps :=
  ⟨⟨by decide, by decide, _, _, rfl, rfl⟩, by decide, by decide, _, _, rfl, rfl⟩
theorem witness_HugeSpbNeverEndsWindow : Inv endless ∧ endless.phase = phaseRun ∧ f32gt endless.spb pendMax = true
    ∧ ∃ t, exec (.push 0) endless = .next t :=
  ⟨witness_inv_endless, by decide, by decide, _, rfl⟩
theorem witness_WaveformCollectsBins :
    (idle.phase = phaseIdle ∧ ∃ t, exec .init idle = .next t ∧ t.phase = phaseRun)
    ∧ full.phase ≠ phaseIdle ∧ Instr.flush ≠ .rst ∧ ∃ t r, exec .flush full = .next t ∧ t.rsps = r :: full.rsps :=
  ⟨⟨by decide, _, rfl, by decide⟩, by decide, by decide, _, _, rfl, rfl⟩

/-- The least subnormal, the greatest finite number, and a zero of either sign in the delay pair. -/
theorem witness_PassThroughSection : isFinite32 0x00000001 = true ∧ isZero32 0x00000001 = false
    ∧ isFinite32 0xFF7FFFFF = true ∧ isZero32 0xFF7FFFFF = false ∧ isZero32 0x80000000 = true
    ∧ isZero32 0x00000000 = true := by decide
theorem witness_BiquadWorkedExample : isNaN32 0x7FC00000 = true ∧ isNaN32 0xFF800001 = true := by decide
theorem witness_BiquadKeepsZeros : (∀ j : Fin 5, isFinite32 (#v[0xFF7FFFFF, 1, 2, 3, 0x3F800000] : Vector F32 5)[j] = true)
    ∧ isZero32 0x80000000 = true ∧ isZero32 0x00000000 = true := by decide
theorem witness_NaNDelayStays : (∃ t, exec (.push 0) { run with z := .replicate 8 (.replicate 2 0x7FC00000) } = .next t)
    ∧ run.phase ≠ phaseIdle ∧ Instr.push 0 ≠ .rst
    ∧ isNaN32 ({ run with z := .replicate 8 (.replicate 2 0x7FC00000) } : State).z[(7 : Fin 8)][0] = true :=
  ⟨⟨_, rfl⟩, by decide, by decide, by decide⟩
/-- Two states that agree on what each of the three bands depends on, with other draws. -/
theorem witness_BandsAreIndependent : ∃ s s' : State, s.draws ≠ s'.draws
    ∧ (s.coef[0] = s'.coef[0] ∧ s.z[0] = s'.z[0] ∧ s.z[1] = s'.z[1])
    ∧ (s.coef[1] = s'.coef[1] ∧ s.coef[2] = s'.coef[2] ∧ s.z[2] = s'.z[2] ∧ s.z[3] = s'.z[3] ∧ s.z[4] = s'.z[4]
        ∧ s.z[5] = s'.z[5])
    ∧ s.coef[3] = s'.coef[3] ∧ s.z[6] = s'.z[6] ∧ s.z[7] = s'.z[7] := ⟨run, { full with draws := 7 }, by decide⟩
theorem witness_ConfigurationDoesNotReachStream : (∃ t, exec (.push 0) full = .next t) ∧ (∃ t, exec .flush full = .next t)
    ∧ (∃ t, exec (.enc 0) full = .next t) ∧ ∃ t, exec (.dec 0) full = .next t :=
  ⟨⟨_, rfl⟩, ⟨_, rfl⟩, ⟨_, rfl⟩, ⟨_, rfl⟩⟩
theorem witness_ZeroStreamGivesZeroBins : Inv zeros ∧ zeros.phase = phaseRun ∧ FiniteCoefs zeros ∧ Silent zeros
    ∧ isZero32 0x80000000 = true := by
  refine ⟨witness_inv_zeros, by decide, ?_, ⟨?_, rfl, rfl⟩, by decide⟩
  · unfold FiniteCoefs; decide
  · decide

/-- The number of a finite pattern, from its sign and its units. -/
theorem f32Rat_of_value (a : F32) (neg : Bool) (mag : Nat) (h : value32 a = .finite neg mag) :
    f32Rat a = (signedMag neg mag : ℚ) / 2 ^ 149 := by rw [f32Rat, h]

/-- 0.75, a boundary of the codes, and `-0.0`, the boundary of the operands. -/
theorem witness_EncIsClampedFloor : isFinite32 0x3F400000 = true ∧ f32Rat 0x3F400000 = 3 / 4
    ∧ isFinite32 0x80000000 = true ∧ f32Rat 0x80000000 = 0 := by
  refine ⟨by decide, ?_, by decide, ?_⟩
  · rw [f32Rat_of_value _ false (3 * 2 ^ 147) (by decide)]; norm_num [signedMag]
  · rw [f32Rat_of_value _ true 0 (by decide)]; norm_num [signedMag]
theorem witness_EncOfNegativeAndNaN : isNaN32 0xFF800000 = false ∧ (0xFF800000#32 : F32).msb = true
    ∧ isZero32 0xFF800000 = false ∧ isZero32 0x80000001 = false ∧ isNaN32 0x7F800001 = true := by decide
theorem witness_EncodeIsMonotone : f32ge 0x80000000 0x00000000 = true ∧ f32le 0x80000000 0x7F800000 = true
    ∧ f32ge 0x7F800000 0 = true ∧ f32le 0x7F800000 0x7F800000 = true := by decide

/-- Finite operands on both sides of the rounding limit, zeros of either sign, and a divisor that is not zero. -/
theorem witness_F32ArithmeticRoundsToNearest : isFinite32 0x7F7FFFFF = true ∧ isFinite32 0x00000001 = true
    ∧ isFinite32 (f32add 0 0x7F7FFFFF 0x00000001) = true ∧ f32add 0 0x7F7FFFFF 0x7F7FFFFF = signedInf32 false
    ∧ f32mul 0 0xFF7FFFFF 0x7F7FFFFF = signedInf32 true ∧ isZero32 0x7F7FFFFF = false ∧ isZero32 0x80000000 = true
    ∧ f32sub 0 0x7F7FFFFF 0x7F7FFFFF = signedZero32 false ∧ f32add 0 0x80000000 0x80000000 = signedZero32 true
    ∧ f32mul 0 0x80000000 0x3F800000 = signedZero32 true ∧ f32div 0 0x80000000 0x3F800000 = signedZero32 true
    ∧ f32div 0 0x3F800000 0x80000000 = signedInf32 true ∧ isZero32 0x00000001 = false
    ∧ f32add 0 0x7F800000 0x3F800000 = signedInf32 false ∧ f32div 0 0xBF800000 0x7F800000 = signedZero32 true := by
  decide +kernel

theorem f64Rat_least : f64Rat 0x0000000000000001 ≠ 0 := by
  have h : value64 0x0000000000000001 = .finite false 1 := by decide +kernel
  rw [f64Rat, h]
  show ((signedMag false 1 : ℤ) : ℚ) / 2 ^ 1074 ≠ 0
  rw [show signedMag false 1 = 1 from rfl, Int.cast_one]
  exact div_ne_zero one_ne_zero (pow_ne_zero _ two_ne_zero)

theorem f64Rat_zero (neg : Bool) : f64Rat (signedZero64 neg) = 0 := by
  have h : value64 (signedZero64 neg) = .finite neg 0 := by revert neg; decide
  rw [f64Rat, h]
  cases neg <;> simp [signedMag]

theorem witness_F64ArithmeticRoundsToNearest : isFinite64 0x7FEFFFFFFFFFFFFF = true
    ∧ isFinite64 0x0000000000000001 = true ∧ isFinite64 0x8000000000000000 = true
    ∧ isFinite64 (f64add 0 0x7FEFFFFFFFFFFFFF 0x0000000000000001) = true
    ∧ f64add 0 0x7FEFFFFFFFFFFFFF 0x7FEFFFFFFFFFFFFF = signedInf64 false
    ∧ f64Rat 0x0000000000000001 ≠ 0 ∧ f64Rat (signedZero64 true) = 0 :=
  ⟨by decide, by decide, by decide, by decide +kernel, by decide +kernel, f64Rat_least, f64Rat_zero _⟩
theorem witness_F64To32RoundsToNearest : isFinite64 0x7FEFFFFFFFFFFFFF = true ∧ isFinite64 0x8000000000000000 = true
    ∧ f64Rat (signedZero64 true) = 0 ∧ f64to32 0 0x7FEFFFFFFFFFFFFF = signedInf32 false
    ∧ f64to32 0 0x0000000000000001 = 0x00000000 := ⟨by decide, by decide, f64Rat_zero _, by decide +kernel, by decide +kernel⟩
theorem witness_F64SqrtRoundsToNearest : isFinite64 0x0000000000000001 = true
    ∧ (0x0000000000000001#64 : F64).msb = false ∧ isFinite64 0x7FEFFFFFFFFFFFFF = true := by decide
/-- A draw is a NaN in both formats, so the last two clauses have NaN results to speak of. -/
theorem witness_ProducedNaNsAreQuiet : isNaN32 0x7F800001 = true ∧ isNaN64 0x7FF0000000000001 = true
    ∧ (0x8000000000000001#64).msb = true ∧ 0x8000000000000001#64 ≠ signedZero64 true
    ∧ isNaN32 (f32sub 3 0x7F800000 0x7F800000) = true ∧ isNaN64 (f64sqrt 3 0x8000000000000001) = true := by
  refine ⟨by decide, by decide, by decide, by decide, ?_, ?_⟩
  · exact isNaN32_quietNan32 3
  · have h : value64 0x8000000000000001 = .finite true 1 := by decide +kernel
    rw [f64sqrt, h]
    exact isNaN64_quietNan64 3
/-- Finite operands, NaNs, and pairs of numbers in either order, zeros of both signs and infinities among them. -/
theorem witness_ComparisonsAreNumeric : isFinite32 0x00000001 = true ∧ isFinite32 0x80000000 = true
    ∧ isNaN32 0xFFC00000 = true ∧ isNaN32 0x00000000 = false ∧ isNaN32 0x7F800000 = false ∧ isNaN32 0xFF800000 = false
    ∧ f32ge 0x00000000 0x80000000 = true ∧ f32ge 0x80000000 0x00000000 = true ∧ f32ge 0xFF800000 0x7F800000 = false
    ∧ f32ge 0x7F800000 0xFF800000 = true := by decide
theorem witness_BandSquareIsExact : isFinite32 0x00000001 = true ∧ isFinite32 0xFF7FFFFF = true := by decide
theorem witness_StepKeepsInv : Inv full ∧ ∃ t, step (presentWord 0x05003F000000 full) = .next t :=
  ⟨witness_inv_full, _, rfl⟩

/-- So many edges at which the host presents nothing and takes every response. -/
def idleEdges (n : Nat) : List PortIn := List.replicate n ⟨false, false, 0, true⟩

theorem idleEdges_rst (n : Nat) : ∀ j ∈ idleEdges n, j.rst = false := fun _ hj => by rw [List.eq_of_mem_replicate hj]

@[simp] theorem idleEdges_length (n : Nat) : (idleEdges n).length = n := List.length_replicate ..

/-- A block that presents a response, held and delivered, with the edges up to `cmd_ready`. -/
theorem witness_PortHoldsResponse : (⟨run, .responding ackRsp, 0⟩ : PortBlock).rspOut = some ackRsp
    ∧ (⟨false, true, 0, false⟩ : PortIn).rspReady = false ∧ (⟨false, true, 0, true⟩ : PortIn).rspReady = true
    ∧ (∀ j ∈ idleEdges (Config.readyCycles 0), j.rst = false)
    ∧ (idleEdges (Config.readyCycles 0)).length = Config.readyCycles (⟨run, .responding ackRsp, 0⟩ : PortBlock).waits :=
  ⟨by decide, by decide, by decide, idleEdges_rst _, idleEdges_length _⟩
/-- A ready block without and with a command, and the edges up to the response. -/
theorem witness_PortRunsCommand : (⟨run, .ready, 0⟩ : PortBlock).cmdReady = true
    ∧ (⟨false, false, 0x05003F000000, false⟩ : PortIn).cmdValid = false
    ∧ (⟨false, true, 0x05003F000000, false⟩ : PortIn).cmdValid = true
    ∧ (∀ j ∈ idleEdges (Config.execCycles 0), j.rst = false)
    ∧ (idleEdges (Config.execCycles 0)).length = Config.execCycles (⟨run, .ready, 0⟩ : PortBlock).waits :=
  ⟨by decide, by decide, by decide, idleEdges_rst _, idleEdges_length _⟩
theorem witness_PortResetOverrides : (⟨true, true, 0x05003F000000, true⟩ : PortIn).rst = true
    ∧ (∀ j ∈ idleEdges (Config.readyCycles 0 + 1), j.rst = false)
    ∧ (idleEdges (Config.readyCycles 0 + 1)).length = Config.readyCycles (⟨run, .ready, 0⟩ : PortBlock).waits + 1 :=
  ⟨by decide, idleEdges_rst _, idleEdges_length _⟩
theorem witness_BlocksAreIndependent : [run, full][1]? = some full := rfl

end Sys2Proof.Tests
end

section
/-! Exact results before rounding: on finite operands each operation yields the number that the operands' numbers
give, in units, and the delivered pattern is that number rounded (R11). -/

namespace Sys2Proof.Machine

/-! ### Signs -/

theorem signed_not (n : Bool) (x : ℚ) : signed (!n) x = -signed n x := by cases n <;> simp [signed]

theorem signed_mul_signed (n m : Bool) (x y : ℚ) : signed n x * signed m y = signed (n != m) (x * y) := by
  cases n <;> cases m <;> simp [signed]

theorem signed_div_signed (n m : Bool) (x y : ℚ) : signed n x / signed m y = signed (n != m) (x / y) := by
  cases n <;> cases m <;> simp [signed, neg_div, div_neg]

theorem signed_mul_right (n : Bool) (x c : ℚ) : signed n (x * c) = signed n x * c := by cases n <;> simp [signed]

theorem signed_div_right (n : Bool) (x c : ℚ) : signed n (x / c) = signed n x / c := by
  rw [div_eq_mul_inv, signed_mul_right, ← div_eq_mul_inv]

@[simp] theorem signed_eq_zero_iff (n : Bool) (x : ℚ) : signed n x = 0 ↔ x = 0 := by cases n <;> simp [signed]

/-! ### The exact results as numbers -/

/-- The exact result is the number `v`, in units of the destination format. -/
def ExactResult.IsNumber (r : ExactResult) (v : ℚ) : Prop :=
  ∃ neg num den, r = .ratio neg num den ∧ 0 < den ∧ signed neg ((num : ℚ) / (den : ℚ)) = v

theorem ExactResult.IsNumber.rounds32 {r : ExactResult} {v : ℚ} (h : r.IsNumber v) (k : Nat) :
    RoundsTo32 (deliver32 k r) (v / 2 ^ 149) := by
  obtain ⟨neg, num, den, rfl, hd, rfl⟩ := h
  exact deliver32_rounds k neg num den hd

theorem ExactResult.IsNumber.rounds64 {r : ExactResult} {v : ℚ} (h : r.IsNumber v) (k : Nat) :
    RoundsTo64 (deliver64 k r) (v / 2 ^ 1074) := by
  obtain ⟨neg, num, den, rfl, hd, rfl⟩ := h
  exact deliver64_rounds k neg num den hd

/-- The sum, by the four branches of `exactAdd`: equal signs, opposite numbers, and the sign of the larger term. -/
theorem exactAdd_isNumber (n m : Bool) (a b : Nat) :
    (exactAdd (.finite n a) (.finite m b)).IsNumber (signed n a + signed m b) := by
  by_cases hs : n = m
  · subst hs
    exact ⟨n, a + b, 1, by simp [exactAdd], one_pos, by cases n <;> simp [signed, add_comm]⟩
  · obtain rfl : m = !n := Bool.eq_not.mpr (Ne.symm hs)
    rw [signed_not]
    rcases lt_trichotomy a b with hlt | heq | hgt
    · refine ⟨!n, b - a, 1, by simp [exactAdd, hlt.ne, hlt.le], one_pos, ?_⟩
      rw [Nat.cast_sub hlt.le]
      cases n <;> simp [signed, sub_eq_add_neg, add_comm]
    · exact ⟨false, 0, 1, by simp [exactAdd, heq], one_pos, by simp [heq]⟩
    · refine ⟨n, a - b, 1, by simp [exactAdd, hgt.ne', hgt], one_pos, ?_⟩
      rw [Nat.cast_sub hgt.le]
      cases n <;> simp [signed, sub_eq_add_neg, add_comm]

/-- A sum of exactly 0 is negative only if both terms are. -/
theorem exactAdd_of_sum_zero (n m : Bool) (a b : Nat) (h : signed n a + signed m b = 0) :
    exactAdd (.finite n a) (.finite m b) = .ratio (n && m) 0 1 := by
  by_cases hs : n = m
  · subst hs
    have hab : (a : ℚ) + b = 0 := by cases n <;> simp only [signed] at h <;> norm_num at h <;> linarith
    have hab : a + b = 0 := by exact_mod_cast hab
    simp [exactAdd, hab]
  · obtain rfl : m = !n := Bool.eq_not.mpr (Ne.symm hs)
    have hab : (a : ℚ) = b := by cases n <;> simp only [signed] at h <;> norm_num at h <;> linarith
    have hab : a = b := by exact_mod_cast hab
    simp [exactAdd, hab]

theorem exactMul_isNumber (F : FloatFormat) (n m : Bool) (a b : Nat) :
    (exactMul F (.finite n a) (.finite m b)).IsNumber (signed n a * signed m b / 2 ^ F.unitExp) :=
  ⟨n != m, a * b, 2 ^ F.unitExp, rfl, Nat.two_pow_pos _, by
    rw [signed_mul_signed, signed_div_right, Nat.cast_mul, Nat.cast_pow, Nat.cast_ofNat]⟩

theorem exactDiv_isNumber (F : FloatFormat) (n m : Bool) (a b : Nat) (hb : b ≠ 0) :
    (exactDiv F (.finite n a) (.finite m b)).IsNumber (signed n a / signed m b * 2 ^ F.unitExp) :=
  ⟨n != m, a * 2 ^ F.unitExp, b, by simp [exactDiv, hb], Nat.pos_of_ne_zero hb, by
    rw [signed_div_signed, ← signed_mul_right, Nat.cast_mul, Nat.cast_pow, Nat.cast_ofNat, div_mul_eq_mul_div]⟩

/-! ### Delivered zeros and infinities -/

@[simp] theorem FloatFormat.roundRatio_zero (F : FloatFormat) (den : Nat) : F.roundRatio 0 den = 0 := by
  simp [FloatFormat.roundRatio, roundsUp]

@[simp] theorem deliver32_zero (k : Nat) (neg : Bool) (den : Nat) :
    deliver32 k (.ratio neg 0 den) = signedZero32 neg := by
  cases neg <;> simp [deliver32, FloatFormat.deliver, FloatFormat.withSign, signedZero32]

@[simp] theorem deliver64_zero (k : Nat) (neg : Bool) (den : Nat) :
    deliver64 k (.ratio neg 0 den) = signedZero64 neg := by
  cases neg <;> simp [deliver64, FloatFormat.deliver, FloatFormat.withSign, signedZero64]

@[simp] theorem deliver32_signedInf (k : Nat) (neg : Bool) : deliver32 k (.inf neg) = signedInf32 neg :=
  deliver32_inf k neg

@[simp] theorem deliver64_signedInf (k : Nat) (neg : Bool) : deliver64 k (.inf neg) = signedInf64 neg :=
  deliver64_inf k neg

/-! ### Finite patterns -/

/-- What a proof about a finite pattern needs: its units, the number they make, and when they are none. -/
theorem exists_units32 (a : F32) (h : isFinite32 a = true) : ∃ m : Nat,
    value32 a = .finite a.msb m ∧ f32Rat a = signed a.msb m / 2 ^ 149 ∧ (isZero32 a = true ↔ m = 0) :=
  ⟨_, value32_finite a h, f32Rat_finite a h, (mag32_eq_zero_iff a).symm⟩

theorem exists_units64 (a : F64) (h : isFinite64 a = true) : ∃ m : Nat,
    value64 a = .finite a.msb m ∧ f64Rat a = signed a.msb m / 2 ^ 1074 ∧ (f64Rat a = 0 ↔ m = 0) := by
  refine ⟨_, value64_finite a h, f64Rat_finite a h, ?_⟩
  rw [f64Rat_finite a h, div_eq_zero_iff, or_iff_left (pow_ne_zero _ two_ne_zero), signed_eq_zero_iff, Nat.cast_eq_zero]

/-! ### Units and numbers: the scale cancels -/

theorem product_of_units (x y u : ℚ) : x * y / u / u = x / u * (y / u) := by ring

theorem quotient_of_units (x y : ℚ) {u : ℚ} (hu : u ≠ 0) : x / y * u / u = x / u / (y / u) := by
  rw [mul_div_cancel_right₀ _ hu, div_div_div_cancel_right₀ hu]

theorem sum_eq_zero_of_units {x y u : ℚ} (hu : u ≠ 0) (h : x / u + y / u = 0) : x + y = 0 := by
  rwa [← add_div, div_eq_zero_iff, or_iff_left hu] at h

theorem product_eq_zero_of_units {n m : Bool} {a b : Nat} {u : ℚ} (hu : u ≠ 0)
    (h : signed n a / u * (signed m b / u) = 0) : a * b = 0 := by
  simpa [hu] using h

end Sys2Proof.Machine
end

section
/-! The binary32 operations round to nearest, ties to even (R11). -/

namespace Sys2Proof.Machine

section Finite
variable (k : Nat) {a b : F32} (ha : isFinite32 a = true) (hb : isFinite32 b = true)
include ha hb

theorem f32add_rounds : RoundsTo32 (f32add k a b) (f32Rat a + f32Rat b) := by
  obtain ⟨m, va, ra, -⟩ := exists_units32 a ha
  obtain ⟨l, vb, rb, -⟩ := exists_units32 b hb
  rw [f32add, va, vb, ra, rb, ← add_div]
  exact (exactAdd_isNumber ..).rounds32 k

theorem f32sub_rounds : RoundsTo32 (f32sub k a b) (f32Rat a - f32Rat b) := by
  obtain ⟨m, va, ra, -⟩ := exists_units32 a ha
  obtain ⟨l, vb, rb, -⟩ := exists_units32 b hb
  rw [f32sub, va, vb, ra, rb, ← sub_div, sub_eq_add_neg, ← signed_not]
  exact (exactAdd_isNumber ..).rounds32 k

theorem f32mul_rounds : RoundsTo32 (f32mul k a b) (f32Rat a * f32Rat b) := by
  obtain ⟨m, va, ra, -⟩ := exists_units32 a ha
  obtain ⟨l, vb, rb, -⟩ := exists_units32 b hb
  rw [f32mul, va, vb, ra, rb, ← product_of_units]
  exact (exactMul_isNumber ..).rounds32 k

theorem f32div_rounds (h0 : isZero32 b = false) : RoundsTo32 (f32div k a b) (f32Rat a / f32Rat b) := by
  obtain ⟨m, va, ra, -⟩ := exists_units32 a ha
  obtain ⟨l, vb, rb, zb⟩ := exists_units32 b hb
  have hl : l ≠ 0 := mt zb.mpr (by simp [h0])
  rw [f32div, va, vb, ra, rb, ← quotient_of_units _ _ (pow_ne_zero 149 two_ne_zero)]
  exact (exactDiv_isNumber _ _ _ _ _ hl).rounds32 k

theorem f32add_of_sum_zero (h : f32Rat a + f32Rat b = 0) : f32add k a b = signedZero32 (a.msb && b.msb) := by
  obtain ⟨m, va, ra, -⟩ := exists_units32 a ha
  obtain ⟨l, vb, rb, -⟩ := exists_units32 b hb
  rw [ra, rb] at h
  rw [f32add, va, vb, exactAdd_of_sum_zero _ _ _ _ (sum_eq_zero_of_units (pow_ne_zero _ two_ne_zero) h), deliver32_zero]

theorem f32sub_of_difference_zero (h : f32Rat a - f32Rat b = 0) :
    f32sub k a b = signedZero32 (a.msb && !b.msb) := by
  obtain ⟨m, va, ra, -⟩ := exists_units32 a ha
  obtain ⟨l, vb, rb, -⟩ := exists_units32 b hb
  rw [ra, rb, sub_eq_add_neg, ← neg_div, ← signed_not] at h
  rw [f32sub, va, vb, FpValue.negate,
    exactAdd_of_sum_zero _ _ _ _ (sum_eq_zero_of_units (pow_ne_zero _ two_ne_zero) h), deliver32_zero]

theorem f32mul_of_product_zero (h : f32Rat a * f32Rat b = 0) : f32mul k a b = signedZero32 (a.msb != b.msb) := by
  obtain ⟨m, va, ra, -⟩ := exists_units32 a ha
  obtain ⟨l, vb, rb, -⟩ := exists_units32 b hb
  rw [ra, rb] at h
  rw [f32mul, va, vb, exactMul, product_eq_zero_of_units (pow_ne_zero _ two_ne_zero) h, deliver32_zero]

theorem f32div_zero_by (h0 : isZero32 a = true) (h1 : isZero32 b = false) :
    f32div k a b = signedZero32 (a.msb != b.msb) := by
  obtain ⟨m, va, -, za⟩ := exists_units32 a ha
  obtain ⟨l, vb, -, zb⟩ := exists_units32 b hb
  have hl : l ≠ 0 := mt zb.mpr (by simp [h1])
  simp [f32div, va, vb, exactDiv, za.mp h0, hl]

theorem f32div_by_zero (h0 : isZero32 a = false) (h1 : isZero32 b = true) :
    f32div k a b = signedInf32 (a.msb != b.msb) := by
  obtain ⟨m, va, -, za⟩ := exists_units32 a ha
  obtain ⟨l, vb, -, zb⟩ := exists_units32 b hb
  have hm : m ≠ 0 := mt za.mpr (by simp [h0])
  simp [f32div, va, vb, exactDiv, zb.mp h1, hm]

end Finite

/-- An infinity and a finite operand. -/
theorem f32_inf_finite (k : Nat) (n : Bool) (a : F32) (ha : isFinite32 a = true) :
    f32add k (signedInf32 n) a = signedInf32 n ∧ f32add k a (signedInf32 n) = signedInf32 n
      ∧ f32sub k (signedInf32 n) a = signedInf32 n ∧ f32sub k a (signedInf32 n) = signedInf32 (!n)
      ∧ (isZero32 a = false → f32mul k (signedInf32 n) a = signedInf32 (n != a.msb)
          ∧ f32mul k a (signedInf32 n) = signedInf32 (a.msb != n))
      ∧ f32div k (signedInf32 n) a = signedInf32 (n != a.msb)
      ∧ f32div k a (signedInf32 n) = signedZero32 (a.msb != n) := by
  obtain ⟨m, va, -, za⟩ := exists_units32 a ha
  refine ⟨?_, ?_, ?_, ?_, fun h0 => ?product, ?_, ?_⟩
  case product =>
    have hm : m ≠ 0 := mt za.mpr (by simp [h0])
    simp [f32mul, va, exactMul, hm]
  all_goals simp [f32add, f32sub, f32div, va, FpValue.negate, exactAdd, exactDiv]

/-- Two infinities, where the operation is valid. -/
theorem f32_inf_inf (k : Nat) (n m : Bool) :
    f32add k (signedInf32 n) (signedInf32 n) = signedInf32 n
      ∧ f32sub k (signedInf32 n) (signedInf32 (!n)) = signedInf32 n
      ∧ f32mul k (signedInf32 n) (signedInf32 m) = signedInf32 (n != m) := by
  simp [f32add, f32sub, f32mul, FpValue.negate, exactAdd, exactMul]

/-- Settles O47: the exact result is a ratio of units, and `deliver32` rounds a ratio. -/
theorem f32ArithmeticRoundsToNearest : Obligations.F32ArithmeticRoundsToNearest :=
  ⟨fun k _ _ ha hb =>
    ⟨f32add_rounds k ha hb, f32sub_rounds k ha hb, f32mul_rounds k ha hb, f32div_rounds k ha hb,
      f32add_of_sum_zero k ha hb, f32sub_of_difference_zero k ha hb, f32mul_of_product_zero k ha hb,
      f32div_zero_by k ha hb, f32div_by_zero k ha hb⟩,
    f32_inf_finite, f32_inf_inf⟩

end Sys2Proof.Machine
end

section
/-! The binary64 operations and the conversions between the formats round to nearest, ties to even (R11). -/

namespace Sys2Proof.Machine

section Finite
variable (k : Nat) {a b : F64} (ha : isFinite64 a = true) (hb : isFinite64 b = true)
include ha hb

theorem f64add_rounds : RoundsTo64 (f64add k a b) (f64Rat a + f64Rat b) := by
  obtain ⟨m, va, ra, -⟩ := exists_units64 a ha
  obtain ⟨l, vb, rb, -⟩ := exists_units64 b hb
  rw [f64add, va, vb, ra, rb, ← add_div]
  exact (exactAdd_isNumber ..).rounds64 k

theorem f64mul_rounds : RoundsTo64 (f64mul k a b) (f64Rat a * f64Rat b) := by
  obtain ⟨m, va, ra, -⟩ := exists_units64 a ha
  obtain ⟨l, vb, rb, -⟩ := exists_units64 b hb
  rw [f64mul, va, vb, ra, rb, ← product_of_units]
  exact (exactMul_isNumber ..).rounds64 k

theorem f64div_rounds (h0 : f64Rat b ≠ 0) : RoundsTo64 (f64div k a b) (f64Rat a / f64Rat b) := by
  obtain ⟨m, va, ra, -⟩ := exists_units64 a ha
  obtain ⟨l, vb, rb, zb⟩ := exists_units64 b hb
  rw [f64div, va, vb, ra, rb, ← quotient_of_units _ _ (pow_ne_zero 1074 two_ne_zero)]
  exact (exactDiv_isNumber _ _ _ _ _ (mt zb.mpr h0)).rounds64 k

theorem f64add_of_sum_zero (h : f64Rat a + f64Rat b = 0) : f64add k a b = signedZero64 (a.msb && b.msb) := by
  obtain ⟨m, va, ra, -⟩ := exists_units64 a ha
  obtain ⟨l, vb, rb, -⟩ := exists_units64 b hb
  rw [ra, rb] at h
  rw [f64add, va, vb, exactAdd_of_sum_zero _ _ _ _ (sum_eq_zero_of_units (pow_ne_zero _ two_ne_zero) h), deliver64_zero]

theorem f64mul_of_product_zero (h : f64Rat a * f64Rat b = 0) : f64mul k a b = signedZero64 (a.msb != b.msb) := by
  obtain ⟨m, va, ra, -⟩ := exists_units64 a ha
  obtain ⟨l, vb, rb, -⟩ := exists_units64 b hb
  rw [ra, rb] at h
  rw [f64mul, va, vb, exactMul, product_eq_zero_of_units (pow_ne_zero _ two_ne_zero) h, deliver64_zero]

theorem f64div_zero_by (h0 : f64Rat a = 0) (h1 : f64Rat b ≠ 0) :
    f64div k a b = signedZero64 (a.msb != b.msb) := by
  obtain ⟨m, va, -, za⟩ := exists_units64 a ha
  obtain ⟨l, vb, -, zb⟩ := exists_units64 b hb
  rw [f64div, va, vb, za.mp h0, exactDiv, if_neg (mt zb.mpr h1), Nat.zero_mul, deliver64_zero]

theorem f64div_by_zero (h0 : f64Rat a ≠ 0) (h1 : f64Rat b = 0) :
    f64div k a b = signedInf64 (a.msb != b.msb) := by
  obtain ⟨m, va, -, za⟩ := exists_units64 a ha
  obtain ⟨l, vb, -, zb⟩ := exists_units64 b hb
  simp [f64div, va, vb, exactDiv, zb.mp h1, mt za.mpr h0]

end Finite

/-- An infinity and a finite operand. -/
theorem f64_inf_finite (k : Nat) (n : Bool) (a : F64) (ha : isFinite64 a = true) :
    f64add k (signedInf64 n) a = signedInf64 n ∧ f64add k a (signedInf64 n) = signedInf64 n
      ∧ (f64Rat a ≠ 0 → f64mul k (signedInf64 n) a = signedInf64 (n != a.msb)
          ∧ f64mul k a (signedInf64 n) = signedInf64 (a.msb != n))
      ∧ f64div k (signedInf64 n) a = signedInf64 (n != a.msb)
      ∧ f64div k a (signedInf64 n) = signedZero64 (a.msb != n) := by
  obtain ⟨m, va, -, za⟩ := exists_units64 a ha
  refine ⟨?_, ?_, fun h0 => ?product, ?_, ?_⟩
  case product => simp [f64mul, va, exactMul, mt za.mpr h0]
  all_goals simp [f64add, f64div, va, exactAdd, exactDiv]

/-- Two infinities, where the operation is valid. -/
theorem f64_inf_inf (k : Nat) (n m : Bool) :
    f64add k (signedInf64 n) (signedInf64 n) = signedInf64 n
      ∧ f64mul k (signedInf64 n) (signedInf64 m) = signedInf64 (n != m) := by
  simp [f64add, f64mul, exactAdd, exactMul]

/-- Settles O48, as O47 by `deliver64`. -/
theorem f64ArithmeticRoundsToNearest : Obligations.F64ArithmeticRoundsToNearest :=
  ⟨fun k _ _ ha hb =>
    ⟨f64add_rounds k ha hb, f64mul_rounds k ha hb, f64div_rounds k ha hb, f64add_of_sum_zero k ha hb,
      f64mul_of_product_zero k ha hb, f64div_zero_by k ha hb, f64div_by_zero k ha hb⟩,
    f64_inf_finite, f64_inf_inf⟩

/-- The units of binary64 become binary32 units by a division by `2^925`. -/
theorem f64to32_rounds (k : Nat) {a : F64} (ha : isFinite64 a = true) : RoundsTo32 (f64to32 k a) (f64Rat a) := by
  obtain ⟨m, va, ra, -⟩ := exists_units64 a ha
  have h := deliver32_rounds k a.msb m (2 ^ (binary64.unitExp - binary32.unitExp)) (Nat.two_pow_pos _)
  have hexp : binary64.unitExp - binary32.unitExp + 149 = 1074 := rfl
  rw [signed_div_right, Nat.cast_pow, Nat.cast_ofNat, div_div, ← pow_add, hexp, ← ra] at h
  rwa [f64to32, va]

theorem f64to32_of_zero (k : Nat) {a : F64} (ha : isFinite64 a = true) (h0 : f64Rat a = 0) :
    f64to32 k a = signedZero32 a.msb := by
  obtain ⟨m, va, -, za⟩ := exists_units64 a ha
  rw [f64to32, va, za.mp h0]
  exact deliver32_zero ..

/-- Settles O50: the conversion delivers the operand's units as a ratio, which `deliver32` rounds. -/
theorem f64To32RoundsToNearest : Obligations.F64To32RoundsToNearest :=
  ⟨fun k _ ha => ⟨f64to32_rounds k ha, f64to32_of_zero k ha⟩,
    fun k neg => by simp [f64to32, f32to64]⟩

end Sys2Proof.Machine
end

section
/-! Produced NaNs (R12): a NaN operand or an invalid operation makes the exact result a NaN, which is delivered as the
draw's quiet NaN, and nothing else is delivered as a NaN. -/

namespace Sys2Proof.Machine

/-! ### Exact results that are no number -/

@[simp] theorem exactAdd_nan_right (x : FpValue) : exactAdd x .nan = .nan := by cases x <;> rfl

@[simp] theorem exactMul_nan_right (F : FloatFormat) (x : FpValue) : exactMul F x .nan = .nan := by cases x <;> rfl

@[simp] theorem exactDiv_nan_right (F : FloatFormat) (x : FpValue) : exactDiv F x .nan = .nan := by cases x <;> rfl

theorem exactAdd_of_nan {x y : FpValue} (h : x = .nan ∨ y = .nan) : exactAdd x y = .nan := by
  rcases h with rfl | rfl
  · rfl
  · exact exactAdd_nan_right x

theorem exactMul_of_nan (F : FloatFormat) {x y : FpValue} (h : x = .nan ∨ y = .nan) : exactMul F x y = .nan := by
  rcases h with rfl | rfl
  · rfl
  · exact exactMul_nan_right F x

theorem exactDiv_of_nan (F : FloatFormat) {x y : FpValue} (h : x = .nan ∨ y = .nan) : exactDiv F x y = .nan := by
  rcases h with rfl | rfl
  · rfl
  · exact exactDiv_nan_right F x

@[simp] theorem FpValue.negate_eq_nan_iff (x : FpValue) : x.negate = .nan ↔ x = .nan := by
  cases x <;> simp [FpValue.negate]

@[simp] theorem value32_signedZero32 (neg : Bool) : value32 (signedZero32 neg) = .finite neg 0 := by
  revert neg; decide

@[simp] theorem value64_signedZero64 (neg : Bool) : value64 (signedZero64 neg) = .finite neg 0 := by
  revert neg; decide

/-! ### Delivered NaNs -/

theorem value64_eq_nan_iff (a : F64) : value64 a = .nan ↔ isNaN64 a = true := by
  refine ⟨fun h => ?_, value64_nan a⟩
  by_contra hn
  cases hf : isFinite64 a
  · rw [value64_inf a hf (by simpa using hn)] at h; cases h
  · rw [value64_finite a hf] at h; cases h

/-- Only the exact result that is a NaN is delivered as one. -/
theorem isNaN32_deliver32_iff (k : Nat) (r : ExactResult) : isNaN32 (deliver32 k r) = true ↔ r = .nan := by
  cases r with
  | nan => simp [deliver32, isNaN32_quietNan32]
  | inf neg => simp [← value32_eq_nan_iff]
  | ratio neg num den => simp [isNaN32_deliver32_ratio]

theorem isNaN64_deliver64_iff (k : Nat) (r : ExactResult) : isNaN64 (deliver64 k r) = true ↔ r = .nan := by
  cases r with
  | nan => simp [deliver64, isNaN64_quietNan64]
  | inf neg => simp [← value64_eq_nan_iff]
  | ratio neg num den =>
    have := binary64.roundRatio_le_infBits num den
    simp only [binary64_infBits] at this
    simp [isNaN64_iff, deliver64_ratio_rest, this]

/-- Exponent all ones and top fraction bit 1. -/
theorem quietNan32_quiet (k : Nat) : quietNan32 k &&& 0x7FC00000#32 = 0x7FC00000#32 := by
  ext i hi; simp [quietNan32]; tauto

theorem quietNan64_quiet (k : Nat) : quietNan64 k &&& 0x7FF8000000000000#64 = 0x7FF8000000000000#64 := by
  ext i hi; simp [quietNan64]; tauto

theorem deliver32_eq_quietNan32 {k : Nat} {r : ExactResult} (h : isNaN32 (deliver32 k r) = true) :
    deliver32 k r = quietNan32 k := by
  rw [(isNaN32_deliver32_iff k r).mp h]; rfl

theorem deliver64_eq_quietNan64 {k : Nat} {r : ExactResult} (h : isNaN64 (deliver64 k r) = true) :
    deliver64 k r = quietNan64 k := by
  rw [(isNaN64_deliver64_iff k r).mp h]; rfl

/-! ### The operations of one operand: a NaN result is the draw's -/

theorem f32floor_eq_quietNan32 {k : Nat} {a : F32} (h : isNaN32 (f32floor k a) = true) :
    f32floor k a = quietNan32 k := by
  unfold f32floor at h ⊢
  split at h
  next => rfl
  next neg hv => simp [← value32_eq_nan_iff, hv] at h
  next => exact deliver32_eq_quietNan32 h

theorem f64to32_eq_quietNan32 {k : Nat} {a : F64} (h : isNaN32 (f64to32 k a) = true) :
    f64to32 k a = quietNan32 k := by
  unfold f64to32 at h ⊢
  split at h
  next => rfl
  next => exact deliver32_eq_quietNan32 h
  next => exact deliver32_eq_quietNan32 h

theorem f32to64_eq_quietNan64 {k : Nat} {a : F32} (h : isNaN64 (f32to64 k a) = true) :
    f32to64 k a = quietNan64 k := by
  unfold f32to64 at h ⊢
  split at h
  next => rfl
  next => exact deliver64_eq_quietNan64 h
  next => exact deliver64_eq_quietNan64 h

/-- The pattern of a rounded root is at most that of the infinity, so it is no NaN. -/
theorem isNaN64_roundSqrt (v : Nat) : isNaN64 (BitVec.ofNat 64 (binary64.roundSqrt v)) = false := by
  have hle : binary64.roundSqrt v ≤ binary64.infBits := Nat.min_le_right _ _
  rw [binary64_infBits] at hle
  rw [← Bool.not_eq_true, isNaN64_iff, BitVec.toNat_ofNat]
  omega

theorem f64sqrt_eq_quietNan64 {k : Nat} {a : F64} (h : isNaN64 (f64sqrt k a) = true) :
    f64sqrt k a = quietNan64 k := by
  unfold f64sqrt at h ⊢
  split at h
  next => rfl
  next neg hv =>
    cases neg
    · simp [← value64_eq_nan_iff, hv] at h
    · rfl
  next neg mag hv =>
    split_ifs at h ⊢
    · rw [← value64_eq_nan_iff, hv] at h; cases h
    · rfl
    · rw [isNaN64_roundSqrt] at h; cases h

/-- The one pattern of sign 1 with a root that is a number is `-0.0`. -/
theorem isNaN64_f64sqrt_of_negative (k : Nat) (a : F64) (hm : a.msb = true) (h0 : a ≠ signedZero64 true) :
    isNaN64 (f64sqrt k a) = true := by
  have hq := isNaN64_quietNan64 k
  cases hn : isNaN64 a
  · cases hf : isFinite64 a
    · simpa [f64sqrt, value64_inf a hf hn, hm] using hq
    · have hmag : binary64.mag (a.toNat % 0x8000000000000000) ≠ 0 := by
        rw [show 0 = binary64.mag 0 from rfl, binary64.mag_strictMono.injective.ne_iff]
        intro hz
        refine h0 (BitVec.eq_of_toNat_eq ?_)
        rw [toNat_withSign64 a, hz, hm]; rfl
      simpa [f64sqrt, value64_finite a hf, hm, hmag] using hq
  · simpa [f64sqrt, value64_nan a hn] using hq

/-! ### The statement, clause by clause -/

theorem f32_nan_operand (k : Nat) (a b : F32) (h : isNaN32 a = true ∨ isNaN32 b = true) :
    isNaN32 (f32add k a b) = true ∧ isNaN32 (f32sub k a b) = true ∧ isNaN32 (f32mul k a b) = true
      ∧ isNaN32 (f32div k a b) = true := by
  rw [← value32_eq_nan_iff, ← value32_eq_nan_iff] at h
  have hneg : value32 a = .nan ∨ (value32 b).negate = .nan := by rwa [FpValue.negate_eq_nan_iff]
  simp only [f32add, f32sub, f32mul, f32div, isNaN32_deliver32_iff]
  exact ⟨exactAdd_of_nan h, exactAdd_of_nan hneg, exactMul_of_nan _ h, exactDiv_of_nan _ h⟩

theorem f64_nan_operand (k : Nat) (a b : F64) (h : isNaN64 a = true ∨ isNaN64 b = true) :
    isNaN64 (f64add k a b) = true ∧ isNaN64 (f64mul k a b) = true ∧ isNaN64 (f64div k a b) = true := by
  rw [← value64_eq_nan_iff, ← value64_eq_nan_iff] at h
  simp only [f64add, f64mul, f64div, isNaN64_deliver64_iff]
  exact ⟨exactAdd_of_nan h, exactMul_of_nan _ h, exactDiv_of_nan _ h⟩

theorem f32_nan_unary (k : Nat) (a : F32) (h : isNaN32 a = true) :
    isNaN32 (f32floor k a) = true ∧ isNaN64 (f32to64 k a) = true := by
  rw [f32floor, f32to64, value32_nan a h]
  exact ⟨isNaN32_quietNan32 k, isNaN64_quietNan64 k⟩

theorem f64_nan_unary (k : Nat) (a : F64) (h : isNaN64 a = true) :
    isNaN64 (f64sqrt k a) = true ∧ isNaN32 (f64to32 k a) = true := by
  rw [f64sqrt, f64to32, value64_nan a h]
  exact ⟨isNaN64_quietNan64 k, isNaN32_quietNan32 k⟩

theorem f32_invalid (k : Nat) (n m : Bool) :
    isNaN32 (f32add k (signedInf32 n) (signedInf32 (!n))) = true
      ∧ isNaN32 (f32sub k (signedInf32 n) (signedInf32 n)) = true
      ∧ isNaN32 (f32mul k (signedZero32 n) (signedInf32 m)) = true
      ∧ isNaN32 (f32mul k (signedInf32 n) (signedZero32 m)) = true
      ∧ isNaN32 (f32div k (signedZero32 n) (signedZero32 m)) = true
      ∧ isNaN32 (f32div k (signedInf32 n) (signedInf32 m)) = true := by
  simp [f32add, f32sub, f32mul, f32div, isNaN32_deliver32_iff, FpValue.negate, exactAdd, exactMul, exactDiv]

theorem f64_invalid (k : Nat) (n m : Bool) :
    isNaN64 (f64add k (signedInf64 n) (signedInf64 (!n))) = true
      ∧ isNaN64 (f64mul k (signedZero64 n) (signedInf64 m)) = true
      ∧ isNaN64 (f64mul k (signedInf64 n) (signedZero64 m)) = true
      ∧ isNaN64 (f64div k (signedZero64 n) (signedZero64 m)) = true
      ∧ isNaN64 (f64div k (signedInf64 n) (signedInf64 m)) = true := by
  simp [f64add, f64mul, f64div, isNaN64_deliver64_iff, exactAdd, exactMul, exactDiv]

theorem f32_results_quiet (k : Nat) (a b r : F32) (c : F64)
    (hr : r = f32add k a b ∨ r = f32sub k a b ∨ r = f32mul k a b ∨ r = f32div k a b ∨ r = f32floor k a
      ∨ r = f64to32 k c) (h : isNaN32 r = true) : r &&& 0x7FC00000#32 = 0x7FC00000#32 := by
  suffices hq : r = quietNan32 k by rw [hq]; exact quietNan32_quiet k
  rcases hr with rfl | rfl | rfl | rfl | rfl | rfl
  case inr.inr.inr.inr.inl => exact f32floor_eq_quietNan32 h
  case inr.inr.inr.inr.inr => exact f64to32_eq_quietNan32 h
  all_goals exact deliver32_eq_quietNan32 h

theorem f64_results_quiet (k : Nat) (a b r : F64) (c : F32)
    (hr : r = f64add k a b ∨ r = f64mul k a b ∨ r = f64div k a b ∨ r = f64sqrt k a ∨ r = f32to64 k c)
    (h : isNaN64 r = true) : r &&& 0x7FF8000000000000#64 = 0x7FF8000000000000#64 := by
  suffices hq : r = quietNan64 k by rw [hq]; exact quietNan64_quiet k
  rcases hr with rfl | rfl | rfl | rfl | rfl
  case inr.inr.inr.inl => exact f64sqrt_eq_quietNan64 h
  case inr.inr.inr.inr => exact f32to64_eq_quietNan64 h
  all_goals exact deliver64_eq_quietNan64 h

/-- Settles O51: a NaN is delivered exactly for an exact result that is one, and it is the draw's quiet NaN. -/
theorem producedNaNsAreQuiet : Obligations.ProducedNaNsAreQuiet :=
  ⟨f32_nan_operand, f64_nan_operand, f32_nan_unary, f64_nan_unary, f32_invalid, f64_invalid,
    isNaN64_f64sqrt_of_negative, f32_results_quiet, f64_results_quiet⟩

end Sys2Proof.Machine
end

section
/-! The comparisons (R11) are those of the numbers, with the infinities at the two ends. -/

namespace Sys2Proof.Machine

/-! ### The order of the values -/

theorem FpValue.isNumber_iff (x : FpValue) : x.isNumber = true ↔ x ≠ .nan := by cases x <;> simp [FpValue.isNumber]

theorem FpValue.le_iff (x y : FpValue) : x.le y = true ↔ x ≠ .nan ∧ y ≠ .nan ∧ y.lt x = false := by
  simp [FpValue.le, FpValue.isNumber_iff, and_assoc]

theorem FpValue.lt_of_nan {x y : FpValue} (h : x = .nan ∨ y = .nan) : x.lt y = false := by
  rcases h with rfl | rfl
  · rfl
  · cases x <;> rfl

theorem FpValue.le_of_nan {x y : FpValue} (h : x = .nan ∨ y = .nan) : x.le y = false := by
  rw [← Bool.not_eq_true, FpValue.le_iff]
  tauto

theorem FpValue.lt_irrefl (x : FpValue) : x.lt x = false := by cases x <;> simp [FpValue.lt]

theorem FpValue.lt_asymm {x y : FpValue} (h : x.lt y = true) : y.lt x = false := by
  cases x <;> cases y <;> simp_all [FpValue.lt, le_of_lt]

theorem FpValue.le_refl {x : FpValue} (hx : x ≠ .nan) : x.le x = true :=
  (FpValue.le_iff x x).mpr ⟨hx, hx, x.lt_irrefl⟩

/-- Numbers are ordered totally. -/
theorem FpValue.le_of_not_le {x y : FpValue} (hx : x ≠ .nan) (hy : y ≠ .nan) (h : x.le y = false) :
    y.le x = true := by
  have hlt : y.lt x = true := by
    by_contra hn
    exact absurd ((FpValue.le_iff x y).mpr ⟨hx, hy, by simpa using hn⟩) (by simp [h])
  exact (FpValue.le_iff y x).mpr ⟨hy, hx, FpValue.lt_asymm hlt⟩

theorem FpValue.lt_finite_iff (n m : Bool) (a b : Nat) :
    (FpValue.finite n a).lt (.finite m b) = true ↔ signed n a < signed m b := by
  rw [← signed_cast, ← signed_cast, Int.cast_lt]
  exact decide_eq_true_iff

theorem FpValue.le_finite_iff (n m : Bool) (a b : Nat) :
    (FpValue.finite n a).le (.finite m b) = true ↔ signed n a ≤ signed m b := by
  rw [FpValue.le_iff, ← Bool.not_eq_true, FpValue.lt_finite_iff, not_lt]
  simp

/-! ### The comparisons of patterns -/

theorem f32lt_iff {a b : F32} (ha : isFinite32 a = true) (hb : isFinite32 b = true) :
    f32lt a b = true ↔ f32Rat a < f32Rat b := by
  obtain ⟨m, va, ra, -⟩ := exists_units32 a ha
  obtain ⟨l, vb, rb, -⟩ := exists_units32 b hb
  rw [f32lt, va, vb, ra, rb, FpValue.lt_finite_iff, div_lt_div_iff_of_pos_right (pow_pos two_pos _)]

theorem f32le_iff {a b : F32} (ha : isFinite32 a = true) (hb : isFinite32 b = true) :
    f32le a b = true ↔ f32Rat a ≤ f32Rat b := by
  obtain ⟨m, va, ra, -⟩ := exists_units32 a ha
  obtain ⟨l, vb, rb, -⟩ := exists_units32 b hb
  rw [f32le, va, vb, ra, rb, FpValue.le_finite_iff, div_le_div_iff_of_pos_right (pow_pos two_pos _)]

theorem compare_of_nan {a b : F32} (h : isNaN32 a = true ∨ isNaN32 b = true) :
    f32lt a b = false ∧ f32le a b = false ∧ f32gt a b = false ∧ f32ge a b = false := by
  rw [← value32_eq_nan_iff, ← value32_eq_nan_iff] at h
  exact ⟨FpValue.lt_of_nan h, FpValue.le_of_nan h, FpValue.lt_of_nan h.symm, FpValue.le_of_nan h.symm⟩

/-- The infinity of sign `n` is above every finite value, or below. -/
theorem compare_finite_inf {a : F32} (ha : isFinite32 a = true) (n : Bool) :
    f32lt a (signedInf32 n) = !n ∧ f32lt (signedInf32 n) a = n
      ∧ f32le a (signedInf32 n) = !n ∧ f32le (signedInf32 n) a = n := by
  obtain ⟨m, va, -⟩ := exists_units32 a ha
  simp [f32lt, f32le, va, FpValue.lt, FpValue.le, FpValue.isNumber]

theorem compare_inf_inf (n m : Bool) : f32lt (signedInf32 n) (signedInf32 m) = (n && !m)
    ∧ f32le (signedInf32 n) (signedInf32 m) = (n || !m) := by
  simp [f32lt, f32le, FpValue.lt, FpValue.le, FpValue.isNumber, Bool.or_comm]

/-! ### `f32abs` -/

theorem f32abs_toNat (a : F32) : (f32abs a).toNat = a.toNat % 0x80000000 := by
  rw [f32abs, BitVec.toNat_and]
  exact Nat.and_two_pow_sub_one_eq_mod _ 31

theorem f32abs_msb (a : F32) : (f32abs a).msb = false := by
  rw [f32abs, BitVec.msb_and, show (0x7FFFFFFF#32).msb = false from rfl, Bool.and_false]

theorem f32abs_rest (a : F32) : (f32abs a).extractLsb' 0 31 = a.extractLsb' 0 31 := by
  apply BitVec.eq_of_toNat_eq
  simp [BitVec.extractLsb'_toNat, f32abs_toNat]

theorem isFinite32_f32abs {a : F32} (ha : isFinite32 a = true) : isFinite32 (f32abs a) = true := by
  rwa [isFinite32_iff, f32abs_toNat, Nat.mod_mod, ← isFinite32_iff]

theorem f32Rat_f32abs {a : F32} (ha : isFinite32 a = true) : f32Rat (f32abs a) = |f32Rat a| := by
  rw [f32Rat_finite _ (isFinite32_f32abs ha), f32Rat_finite a ha, f32abs_msb, f32abs_toNat, Nat.mod_mod, abs_div,
    abs_signed _ (Nat.cast_nonneg _), abs_of_pos (pow_pos two_pos 149)]
  rfl

/-! ### `f32maxnum` -/

theorem f32maxnum_of_numbers {a b : F32} (ha : isNaN32 a = false) (hb : isNaN32 b = false) :
    f32maxnum a b = if f32ge a b then a else b := by
  simp [f32maxnum, ha, hb]

theorem f32maxnum_ge {a b : F32} (ha : isNaN32 a = false) (hb : isNaN32 b = false) :
    f32ge (f32maxnum a b) a = true ∧ f32ge (f32maxnum a b) b = true := by
  have va : value32 a ≠ .nan := by simp [value32_eq_nan_iff, ha]
  have vb : value32 b ≠ .nan := by simp [value32_eq_nan_iff, hb]
  rw [f32maxnum_of_numbers ha hb]
  split
  next h => exact ⟨FpValue.le_refl va, h⟩
  next h => exact ⟨FpValue.le_of_not_le vb va (by simpa [f32ge, f32le] using h), FpValue.le_refl vb⟩

/-- Settles O52, from the total order of the values and the single bit that `f32abs` clears. -/
theorem comparisonsAreNumeric : Obligations.ComparisonsAreNumeric := by
  refine ⟨fun a b ha hb => ⟨f32lt_iff ha hb, f32le_iff ha hb, f32lt_iff hb ha, f32le_iff hb ha⟩,
    fun _ _ => ⟨rfl, rfl⟩, fun _ _ => compare_of_nan, fun a ha => ?_, compare_inf_inf,
    fun a => ⟨f32abs_msb a, f32abs_rest a, fun ha => ⟨isFinite32_f32abs ha, f32Rat_f32abs ha⟩⟩,
    by decide, fun a b hb => by simp [f32maxnum, hb], fun a b ha hb => by simp [f32maxnum, ha, hb],
    fun a b ha hb => ⟨fun h => ?_, fun h => ?_, f32maxnum_ge ha hb⟩⟩
  · obtain ⟨ltTop, topLt, leTop, topLe⟩ := compare_finite_inf ha false
    obtain ⟨ltBot, botLt, leBot, botLe⟩ := compare_finite_inf ha true
    exact ⟨ltTop, botLt, topLt, ltBot, leTop, botLe, topLe, leBot⟩
  · simp [f32maxnum_of_numbers ha hb, h]
  · simp [f32maxnum_of_numbers ha hb, h]

end Sys2Proof.Machine
end

section
/-! The integer conversions (R11, R179) are exact: an integer of at most `fracBits + 1` bits is a value of the format. -/

namespace Sys2Proof.Machine

/-- An integer of at most `fracBits + 1` bits, scaled by the unit, has a pattern: its leading bit moves to the top. -/
theorem FloatFormat.exists_mag_eq (F : FloatFormat) (n u : Nat) (hn : n < 2 ^ (F.fracBits + 1))
    (hu : F.fracBits ≤ u) : ∃ b, F.mag b = n * 2 ^ u ∧ b ≤ u * 2 ^ F.fracBits + 2 ^ (F.fracBits + 1) := by
  rcases Nat.eq_zero_or_pos n with rfl | hpos
  · exact ⟨0, by simp [FloatFormat.mag], Nat.zero_le _⟩
  have hlog : n.log2 ≤ F.fracBits := Nat.le_of_lt_succ ((Nat.log2_lt hpos.ne').mpr hn)
  set e := F.fracBits - n.log2 with he
  have hlow : 2 ^ F.fracBits ≤ n * 2 ^ e := by
    calc 2 ^ F.fracBits = 2 ^ n.log2 * 2 ^ e := by rw [← pow_add]; congr 1; omega
      _ ≤ n * 2 ^ e := Nat.mul_le_mul_right _ (Nat.log2_self_le hpos.ne')
  have hup : n * 2 ^ e < 2 ^ (F.fracBits + 1) := by
    calc n * 2 ^ e < 2 ^ (n.log2 + 1) * 2 ^ e := Nat.mul_lt_mul_of_pos_right Nat.lt_log2_self (Nat.two_pow_pos _)
      _ = 2 ^ (F.fracBits + 1) := by rw [← pow_add]; congr 1; omega
  refine ⟨(u - e) * 2 ^ F.fracBits + n * 2 ^ e, ?_, ?_⟩
  · rw [F.mag_shift _ _ (.inr hlow) hup.le, mul_assoc, ← pow_add]
    congr 2; omega
  · exact Nat.add_le_add (Nat.mul_le_mul_right _ (Nat.sub_le _ _)) hup.le

/-- A pattern below that of the infinity is a finite number of sign 0. -/
theorem ofNat32_finite {b : Nat} (hb : b < binary32.infBits) :
    isFinite32 (BitVec.ofNat 32 b) = true ∧ (BitVec.ofNat 32 b).msb = false
      ∧ f32Rat (BitVec.ofNat 32 b) = binary32.mag b / 2 ^ 149 := by
  rw [binary32_infBits] at hb
  have hrest : (BitVec.ofNat 32 b).toNat % 0x80000000 = b := by rw [BitVec.toNat_ofNat]; omega
  have hfin : isFinite32 (BitVec.ofNat 32 b) = true := by rwa [isFinite32_iff, hrest]
  have hmsb : (BitVec.ofNat 32 b).msb = false := by
    rw [BitVec.msb_eq_decide, BitVec.toNat_ofNat, decide_eq_false_iff_not]; omega
  exact ⟨hfin, hmsb, by rw [f32Rat_finite _ hfin, hmsb, hrest]; rfl⟩

theorem ofNat64_finite {b : Nat} (hb : b < binary64.infBits) :
    isFinite64 (BitVec.ofNat 64 b) = true ∧ (BitVec.ofNat 64 b).msb = false
      ∧ f64Rat (BitVec.ofNat 64 b) = binary64.mag b / 2 ^ 1074 := by
  rw [binary64_infBits] at hb
  have hrest : (BitVec.ofNat 64 b).toNat % 0x8000000000000000 = b := by rw [BitVec.toNat_ofNat]; omega
  have hfin : isFinite64 (BitVec.ofNat 64 b) = true := by rwa [isFinite64_iff, hrest]
  have hmsb : (BitVec.ofNat 64 b).msb = false := by
    rw [BitVec.msb_eq_decide, BitVec.toNat_ofNat, decide_eq_false_iff_not]; omega
  exact ⟨hfin, hmsb, by rw [f64Rat_finite _ hfin, hmsb, hrest]; rfl⟩

/-- An integer below `2^24` converts exactly to binary32. -/
theorem natTof32_exact (n : Nat) (hn : n < 2 ^ 24) :
    isFinite32 (natTof32 n) = true ∧ f32Rat (natTof32 n) = n := by
  obtain ⟨b, hmag, hle⟩ := binary32.exists_mag_eq n 149 hn (by decide)
  have hb : b < binary32.infBits := hle.trans_lt (by decide)
  have hround := binary32.roundRatio_exact b 1 one_pos hb
  rw [one_mul, hmag] at hround
  obtain ⟨hfin, -, hrat⟩ := ofNat32_finite hb
  rw [natTof32, binary32_unitExp, hround, hrat, hmag, Nat.cast_mul, Nat.cast_pow, Nat.cast_ofNat]
  exact ⟨hfin, mul_div_cancel_right₀ _ (pow_ne_zero _ two_ne_zero)⟩

/-- An integer below `2^53` converts exactly to binary64. -/
theorem natTof64_exact (n : Nat) (hn : n < 2 ^ 53) :
    isFinite64 (natTof64 n) = true ∧ f64Rat (natTof64 n) = n := by
  obtain ⟨b, hmag, hle⟩ := binary64.exists_mag_eq n 1074 hn (by decide)
  have hb : b < binary64.infBits := hle.trans_lt (by decide)
  have hround := binary64.roundRatio_exact b 1 one_pos hb
  rw [one_mul, hmag] at hround
  obtain ⟨hfin, -, hrat⟩ := ofNat64_finite hb
  rw [natTof64, binary64_unitExp, hround, hrat, hmag, Nat.cast_mul, Nat.cast_pow, Nat.cast_ofNat]
  exact ⟨hfin, mul_div_cancel_right₀ _ (pow_ne_zero _ two_ne_zero)⟩

/-- Settles O54: a code is below `2^24` and a count below `2^53`. -/
theorem integerConversionsAreExact : Obligations.IntegerConversionsAreExact :=
  ⟨fun c => natTof32_exact _ (lt_trans c.isLt (by decide)), fun n => natTof64_exact _ (lt_trans n.isLt (by decide))⟩

end Sys2Proof.Machine
end

section
/-! The binary64 square root (R11) is the value nearest to the real root: `roundSqrt` brackets the root between two
consecutive values and compares it with their midpoint. -/

namespace Sys2Proof.Machine

/-- What `roundSqrt` does, unclamped: it finds the pattern `p` of the largest value at most the root and goes to `p` or
to the next one, on the right side of their midpoint. -/
theorem FloatFormat.roundSqrt_cases (F : FloatFormat) (v : Nat) :
    ∃ p, F.mag p ^ 2 ≤ v ∧ v < F.mag (p + 1) ^ 2
      ∧ p < (v.log2 / 2 - F.fracBits) * 2 ^ F.fracBits + 2 ^ (F.fracBits + 1)
      ∧ (F.roundSqrt v = min p F.infBits ∧ 4 * v ≤ (F.mag p + F.mag (p + 1)) ^ 2
        ∨ F.roundSqrt v = min (p + 1) F.infBits ∧ (F.mag p + F.mag (p + 1)) ^ 2 ≤ 4 * v) := by
  set s := v.log2 / 2 - F.fracBits with hs
  set q := isqrt (v / 4 ^ s) with hq
  have hsq : ∀ n : Nat, (n * 2 ^ s) ^ 2 = n * n * 4 ^ s := fun n => by
    rw [mul_pow, ← pow_mul, mul_comm s 2, pow_mul, pow_two]; rfl
  have h4 : 0 < 4 ^ s := Nat.pow_pos (by decide)
  obtain ⟨hlo, hhi⟩ := isqrt_spec (v / 4 ^ s)
  rw [← hq] at hlo hhi
  have hup : q < 2 ^ (F.fracBits + 1) := by
    have hv : v / 4 ^ s < 2 ^ (F.fracBits + 1) * 2 ^ (F.fracBits + 1) := by
      rw [Nat.div_lt_iff_lt_mul h4, show 4 = 2 ^ 2 from rfl, ← pow_mul, ← pow_add, ← pow_add]
      exact lt_of_lt_of_le Nat.lt_log2_self (Nat.pow_le_pow_right (by decide) (by omega))
    exact Nat.mul_self_lt_mul_self_iff.mp (hlo.trans_lt hv)
  have hlow : s = 0 ∨ 2 ^ F.fracBits ≤ q := by
    refine or_iff_not_imp_left.mpr fun h0 => Nat.le_of_lt_succ (Nat.mul_self_lt_mul_self_iff.mp (lt_of_le_of_lt ?_ hhi))
    have hv0 : v ≠ 0 := by rintro rfl; simp at hs; omega
    rw [Nat.le_div_iff_mul_le h4, show 4 = 2 ^ 2 from rfl, ← pow_mul, ← pow_add, ← pow_add]
    exact le_trans (Nat.pow_le_pow_right (by decide) (by omega)) (Nat.log2_self_le hv0)
  have e1 := F.mag_shift s q hlow hup.le
  have e2 := F.mag_shift s (q + 1) (hlow.imp id (by omega)) (by omega)
  rw [← add_assoc] at e2
  have hmid : (q * 2 ^ s + (q + 1) * 2 ^ s) ^ 2 = (2 * q + 1) * (2 * q + 1) * 4 ^ s := by
    rw [← hsq]; ring
  refine ⟨s * 2 ^ F.fracBits + q, ?_, ?_, by omega, ?_⟩
  · rw [e1, hsq]; exact (Nat.le_div_iff_mul_le h4).mp hlo
  · rw [e2, hsq]; exact (Nat.div_lt_iff_lt_mul h4).mp hhi
  · rw [e1, e2, hmid]
    unfold FloatFormat.roundSqrt
    simp only [← hs, ← hq]
    split
    next h =>
      simp only [Bool.or_eq_true, decide_eq_true_eq, Bool.and_eq_true, beq_iff_eq] at h
      exact .inr ⟨rfl, by omega⟩
    next h =>
      simp only [Bool.or_eq_true, decide_eq_true_eq, not_or] at h
      exact .inl ⟨rfl, by omega⟩

/-- Of two consecutive values around `x`, the one on `x`'s side of their midpoint is nearest among all values. -/
theorem FloatFormat.mag_nearest (F : FloatFormat) {p r : Nat} {x : ℝ} (lo : (F.mag p : ℝ) ≤ x)
    (hi : x ≤ F.mag (p + 1))
    (side : r = p ∧ 2 * x ≤ F.mag p + F.mag (p + 1) ∨ r = p + 1 ∧ (F.mag p + F.mag (p + 1) : ℝ) ≤ 2 * x) (b : Nat) :
    |(F.mag r : ℝ) - x| ≤ |(F.mag b : ℝ) - x| := by
  have hb : (F.mag b : ℝ) ≤ F.mag p ∨ (F.mag (p + 1) : ℝ) ≤ F.mag b := by
    rcases Nat.lt_or_ge p b with h | h
    · exact .inr (by exact_mod_cast F.mag_strictMono.monotone (Nat.succ_le_of_lt h))
    · exact .inl (by exact_mod_cast F.mag_strictMono.monotone h)
  rcases side with ⟨rfl, hmid⟩ | ⟨rfl, hmid⟩
  · rw [abs_of_nonpos (by linarith)]
    rcases hb with h | h
    · rw [abs_of_nonpos (by linarith)]; linarith
    · rw [abs_of_nonneg (by linarith)]; linarith
  · rw [abs_of_nonneg (by linarith)]
    rcases hb with h | h
    · rw [abs_of_nonpos (by linarith)]; linarith
    · rw [abs_of_nonneg (by linarith)]; linarith

/-- No value of the format is nearer to the real root than the rounded one. -/
theorem FloatFormat.roundSqrt_nearest (F : FloatFormat) (v b : Nat) (hfin : F.roundSqrt v < F.infBits) :
    |(F.mag (F.roundSqrt v) : ℝ) - √v| ≤ |(F.mag b : ℝ) - √v| := by
  obtain ⟨p, lo, hi, -, side⟩ := F.roundSqrt_cases v
  have hsq : √(v : ℝ) ^ 2 = v := Real.sq_sqrt (Nat.cast_nonneg v)
  have hx : 0 ≤ √(v : ℝ) := Real.sqrt_nonneg _
  have lo' : ((F.mag p : ℝ)) ^ 2 ≤ v := by exact_mod_cast lo
  have hi' : (v : ℝ) ≤ (F.mag (p + 1) : ℝ) ^ 2 := by exact_mod_cast hi.le
  refine F.mag_nearest (p := p) (Real.le_sqrt_of_sq_le lo') (Real.sqrt_le_iff.mpr ⟨by positivity, hi'⟩) ?_ b
  rcases side with ⟨hr, hmid⟩ | ⟨hr, hmid⟩
  · refine .inl ⟨by omega, ?_⟩
    have hmid : (4 : ℝ) * v ≤ (F.mag p + F.mag (p + 1)) ^ 2 := by exact_mod_cast hmid
    exact le_of_sq_le_sq (by rw [mul_pow, hsq]; linarith) (by positivity)
  · refine .inr ⟨by omega, ?_⟩
    have hmid : (F.mag p + F.mag (p + 1) : ℝ) ^ 2 ≤ 4 * v := by exact_mod_cast hmid
    exact le_of_sq_le_sq (by rw [mul_pow, hsq]; linarith) (by positivity)

theorem log2_mul_two_pow_lt {m j : Nat} (u : Nat) (hm : m < 2 ^ j) (hj : 0 < j) : (m * 2 ^ u).log2 < j + u := by
  rcases Nat.eq_zero_or_pos m with rfl | hpos
  · rw [Nat.zero_mul, Nat.log2_zero]; omega
  · have hlt : m * 2 ^ u < 2 ^ (j + u) := by
      rw [pow_add]; exact Nat.mul_lt_mul_of_pos_right hm (Nat.two_pow_pos _)
    exact (Nat.log2_lt (Nat.mul_pos hpos (Nat.two_pow_pos _)).ne').mpr hlt

/-- The root of a finite number is far below the largest finite value. -/
theorem roundSqrt64_lt {b : Nat} (hb : b < binary64.infBits) :
    binary64.roundSqrt (binary64.mag b * 2 ^ 1074) < binary64.infBits := by
  obtain ⟨p, -, -, hp, side⟩ := binary64.roundSqrt_cases (binary64.mag b * 2 ^ 1074)
  have hmag : binary64.mag b < 2 ^ 2098 := by
    rw [show 2 ^ 2098 = binary64.mag binary64.infBits by decide +kernel]
    exact binary64.mag_strictMono hb
  have hlog := log2_mul_two_pow_lt 1074 hmag (by decide)
  have hfrac : binary64.fracBits = 52 := rfl
  rw [hfrac] at hp
  rw [binary64_infBits] at side ⊢
  omega

/-- To a real number that is not negative, the magnitude of a value is at least as near as the value. -/
theorem mag_dist_le_f64Rat_dist {y : F64} (hy : isFinite64 y = true) {x : ℝ} (hx : 0 ≤ x) :
    |(binary64.mag (y.toNat % 0x8000000000000000) : ℝ) / 2 ^ 1074 - x| ≤ |(f64Rat y : ℝ) - x| := by
  rw [f64Rat_finite y hy, Rat.cast_div, Rat.cast_pow, Rat.cast_ofNat]
  have hu : (0 : ℝ) < 2 ^ 1074 := pow_pos two_pos _
  generalize binary64.mag (y.toNat % 0x8000000000000000) = m, (2 : ℝ) ^ 1074 = u at hu ⊢
  have hm : 0 ≤ (m : ℝ) / u := by positivity
  cases y.msb
  · simp [signed]
  · simp only [signed, if_true, Rat.cast_neg, Rat.cast_natCast, neg_div]
    rw [abs_of_nonpos (by linarith : -((m : ℝ) / u) - x ≤ 0), abs_le]
    constructor <;> linarith

/-- In units, the root of `m` is the root of `m * 2^1074`. -/
theorem sqrt_of_units (m : Nat) : √((m : ℝ) / 2 ^ 1074) = √((m * 2 ^ 1074 : ℕ) : ℝ) / 2 ^ 1074 := by
  have hu : (0 : ℝ) < 2 ^ 1074 := pow_pos two_pos _
  rw [Nat.cast_mul, Nat.cast_pow, Nat.cast_ofNat]
  generalize (2 : ℝ) ^ 1074 = u at hu
  rw [eq_div_iff hu.ne', ← Real.sqrt_sq hu.le, ← Real.sqrt_mul (by positivity), Real.sqrt_sq hu.le]
  congr 1
  field_simp

/-- The root of a number of sign 0 is finite, of sign 0, and nearest. -/
theorem f64sqrt_nearest (k : Nat) (a : F64) (ha : isFinite64 a = true) (hs : a.msb = false) :
    isFinite64 (f64sqrt k a) = true ∧ (f64sqrt k a).msb = false
      ∧ ∀ y : F64, isFinite64 y = true →
        |(f64Rat (f64sqrt k a) : ℝ) - √(f64Rat a : ℝ)| ≤ |(f64Rat y : ℝ) - √(f64Rat a : ℝ)| := by
  have hv := value64_finite a ha
  have hr := f64Rat_finite a ha
  have hlt := roundSqrt64_lt ((isFinite64_iff a).mp ha)
  rw [hs] at hv hr
  generalize binary64.mag (a.toNat % 0x8000000000000000) = m at hv hr hlt
  by_cases h0 : m = 0
  · have he : f64sqrt k a = a := by simp [f64sqrt, hv, h0]
    have hz : f64Rat a = 0 := by simp [hr, h0]
    rw [he, hz]
    exact ⟨ha, hs, fun y _ => by simp⟩
  · obtain ⟨hfin, hmsb, hrat⟩ := ofNat64_finite hlt
    have he : f64sqrt k a = BitVec.ofNat 64 (binary64.roundSqrt (m * 2 ^ 1074)) := by
      rw [f64sqrt, hv]; simp only [h0, if_false, Bool.false_eq_true, binary64_unitExp]
    have hx : √(f64Rat a : ℝ) = √((m * 2 ^ 1074 : ℕ) : ℝ) / 2 ^ 1074 := by
      rw [← sqrt_of_units, hr]; simp [signed]
    rw [he]
    refine ⟨hfin, hmsb, fun y hy => ?_⟩
    refine le_trans ?_ (mag_dist_le_f64Rat_dist hy (Real.sqrt_nonneg _))
    have near := binary64.roundSqrt_nearest (m * 2 ^ 1074) (y.toNat % 0x8000000000000000) hlt
    rw [hrat, hx, Rat.cast_div, Rat.cast_natCast, Rat.cast_pow, Rat.cast_ofNat]
    rw [← sub_div, ← sub_div, abs_div, abs_div]
    exact div_le_div_of_nonneg_right near (abs_nonneg _)

theorem f64sqrt_negZero (k : Nat) : f64sqrt k (signedZero64 true) = signedZero64 true := by
  rw [f64sqrt, value64_signedZero64]; exact if_pos rfl

theorem f64sqrt_posInf (k : Nat) : f64sqrt k (signedInf64 false) = signedInf64 false := by
  rw [f64sqrt, value64_signedInf64]; rfl

/-- Settles O49: the rounded root lies on the real root's side of the midpoint of the two values around it. -/
theorem f64SqrtRoundsToNearest : Obligations.F64SqrtRoundsToNearest :=
  ⟨f64sqrt_nearest, fun k => ⟨f64sqrt_negZero k, f64sqrt_posInf k⟩⟩

end Sys2Proof.Machine
end

section
/-! The index space (R21, R188): an index names at most one register, and which indices name one. -/

namespace Sys2Proof.Machine

theorem Reg.mem_all (r : Reg) : r ∈ Reg.all := by
  cases r with
  | coef c k => revert c k; decide
  | z s j => revert s j; decide
  | peak b => revert b; decide
  | rmsSum b => revert b; decide
  | _ => decide

/-- No register is shadowed by an earlier one of the table (R50). -/
@[simp] theorem Reg.ofIndex_index (r : Reg) : Reg.ofIndex r.index = some r := by
  have table : ∀ r ∈ Reg.all, Reg.ofIndex r.index = some r := by decide +kernel
  exact table r r.mem_all

theorem Reg.ofIndex_eq_some_iff (i : BitVec 8) (r : Reg) : Reg.ofIndex i = some r ↔ r.index = i := by
  constructor
  · intro h
    simpa using List.find?_some h
  · rintro rfl
    exact r.ofIndex_index

theorem Reg.writable_eq_writableIndex (r : Reg) : r.writable = writableIndex r.index := by
  have table : ∀ r ∈ Reg.all, r.writable = writableIndex r.index := by decide
  exact table r r.mem_all

theorem Reg.isSome_ofIndex (i : BitVec 8) : (Reg.ofIndex i).isSome = assignedIndex i := by
  revert i; decide +kernel

theorem Reg.exists_of_assignedIndex {i : BitVec 8} (h : assignedIndex i = true) : ∃ r, Reg.ofIndex i = some r :=
  Option.isSome_iff_exists.mp ((Reg.isSome_ofIndex i).trans h)

/-- Settles O13: the table of the 56 registers against the ranges of R188. -/
theorem registerIndexMap : Obligations.RegisterIndexMap := by
  refine ⟨Reg.isSome_ofIndex, Reg.ofIndex_eq_some_iff, fun i r h => ?_, by decide, by decide⟩
  rw [← (Reg.ofIndex_eq_some_iff i r).mp h]
  exact r.writable_eq_writableIndex

end Sys2Proof.Machine
end

section
/-! The step by its input, and the registers after a reset (R35). -/

namespace Sys2Proof.Machine

/-! ### The step by its input -/

theorem step_of_no_input {s : State} (h : s.inputs = []) : step s = .next s := by rw [step, h]

theorem step_of_reset {s : State} {rest : List HostInput} (h : s.inputs = .reset :: rest) :
    step s = .next (resetRegisters { s with inputs := rest }) := by rw [step, h]; rfl

theorem step_of_command {s : State} {w : Cmd} {rest : List HostInput} (h : s.inputs = .command w :: rest) :
    step s = acceptWord w { s with inputs := rest } := by rw [step, h]; rfl

/-! ### Reading after a reset -/

theorem readReg_resetRegisters (s : State) (r : Reg) : readReg (resetRegisters s) r = 0#64 := by
  cases r with
  | coef c k => simp [readReg, State.reset]
  | z i j => simp [readReg, State.reset]
  | peak b => simp [readReg, State.reset]
  | rmsSum b => simp [readReg, State.reset]
  | _ => rfl

/-- A register does not depend on the responses delivered. -/
@[simp] theorem readReg_respond (s : State) (rsp : Response) (r : Reg) : readReg (s.respond rsp) r = readReg s r := by
  cases r <;> rfl

theorem exec_rd_of_ofIndex {i : BitVec 8} {r : Reg} (h : Reg.ofIndex i = some r) (s : State) :
    exec (.rd i) s = .next (s.respond (dataRsp (readReg s r))) := by
  change execRd i s = _
  rw [execRd, h]

/-- Where every register is 0, `RD` of any assigned index answers 0. -/
theorem exec_rd_of_zero {s : State} (zero : ∀ r : Reg, readReg s r = 0#64) (i : BitVec 8)
    (hi : assignedIndex i = true) : exec (.rd i) s = .next { s with rsps := ⟨3#4, 0#64⟩ :: s.rsps } := by
  obtain ⟨r, hr⟩ := Reg.exists_of_assignedIndex hi
  rw [exec_rd_of_ofIndex hr, zero r]
  rfl

/-- Settles O12: both ways to a reset leave `resetRegisters`, which reads 0 at every register. -/
theorem resetZeroesEveryRegister : Obligations.ResetZeroesEveryRegister := by
  constructor
  · intro s rest h
    have zero := readReg_resetRegisters { s with inputs := rest }
    exact ⟨_, step_of_reset h, rfl, rfl, zero, exec_rd_of_zero zero⟩
  · intro s
    have zero (r : Reg) : readReg ((resetRegisters s).respond ackRsp) r = 0#64 := by
      rw [readReg_respond, readReg_resetRegisters]
    exact ⟨_, rfl, rfl, rfl, zero, exec_rd_of_zero zero⟩

end Sys2Proof.Machine
end

section
/-! Patterns of sign 0 (R10, R11): their order is that of their bits, and rounding keeps sums and differences of them
within bounds that are patterns. -/

namespace Sys2Proof.Machine

/-! ### Comparisons that hold -/

theorem FpValue.le_of_lt {x y : FpValue} (h : x.lt y = true) : x.le y = true := by
  refine (FpValue.le_iff x y).mpr ⟨?_, ?_, FpValue.lt_asymm h⟩
  · rintro rfl; rw [FpValue.lt_of_nan (.inl rfl)] at h; cases h
  · rintro rfl; rw [FpValue.lt_of_nan (.inr rfl)] at h; cases h

/-- A comparison that holds has no NaN operand (R11). -/
theorem not_nan_of_f32le {a b : F32} (h : f32le a b = true) : isNaN32 a = false ∧ isNaN32 b = false := by
  obtain ⟨ha, hb, -⟩ := (FpValue.le_iff _ _).mp h
  rw [ne_eq, value32_eq_nan_iff, Bool.not_eq_true] at ha hb
  exact ⟨ha, hb⟩

/-! ### The order of non-negative patterns -/

theorem value32_of_lt {a : F32} (h : a.toNat < 0x7F800000) : value32 a = .finite false (binary32.mag a.toNat) := by
  have sign : a.msb = false := by rw [BitVec.msb_eq_decide, decide_eq_false_iff_not]; omega
  have rest : a.toNat % 0x80000000 = a.toNat := by omega
  rw [value32_finite a ((isFinite32_iff a).mpr (by omega)), sign, rest]

theorem f32le_iff_toNat {a b : F32} (ha : a.toNat < 0x7F800000) (hb : b.toNat < 0x7F800000) :
    f32le a b = true ↔ a.toNat ≤ b.toNat := by
  rw [f32le, value32_of_lt ha, value32_of_lt hb, FpValue.le_finite_iff]
  simp [signed, binary32.mag_strictMono.le_iff_le]

/-- What is at most a finite number, and has sign 0, is a finite number. -/
theorem toNat_lt_of_f32le {a b : F32} (sign : a.msb = false) (h : f32le a b = true) (hb : b.toNat < 0x7F800000) :
    a.toNat < 0x7F800000 := by
  have number := (not_nan_of_f32le h).1
  have finite : isFinite32 a = true := by
    by_contra hf
    rw [f32le, value32_inf a (by simpa using hf) number, sign, value32_of_lt hb] at h
    cases h
  rw [BitVec.msb_eq_decide, decide_eq_false_iff_not] at sign
  have rest := (isFinite32_iff a).mp finite
  omega

/-- What is at least a positive number has sign 0. -/
theorem msb_of_f32le {a b : F32} (pos : 0 < a.toNat) (ha : a.toNat < 0x7F800000) (h : f32le a b = true) :
    b.msb = false := by
  have number := (not_nan_of_f32le h).2
  cases finite : isFinite32 b
  · rw [f32le, value32_of_lt ha, value32_inf b finite number] at h
    simpa [FpValue.le, FpValue.isNumber, FpValue.lt] using h
  · rw [f32le, value32_of_lt ha, value32_finite b finite, FpValue.le_finite_iff] at h
    by_contra sign
    rw [Bool.not_eq_false] at sign
    rw [sign] at h
    have units : (0 : ℚ) ≤ binary32.mag (b.toNat % 0x80000000) := Nat.cast_nonneg _
    have positive : (0 : ℚ) < binary32.mag a.toNat := by exact_mod_cast binary32.mag_strictMono pos
    simp only [signed, if_true, Bool.false_eq_true, if_false] at h
    linarith

/-! ### Sums and differences of non-negative patterns -/

theorem FloatFormat.withSign_false (F : FloatFormat) (bits : Nat) : F.withSign false bits = bits := rfl

theorem f32add_toNat (k : Nat) {a b : F32} (ha : a.toNat < 0x7F800000) (hb : b.toNat < 0x7F800000) :
    (f32add k a b).toNat = binary32.roundRatio (binary32.mag a.toNat + binary32.mag b.toNat) 1 := by
  rw [f32add, value32_of_lt ha, value32_of_lt hb, exactAdd, if_pos rfl, deliver32_ratio,
    FloatFormat.withSign_false]

/-- The difference of two numbers, the larger first, has no sign. -/
theorem exactAdd_negated_of_le {a b : Nat} (h : b ≤ a) :
    exactAdd (.finite false a) (.finite true b) = .ratio false (a - b) 1 := by
  rcases h.eq_or_lt with rfl | hlt
  · simp [exactAdd]
  · simp [exactAdd, hlt, hlt.ne']

theorem f32sub_toNat (k : Nat) {a b : F32} (ha : a.toNat < 0x7F800000) (h : b.toNat ≤ a.toNat) :
    (f32sub k a b).toNat = binary32.roundRatio (binary32.mag a.toNat - binary32.mag b.toNat) 1 := by
  rw [f32sub, value32_of_lt ha, value32_of_lt (h.trans_lt ha), FpValue.negate, Bool.not_false,
    exactAdd_negated_of_le (binary32.mag_strictMono.monotone h), deliver32_ratio,
    FloatFormat.withSign_false]

/-- A difference is at most what is diminished. -/
theorem f32sub_toNat_le (k : Nat) {a b : F32} (ha : a.toNat < 0x7F800000) (h : b.toNat ≤ a.toNat) :
    (f32sub k a b).toNat ≤ a.toNat := by
  have exact_a := binary32.roundRatio_exact a.toNat 1 one_pos ha
  rw [one_mul] at exact_a
  rw [f32sub_toNat k ha h]
  refine le_of_le_of_eq (binary32.roundRatio_mono one_pos one_pos ?_) exact_a
  exact Nat.mul_le_mul_right _ (Nat.sub_le _ _)

end Sys2Proof.Machine
end

section
/-! What one command can do: the whole next state, by how the block takes the command. -/

namespace Sys2Proof.Machine

/-! ### `writeReg`, `finishAll`, `boundary` and `feed`, field by field -/

/-- A write reaches the configuration and the coefficients, and nothing else (R92). -/
theorem writeReg_eq (s : State) (r : Reg) (data : F32) :
    writeReg s r data = { s with cfg := (writeReg s r data).cfg, coef := (writeReg s r data).coef } := by
  cases r <;> rfl

@[simp] theorem finishAll_cfg (s : State) : (finishAll s).2.cfg = s.cfg := by rw [finishAll_eq]
@[simp] theorem finishAll_coef (s : State) : (finishAll s).2.coef = s.coef := by rw [finishAll_eq]
@[simp] theorem finishAll_peak (s : State) : (finishAll s).2.peak = .replicate 4 f32Zero := by rw [finishAll_eq]
@[simp] theorem finishAll_rmsSum (s : State) : (finishAll s).2.rmsSum = .replicate 4 f64Zero := by rw [finishAll_eq]
@[simp] theorem finishAll_spb (s : State) : (finishAll s).2.spb = s.spb := by rw [finishAll_eq]
@[simp] theorem finishAll_pend (s : State) : (finishAll s).2.pend = s.pend := by rw [finishAll_eq]
@[simp] theorem finishAll_nacc (s : State) : (finishAll s).2.nacc = 0#32 := by rw [finishAll_eq]; rfl
@[simp] theorem finishAll_lastn (s : State) : (finishAll s).2.lastn = s.nacc := by rw [finishAll_eq]
@[simp] theorem finishAll_phase (s : State) : (finishAll s).2.phase = s.phase := by rw [finishAll_eq]

/-- Setting no sticky bit is setting the bits of the mask 0. -/
theorem errstat_kept (s : State) : ∃ m, s.errstat = s.errstat ||| m := ⟨0#6, BitVec.or_zero.symm⟩

/-- Finishing a window only ever sets sticky bits. -/
theorem finishAll_errstat (s : State) : ∃ m, (finishAll s).2.errstat = s.errstat ||| m := by
  rw [finishAll_eq]
  exact ⟨_, by rw [BitVec.or_assoc, BitVec.or_assoc, BitVec.or_assoc]⟩

/-- The state in which a boundary finishes the window: the residual carried over (R151). -/
def carryResidual (s : State) : State :=
  { s with pend := f32sub s.draws s.pend s.spb, draws := s.draws + 1 }

theorem boundary_of_ge {s : State} (h : f32ge s.pend s.spb = true) :
    boundary s = (binRsp (finishAll (carryResidual s)).1, (finishAll (carryResidual s)).2) := by
  rw [boundary, if_pos h]; rfl

theorem boundary_of_not_ge {s : State} (h : f32ge s.pend s.spb = false) : boundary s = (noneRsp, s) := by
  rw [boundary, if_neg (by simp [h])]

theorem boundary_errstat (s : State) : ∃ m, (boundary s).2.errstat = s.errstat ||| m := by
  cases h : f32ge s.pend s.spb
  · rw [boundary_of_not_ge h]
    exact errstat_kept s
  · rw [boundary_of_ge h]
    exact finishAll_errstat (carryResidual s)

@[simp] theorem feed_nacc (x : F32) (s : State) : (feed x s).nacc = naccAfter s.nacc := by rw [feed_eq]

@[simp] theorem feed_pend (x : F32) (s : State) : (feed x s).pend = f32add (s.draws + 84) s.pend f32One := by
  rw [feed_eq]

/-- Feeding a sample only ever sets sticky bits. -/
theorem feed_errstat (x : F32) (s : State) : ∃ m, (feed x s).errstat = s.errstat ||| m := by
  rw [feed_eq, accumulate_eq, bankStep_state]
  exact ⟨_, by rw [BitVec.or_assoc, BitVec.or_assoc, BitVec.or_assoc, State.setFlags_errstat, BitVec.or_assoc]⟩

/-- What `FLUSH` does before it ends the stream (R152): the window finished, if it holds a sample. -/
def flushWindow (s : State) : Response × State :=
  if s.nacc ≠ 0 then (binRsp (finishAll s).1, (finishAll s).2) else (noneRsp, s)

theorem flushWindow_of_empty {s : State} (h : s.nacc = 0#32) : flushWindow s = (noneRsp, s) := if_neg (not_not.mpr h)

theorem flushWindow_of_samples {s : State} (h : s.nacc ≠ 0#32) :
    flushWindow s = (binRsp (finishAll s).1, (finishAll s).2) := if_pos h

theorem flushWindow_frame (s : State) : (flushWindow s).2.cfg = s.cfg ∧ (flushWindow s).2.coef = s.coef
    ∧ (flushWindow s).2.spb = s.spb := by
  by_cases h : s.nacc = 0#32
  · rw [flushWindow_of_empty h]; exact ⟨rfl, rfl, rfl⟩
  · rw [flushWindow_of_samples h]; exact ⟨finishAll_cfg s, finishAll_coef s, finishAll_spb s⟩

theorem flushWindow_errstat (s : State) : ∃ m, (flushWindow s).2.errstat = s.errstat ||| m := by
  by_cases h : s.nacc = 0#32
  · rw [flushWindow_of_empty h]
    exact errstat_kept s
  · rw [flushWindow_of_samples h]
    exact finishAll_errstat s

/-! ### The effects of a command -/

/-- The next states of a command, each with the condition under which the block takes it so. -/
inductive Effect (s : State) : Instr → State → Prop
  /-- `RST` (R91). -/
  | reset : Effect s .rst ((resetRegisters s).respond ackRsp)
  /-- A command that raises an error (R190). -/
  | rejected (i : Instr) (e : ErrCode) (d : BitVec 8) : Effect s i (raiseErr s e d)
  /-- `WR` of a writable register in `IDLE` (R92). -/
  | written (idx : BitVec 8) (data : F32) (r : Reg) (idle : s.phase = phaseIdle) (named : Reg.ofIndex idx = some r)
      (writable : r.writable = true) :
      Effect s (.wr idx data) ((writeReg s r data).respond ackRsp)
  /-- A command that only answers, draws and sets sticky bits (R93, R175, R176). -/
  | answered (i : Instr) (m : BitVec 6) (n : Nat) (rsp : Response) :
      Effect s i (((s.setFlags m).drew n).respond rsp)
  /-- `INIT` of a valid configuration in `IDLE` (R94). -/
  | constructed (idle : s.phase = phaseIdle) (valid : validate s.cfg = 0#6) :
      Effect s .init ((construct s).respond ackRsp)
  /-- `PUSH` in `RUN` (R151). -/
  | fed (x : F32) (run : s.phase = phaseRun) :
      Effect s (.push x) ((feed x (boundary s).2).respond (boundary s).1)
  /-- `FLUSH` in `RUN` (R152). -/
  | flushed (run : s.phase = phaseRun) :
      Effect s .flush (({ (flushWindow s).2 with pend := f32Zero, phase := phaseDone } : State).respond
        (flushWindow s).1)

section
variable {s t : State}

theorem effect_of_respond (i : Instr) (rsp : Response) : Effect s i (s.respond rsp) := by
  have h := Effect.answered (s := s) i 0#6 0 rsp
  have same : (s.setFlags 0#6).drew 0 = s := by simp [State.setFlags, State.drew]
  rwa [same] at h

theorem effect_of_execWr {idx : BitVec 8} {data : F32} (h : execWr idx data s = .next t) :
    Effect s (.wr idx data) t := by
  unfold execWr at h
  split at h
  next => cases h; exact .rejected ..
  next idle =>
    split at h
    next r named =>
      split at h
      next writable => cases h; exact .written idx data r (not_not.mp idle) named writable
      next => cases h; exact .rejected ..
    next => cases h; exact .rejected ..

theorem effect_of_execRd {idx : BitVec 8} (h : execRd idx s = .next t) : Effect s (.rd idx) t := by
  unfold execRd at h
  split at h
  next => cases h; exact effect_of_respond ..
  next => cases h; exact .rejected ..

theorem effect_of_execInit (h : execInit s = .next t) : Effect s .init t := by
  unfold execInit at h
  split at h
  next => cases h; exact .rejected ..
  next idle =>
    split at h
    next => cases h; exact .rejected ..
    next valid => cases h; exact .constructed (not_not.mp idle) (not_not.mp valid)

theorem effect_of_execPush {x : F32} (h : execPush x s = .next t) : Effect s (.push x) t := by
  unfold execPush at h
  split at h
  next => cases h; exact .rejected ..
  next run => cases h; exact .fed x (not_not.mp run)

theorem effect_of_execFlush (h : execFlush s = .next t) : Effect s .flush t := by
  unfold execFlush at h
  split at h
  next => cases h; exact .rejected ..
  next run => cases h; exact .flushed (not_not.mp run)

/-- Every next state of a command is one of its effects. -/
theorem effect_of_exec {i : Instr} (h : exec i s = .next t) : Effect s i t := by
  cases i with
  | rst => cases h; exact .reset
  | wr idx data => exact effect_of_execWr h
  | rd idx => exact effect_of_execRd h
  | init => exact effect_of_execInit h
  | push x => exact effect_of_execPush h
  | flush => exact effect_of_execFlush h
  | enc x => cases h; exact .answered ..
  | dec code => cases h; exact effect_of_respond ..

end

/-! ### What follows for all commands -/

theorem and_or_absorb {w : Nat} (a m : BitVec w) : a &&& (a ||| m) = a := by
  ext i hi; simp +contextual

/-- Every command but `RST` only ever sets sticky bits. -/
theorem Effect.errstat_grows {s t : State} {i : Instr} (h : Effect s i t) (hi : i ≠ .rst) :
    ∃ m, t.errstat = s.errstat ||| m := by
  cases h with
  | reset => exact absurd rfl hi
  | rejected i e d => exact ⟨e.mask, rfl⟩
  | written idx data r idle _ _ =>
    rw [writeReg_eq]
    exact errstat_kept s
  | answered i m n rsp => exact ⟨m, rfl⟩
  | constructed idle valid => exact errstat_kept s
  | fed x run =>
    obtain ⟨m, hm⟩ := boundary_errstat s
    obtain ⟨l, hl⟩ := feed_errstat x (boundary s).2
    exact ⟨m ||| l, by rw [State.respond_errstat, hl, hm, BitVec.or_assoc]⟩
  | flushed run => exact flushWindow_errstat s

/-- Settles O19: what every command but `RST` does to `ERRSTAT` is to OR a mask into it. -/
theorem stickyBitsStay : Obligations.StickyBitsStay := by
  intro s t i hi h
  obtain ⟨m, hm⟩ := (effect_of_exec h).errstat_grows hi
  rw [hm, and_or_absorb]

/-- Settles O20, effect by effect: three of them move the phase. -/
theorem phaseTransitions : Obligations.PhaseTransitions := by
  intro s t i h
  cases effect_of_exec h with
  | reset => exact .inr (.inl ⟨rfl, rfl⟩)
  | rejected => exact .inl rfl
  | written idx data r idle _ _ =>
    rw [writeReg_eq]
    exact .inl rfl
  | answered => exact .inl rfl
  | constructed idle valid => exact .inr (.inr (.inl ⟨rfl, idle, rfl, rfl⟩))
  | fed x run =>
    obtain ⟨-, -, -, -, feedPhase, -⟩ := feed_frame x (boundary s).2
    obtain ⟨-, -, -, -, boundaryPhase, -⟩ := boundary_frame s
    rw [State.respond_phase, feedPhase]
    exact .inl boundaryPhase
  | flushed run => exact .inr (.inr (.inr ⟨rfl, run, rfl⟩))

/-- Settles O21: the effects that touch these registers, but for that of `RST`, happen in `IDLE` alone. -/
theorem configurationFrozenAfterInit : Obligations.ConfigurationFrozenAfterInit := by
  intro s t i notIdle hi h
  cases effect_of_exec h with
  | reset => exact absurd rfl hi
  | rejected => exact ⟨rfl, rfl, rfl⟩
  | written idx data r idle _ _ => exact absurd idle notIdle
  | answered => exact ⟨rfl, rfl, rfl⟩
  | constructed idle valid => exact absurd idle notIdle
  | fed x run =>
    obtain ⟨feedCfg, feedCoef, feedSpb, -⟩ := feed_frame x (boundary s).2
    obtain ⟨boundaryCfg, boundaryCoef, -, boundarySpb, -⟩ := boundary_frame s
    rw [State.respond_cfg, State.respond_coef, State.respond_spb, feedCfg, feedCoef, feedSpb]
    exact ⟨boundaryCfg, boundaryCoef, boundarySpb⟩
  | flushed run => exact flushWindow_frame s

/-! ### `PUSH` in `RUN` -/

theorem exec_push_of_run {s : State} (h : s.phase = phaseRun) (x : F32) :
    exec (.push x) s = .next ((feed x (boundary s).2).respond (boundary s).1) := by
  change execPush x s = _
  rw [execPush, if_neg (not_not.mpr h)]

/-- Settles O31: a boundary latches `NACC` and leaves 0, and the sample is counted on top of what is left. -/
theorem everyPushIsCounted : Obligations.EveryPushIsCounted := by
  intro s t x r run below h hr
  rw [exec_push_of_run run] at h
  cases h
  obtain ⟨-, -, -, feedLastn, -, -, feedRsps⟩ := feed_frame x (boundary s).2
  obtain ⟨-, -, -, -, -, -, boundaryRsps⟩ := boundary_frame s
  rw [State.respond_rsps, feedRsps, boundaryRsps, List.cons.injEq] at hr
  rw [State.respond_lastn, State.respond_nacc, feedLastn, feed_nacc, ← hr.1]
  cases hb : f32ge s.pend s.spb
  · rw [boundary_of_not_ge hb]
    exact .inr ⟨rfl, rfl, if_pos below⟩
  · rw [boundary_of_ge hb]
    exact .inl ⟨rfl, rfl, rfl⟩

/-! ### `SPB` after `INIT` -/

/-- R96: the maximum with 64.0. -/
theorem computeSpb_ge (k : Nat) (c : Cfg) : f32ge (computeSpb k c) f32SixtyFour = true := by
  simp only [computeSpb]
  split
  next h => exact FpValue.le_of_lt h
  next => decide

/-- Settles O24: a rejected `INIT` stays in `IDLE`, and an accepted one takes the maximum with 64.0. -/
theorem initLeavesSpbAtLeast64 : Obligations.InitLeavesSpbAtLeast64 := by
  intro s t idle h run
  have hspb : t.spb = computeSpb s.draws s.cfg := by
    cases effect_of_exec h with
    | constructed => rfl
    | rejected => exact absurd (idle.symm.trans run) (by decide)
    | answered => exact absurd (idle.symm.trans run) (by decide)
  have ge := computeSpb_ge s.draws s.cfg
  rw [hspb]
  exact ⟨(not_nan_of_f32le ge).2, ge⟩

end Sys2Proof.Machine
end

section
/-! `PEND` (R28, R156) and the accumulators (R25, R26) stay in their ranges. -/

namespace Sys2Proof.Machine

/-! ### `PEND` -/

theorem pend_range_iff (p : F32) : (p.msb = false ∧ f32le p pendMax = true) ↔ p.toNat ≤ pendMax.toNat := by
  have max_lt : pendMax.toNat < 0x7F800000 := by decide
  constructor
  · rintro ⟨sign, h⟩
    exact (f32le_iff_toNat (toNat_lt_of_f32le sign h max_lt) max_lt).mp h
  · intro h
    refine ⟨?_, (f32le_iff_toNat (h.trans_lt max_lt) max_lt).mpr h⟩
    rw [BitVec.msb_eq_decide, decide_eq_false_iff_not]
    omega

/-- Adding 1.0 stops at 2^24, since 2^24 + 1 rounds to 2^24 (R156). -/
theorem pend_add_one_le (k : Nat) {p : F32} (h : p.toNat ≤ pendMax.toNat) :
    (f32add k p f32One).toNat ≤ pendMax.toNat := by
  have stops : binary32.roundRatio (binary32.mag pendMax.toNat + binary32.mag f32One.toNat) 1 = pendMax.toNat := by
    decide +kernel
  rw [f32add_toNat k (h.trans_lt (by decide)) (by decide)]
  refine le_of_le_of_eq (binary32.roundRatio_mono one_pos one_pos ?_) stops
  exact Nat.mul_le_mul_right _ (Nat.add_le_add_right (binary32.mag_strictMono.monotone h) _)

theorem one_le_pend_add_one (k : Nat) {p : F32} (h : p.toNat ≤ pendMax.toNat) :
    f32ge (f32add k p f32One) f32One = true := by
  have one_lt : f32One.toNat < 0x7F800000 := by decide
  have sum_lt : (f32add k p f32One).toNat < 0x7F800000 := (pend_add_one_le k h).trans_lt (by decide)
  have exact_one := binary32.roundRatio_exact f32One.toNat 1 one_pos one_lt
  rw [one_mul] at exact_one
  refine (f32le_iff_toNat one_lt sum_lt).mpr ?_
  rw [f32add_toNat k (h.trans_lt (by decide)) one_lt]
  refine le_of_eq_of_le exact_one.symm (binary32.roundRatio_mono one_pos one_pos ?_)
  exact Nat.mul_le_mul_right _ (Nat.le_add_left _ _)

/-- The residual that a boundary carries over is in range: `SPB`, at least 64.0, lies between 0 and `PEND`. -/
theorem residual_le (k : Nat) {p spb : F32} (h : p.toNat ≤ pendMax.toNat) (hspb : f32ge spb f32SixtyFour = true)
    (crossed : f32ge p spb = true) : (f32sub k p spb).toNat ≤ pendMax.toNat := by
  have p_lt : p.toNat < 0x7F800000 := h.trans_lt (by decide)
  have spb_lt := toNat_lt_of_f32le (msb_of_f32le (by decide) (by decide) hspb) crossed p_lt
  exact (f32sub_toNat_le k p_lt ((f32le_iff_toNat spb_lt p_lt).mp crossed)).trans h

/-! ### Peaks -/

/-- The maximum of two patterns is one of them, and no NaN unless both are. -/
theorem peakAfter_nonneg {p : F32} (h : isNaN32 p = false ∧ p.msb = false) (v : F32) :
    isNaN32 (peakAfter p v) = false ∧ (peakAfter p v).msb = false := by
  unfold peakAfter
  cases hv : isNaN32 (f32abs v)
  · rw [f32maxnum_of_numbers h.1 hv]
    split
    · exact h
    · exact ⟨hv, f32abs_msb v⟩
  · rw [f32maxnum, if_pos hv]
    exact h

/-! ### Sums -/

/-- The value has no minus sign, or is a NaN. -/
def FpValue.Nonneg : FpValue → Prop
  | .nan => True
  | .inf neg => neg = false
  | .finite neg _ => neg = false

/-- The exact result has no minus sign, or is a NaN. -/
def ExactResult.Nonneg : ExactResult → Prop
  | .nan => True
  | .inf neg => neg = false
  | .ratio neg _ _ => neg = false

theorem value64_nonneg {a : F64} (h : isNaN64 a = true ∨ a.msb = false) : (value64 a).Nonneg := by
  cases hn : isNaN64 a
  · have sign : a.msb = false := h.resolve_left (by simp [hn])
    cases hf : isFinite64 a
    · rw [value64_inf a hf hn]; exact sign
    · rw [value64_finite a hf]; exact sign
  · rw [value64_nan a hn]; trivial

theorem deliver64_nonneg (k : Nat) {r : ExactResult} (h : r.Nonneg) :
    isNaN64 (deliver64 k r) = true ∨ (deliver64 k r).msb = false := by
  cases r with
  | nan => exact .inl (isNaN64_quietNan64 k)
  | inf neg =>
    obtain rfl : neg = false := h
    exact .inr (by rw [deliver64_inf]; decide)
  | ratio neg num den => exact .inr ((deliver64_ratio_msb k neg num den).trans h)

theorem exactAdd_nonneg {x y : FpValue} (hx : x.Nonneg) (hy : y.Nonneg) : (exactAdd x y).Nonneg := by
  cases x with
  | nan => trivial
  | inf n =>
    cases y with
    | nan => trivial
    | inf m => rw [exactAdd, if_pos (hx.trans hy.symm)]; exact hx
    | finite m b => exact hx
  | finite n a =>
    cases y with
    | nan => trivial
    | inf m => exact hy
    | finite m b => rw [exactAdd, if_pos (hx.trans hy.symm)]; exact hx

theorem exactMul_self_nonneg (F : FloatFormat) (x : FpValue) : (exactMul F x x).Nonneg := by
  cases x with
  | nan => trivial
  | inf n => exact bne_self_eq_false n
  | finite n a => exact bne_self_eq_false n

/-- A square is added, which has no minus sign. -/
theorem sumAfter_nonneg (k : Nat) {sum : F64} (h : isNaN64 sum = true ∨ sum.msb = false) (v : F32) :
    isNaN64 (sumAfter k sum v) = true ∨ (sumAfter k sum v).msb = false := by
  have square : (value64 (f64mul (k + 1) (f32to64 k v) (f32to64 k v))).Nonneg :=
    value64_nonneg (deliver64_nonneg _ (exactMul_self_nonneg _ _))
  exact deliver64_nonneg _ (exactAdd_nonneg (value64_nonneg h) square)

/-! ### All four accumulators -/

/-- No peak is negative or a NaN, and no sum is negative (R25, R26). -/
def AccumulatorsNonneg (s : State) : Prop :=
  (∀ b : Fin 4, isNaN32 s.peak[b] = false ∧ s.peak[b].msb = false)
    ∧ ∀ b : Fin 4, isNaN64 s.rmsSum[b] = true ∨ s.rmsSum[b].msb = false

theorem AccumulatorsClear.nonneg {s : State} (h : AccumulatorsClear s) : AccumulatorsNonneg s := by
  rw [AccumulatorsNonneg, h.1, h.2]
  decide

/-- A vector keeps what all its entries satisfy when one entry is replaced by one that satisfies it. -/
theorem forall_set {α : Type} {n : Nat} {P : α → Prop} {v : Vector α n} (h : ∀ b : Fin n, P v[b]) (c : Fin n) {x : α}
    (hx : P x) (b : Fin n) : P (v.set c x)[b] := by
  by_cases hb : c = b
  · simpa [hb] using hx
  · have hb : c.val ≠ b.val := fun e => hb (Fin.ext e)
    simpa [Vector.getElem_set_ne, hb] using h b

theorem accAdd_nonneg {s : State} (h : AccumulatorsNonneg s) (b : Fin 4) (v : F32) :
    AccumulatorsNonneg (accAdd b v s) :=
  ⟨forall_set (P := fun p => isNaN32 p = false ∧ p.msb = false) h.1 b (peakAfter_nonneg (h.1 b) v),
    forall_set (P := fun a => isNaN64 a = true ∨ a.msb = false) h.2 b (sumAfter_nonneg _ (h.2 b) v)⟩

theorem accumulate_nonneg {s : State} (h : AccumulatorsNonneg s) (v : Vector F32 4) :
    AccumulatorsNonneg (accumulate v s) :=
  accAdd_nonneg (accAdd_nonneg (accAdd_nonneg (accAdd_nonneg h 0 _) 1 _) 2 _) 3 _

theorem feed_nonneg {s : State} (h : AccumulatorsNonneg s) (x : F32) : AccumulatorsNonneg (feed x s) := by
  have banked : AccumulatorsNonneg (bankStep x (s.setFlags (nonfinFlags x))).2 := by
    rw [bankStep_state]; exact ⟨h.1, h.2⟩
  obtain ⟨peaks, sums⟩ := accumulate_nonneg banked (bankStep x (s.setFlags (nonfinFlags x))).1
  rw [feed_eq]
  exact ⟨peaks, sums⟩

end Sys2Proof.Machine
end

section
/-! The invariant of the reachable states (section 5 of 95_test_vectors.md): it holds at reset and every step keeps
it. -/

namespace Sys2Proof.Machine

/-- Settles O55: every register is 0 and the phase is `IDLE`. -/
theorem resetSatisfiesInv : Obligations.ResetSatisfiesInv where
  phase_legal := .inl rfl
  idle_clear := fun _ => ⟨rfl, ⟨rfl, rfl⟩, rfl, rfl, rfl, rfl⟩
  configured := fun notIdle => absurd rfl notIdle
  peak_nonneg := by decide
  sum_nonneg := by decide
  pend_range := by decide
  run_fresh := fun run => absurd run (by decide)
  run_counting := fun run => absurd run (by decide)
  done_clear := fun done => absurd done (by decide)

/-! ### What the invariant does not look at -/

/-- The coefficients, the sticky bits, the draws and the ports have no part in the invariant. -/
theorem Inv.bookkeeping {s : State} (h : Inv s) (coef : Vector (Vector F32 5) 4) (errstat : BitVec 6) (draws : Nat)
    (inputs : List HostInput) (rsps : List Response) :
    Inv { s with coef := coef, errstat := errstat, draws := draws, inputs := inputs, rsps := rsps } :=
  { h with }

theorem Inv.respond {s : State} (h : Inv s) (r : Response) : Inv (s.respond r) := h.bookkeeping ..

theorem Inv.raiseErr {s : State} (h : Inv s) (e : ErrCode) (d : BitVec 8) : Inv (raiseErr s e d) := h.bookkeeping ..

theorem inv_resetRegisters (s : State) : Inv (resetRegisters s) := Inv.bookkeeping resetSatisfiesInv ..

/-- In `IDLE` the configuration has no part in it either. -/
theorem Inv.writeReg {s : State} (h : Inv s) (idle : s.phase = phaseIdle) (r : Reg) (data : F32) :
    Inv (writeReg s r data) := by
  rw [writeReg_eq]
  exact { h with configured := fun notIdle => absurd idle notIdle }

/-! ### Opening and closing a stream -/

theorem inv_construct {s : State} (valid : validate s.cfg = 0#6) : Inv (construct s) where
  phase_legal := .inr (.inl rfl)
  idle_clear := fun idle => absurd idle (by simp [phaseRun, phaseIdle])
  configured := fun _ => ⟨valid, computeSpb_ge ..⟩
  peak_nonneg := (AccumulatorsClear.nonneg (s := construct s) ⟨rfl, rfl⟩).1
  sum_nonneg := (AccumulatorsClear.nonneg (s := construct s) ⟨rfl, rfl⟩).2
  pend_range := (pend_range_iff _).mpr (Nat.zero_le _)
  run_fresh := fun _ _ => ⟨rfl, rfl, ⟨rfl, rfl⟩, rfl⟩
  run_counting := fun _ counted => absurd rfl counted
  done_clear := fun done => absurd done (by simp [phaseRun, phaseDone])

/-- A closed stream. -/
theorem inv_of_done {s : State} (done : s.phase = phaseDone)
    (configured : validate s.cfg = 0#6 ∧ f32ge s.spb f32SixtyFour = true) (pend : s.pend = 0#32)
    (nacc : s.nacc = 0#32) (clear : AccumulatorsClear s) : Inv s where
  phase_legal := .inr (.inr done)
  idle_clear := fun idle => absurd (done.symm.trans idle) (by decide)
  configured := fun _ => configured
  peak_nonneg := clear.nonneg.1
  sum_nonneg := clear.nonneg.2
  pend_range := (pend_range_iff _).mpr (by rw [pend]; decide)
  run_fresh := fun run => absurd (done.symm.trans run) (by decide)
  run_counting := fun run => absurd (done.symm.trans run) (by decide)
  done_clear := fun _ => ⟨pend, nacc, clear⟩

/-- A window that holds no sample is clear already (R140). -/
theorem flushWindow_clear {s : State} (h : Inv s) (run : s.phase = phaseRun) :
    (flushWindow s).2.nacc = 0#32 ∧ AccumulatorsClear (flushWindow s).2 := by
  by_cases empty : s.nacc = 0#32
  · obtain ⟨-, -, clear, -⟩ := h.run_fresh run empty
    rw [flushWindow_of_empty empty]
    exact ⟨empty, clear⟩
  · rw [flushWindow_of_samples empty]
    exact ⟨finishAll_nacc s, finishAll_peak s, finishAll_rmsSum s⟩

theorem Inv.flush {s : State} (h : Inv s) (run : s.phase = phaseRun) :
    Inv { (flushWindow s).2 with pend := f32Zero, phase := phaseDone } := by
  obtain ⟨valid, spb⟩ := h.configured (by rw [run]; decide)
  obtain ⟨frameCfg, -, frameSpb⟩ := flushWindow_frame s
  obtain ⟨nacc, clear⟩ := flushWindow_clear h run
  exact inv_of_done rfl ⟨by rw [frameCfg]; exact valid, by rw [frameSpb]; exact spb⟩ rfl nacc clear

/-! ### `PUSH` -/

/-- What the invariant says in `RUN` whatever the count: it holds between the two parts of a `PUSH` too, where a
finished window leaves `NACC` = 0 with a residual in `PEND`. -/
structure Streaming (s : State) : Prop where
  run : s.phase = phaseRun
  configured : validate s.cfg = 0#6 ∧ f32ge s.spb f32SixtyFour = true
  accumulators : AccumulatorsNonneg s
  pend_le : s.pend.toNat ≤ pendMax.toNat

theorem Inv.streaming {s : State} (h : Inv s) (run : s.phase = phaseRun) : Streaming s where
  run := run
  configured := h.configured (by rw [run]; decide)
  accumulators := ⟨h.peak_nonneg, h.sum_nonneg⟩
  pend_le := (pend_range_iff _).mp h.pend_range

theorem Streaming.boundary {s : State} (h : Streaming s) : Streaming (boundary s).2 := by
  cases crossed : f32ge s.pend s.spb
  · rw [boundary_of_not_ge crossed]
    exact h
  · obtain ⟨valid, spb⟩ := h.configured
    rw [boundary_of_ge crossed]
    refine ⟨?_, ⟨?_, ?_⟩, AccumulatorsClear.nonneg ⟨finishAll_peak _, finishAll_rmsSum _⟩, ?_⟩
    · rw [finishAll_phase]; exact h.run
    · rw [finishAll_cfg]; exact valid
    · rw [finishAll_spb]; exact spb
    · rw [finishAll_pend]; exact residual_le _ h.pend_le spb crossed

/-- A count saturates and never wraps (R29). -/
theorem naccAfter_ne_zero (n : BitVec 32) : naccAfter n ≠ 0#32 := by
  unfold naccAfter
  split
  · bv_omega
  next h => rw [not_not.mp h]; decide

theorem Streaming.inv_feed {s : State} (h : Streaming s) (x : F32) : Inv (feed x s) := by
  obtain ⟨cfg, -, spb, -, phase, -, -⟩ := feed_frame x s
  have run : (feed x s).phase = phaseRun := phase.trans h.run
  obtain ⟨peaks, sums⟩ := feed_nonneg h.accumulators x
  exact {
    phase_legal := .inr (.inl run)
    idle_clear := fun idle => absurd (run.symm.trans idle) (by decide)
    configured := fun _ => by rw [cfg, spb]; exact h.configured
    peak_nonneg := peaks
    sum_nonneg := sums
    pend_range := by rw [pend_range_iff, feed_pend]; exact pend_add_one_le _ h.pend_le
    run_fresh := fun _ empty => absurd (feed_nacc x s ▸ empty) (naccAfter_ne_zero _)
    run_counting := fun _ _ => by rw [feed_pend]; exact one_le_pend_add_one _ h.pend_le
    done_clear := fun done => absurd (run.symm.trans done) (by decide) }

/-! ### Every step -/

theorem Effect.keeps_inv {s t : State} {i : Instr} (e : Effect s i t) (h : Inv s) : Inv t := by
  cases e with
  | reset => exact (inv_resetRegisters s).respond _
  | rejected _ code d => exact h.raiseErr code d
  | written idx data r idle _ _ => exact (h.writeReg idle r data).respond _
  | answered => exact h.bookkeeping ..
  | constructed idle valid => exact (inv_construct valid).respond _
  | fed x run => exact ((h.streaming run).boundary.inv_feed x).respond _
  | flushed run => exact (h.flush run).respond _

theorem acceptWord_keeps_inv {s t : State} {w : Cmd} (h : Inv s) (accepted : acceptWord w s = .next t) : Inv t := by
  unfold acceptWord at accepted
  split at accepted
  next => exact (effect_of_exec accepted).keeps_inv h
  next => cases accepted; exact h.raiseErr ..

/-- Settles O56, by the input that the step takes. -/
theorem stepKeepsInv : Obligations.StepKeepsInv := by
  intro s t h stepped
  cases inputs : s.inputs with
  | nil =>
    rw [step_of_no_input inputs] at stepped
    cases stepped
    exact h
  | cons input rest =>
    cases input with
    | command w =>
      rw [step_of_command inputs] at stepped
      exact acceptWord_keeps_inv (h.bookkeeping ..) stepped
    | reset =>
      rw [step_of_reset inputs] at stepped
      cases stepped
      exact inv_resetRegisters _

end Sys2Proof.Machine
end

section
/-! Little-endian bytes (R52): what a host stores of a word is the word, byte by byte. -/

namespace Sys2Proof

@[simp] theorem littleEndian_length {w : Nat} (n : Nat) (v : BitVec w) : (littleEndian n v).length = n := by
  simp [littleEndian]

theorem littleEndian_getElem? {w n i : Nat} (v : BitVec w) (h : i < n) :
    (littleEndian n v)[i]? = some (v.extractLsb' (8 * i) 8) := by
  simp [littleEndian, h]

/-- The lowest byte comes first, and the others are those of the value without it. -/
theorem littleEndian_succ {w : Nat} (n : Nat) (v : BitVec w) :
    littleEndian (n + 1) v = v.extractLsb' 0 8 :: littleEndian n (v >>> 8) := by
  have next (i : Nat) : v.extractLsb' (8 * (i + 1)) 8 = (v >>> 8).extractLsb' (8 * i) 8 := by
    ext j hj
    simp only [BitVec.getElem_extractLsb', BitVec.getLsbD_ushiftRight]
    congr 1; omega
  simp [littleEndian, List.range_succ_eq_map, next]

/-- The bytes of a concatenation whose low part is one byte. -/
theorem littleEndian_append {w : Nat} (n : Nat) (hi : BitVec w) (b : BitVec 8) :
    littleEndian (n + 1) (hi ++ b) = b :: littleEndian n hi := by
  have bytes (i : Nat) : ((hi ++ b) >>> 8).extractLsb' (8 * i) 8 = hi.extractLsb' (8 * i) 8 := by
    ext j hj
    simp [BitVec.getLsbD_append]
  have low : (hi ++ b).extractLsb' 0 8 = b := by
    ext j hj
    simp [BitVec.getLsbD_append, hj]
  rw [littleEndian_succ, low, littleEndian, littleEndian]
  simp only [bytes]

theorem getLsbD_ofLittleEndian_cons {w : Nat} (b : BitVec 8) (bs : List (BitVec 8)) (i : Nat) :
    (ofLittleEndian w (b :: bs)).getLsbD i
      = (decide (i < w) && if i < 8 then b.getLsbD i else (ofLittleEndian w bs).getLsbD (i - 8)) := by
  by_cases low : i < 8
  · simp [ofLittleEndian, low]
  · simp [ofLittleEndian, low, BitVec.getLsbD_of_ge b i (not_lt.mp low)]

/-- Of the bits of a value, `n` bytes keep the `8 n` lowest. -/
theorem getLsbD_ofLittleEndian_littleEndian {w : Nat} (n : Nat) (v : BitVec w) {i : Nat} (hw : i < w)
    (hn : i < 8 * n) : (ofLittleEndian w (littleEndian n v)).getLsbD i = v.getLsbD i := by
  induction n generalizing v i with
  | zero => omega
  | succ n ih =>
    rw [littleEndian_succ, getLsbD_ofLittleEndian_cons, decide_eq_true hw, Bool.true_and]
    split
    next low => simp [low]
    next high =>
      rw [ih (v >>> 8) (by omega) (by omega), BitVec.getLsbD_ushiftRight]
      congr 1; omega

/-- As many bytes as the value has lose nothing of it. -/
theorem ofLittleEndian_littleEndian {w n : Nat} (h : w ≤ 8 * n) (v : BitVec w) :
    ofLittleEndian w (littleEndian n v) = v :=
  BitVec.eq_of_getLsbD_eq fun _ hi => getLsbD_ofLittleEndian_littleEndian n v hi (hi.trans_le h)

end Sys2Proof

namespace Sys2Proof.Machine

/-- The payload is the concatenation of its eight codes, the first band's peak lowest (R76). -/
theorem bytesOfData_binPayload (all low mid high : BitVec 8 × BitVec 8) :
    bytesOfData (binPayload all low mid high)
      = [all.1, all.2, low.1, low.2, mid.1, mid.2, high.1, high.2] := by
  have last : littleEndian 1 high.2 = [high.2] := by simp [littleEndian]
  rw [bytesOfData, binPayload, littleEndian_append, littleEndian_append, littleEndian_append, littleEndian_append,
    littleEndian_append, littleEndian_append, littleEndian_append, last]

/-- Settles O8: six bytes are all of a command word, and eight are all of a response's data. -/
theorem byteOrderRoundTrip : Obligations.ByteOrderRoundTrip :=
  ⟨fun w => ⟨littleEndian_length 6 w, ofLittleEndian_littleEndian (n := 6) (le_refl 48) w,
      fun _ hn => littleEndian_getElem? w hn⟩,
    fun v => ⟨littleEndian_length 8 v, ofLittleEndian_littleEndian (n := 8) (le_refl 64) v,
      fun _ hn => littleEndian_getElem? v hn⟩,
    bytesOfData_binPayload⟩

end Sys2Proof.Machine
end

section
/-! Every command is answered by exactly one response (R58, R75): each meaning ends in one `respond`. -/

namespace Sys2Proof.Machine

/-! ### Responses -/

/-- One of the six kinds of Table R75, with the bits that the kind does not define 0, and in an `ERR` one of the four
codes of Table R186. -/
def Response.WellFormed (r : Response) : Prop :=
  r.kind = 0#4 ∧ r.data = 0#64 ∨ r.kind = 1#4 ∧ r.data = 0#64 ∨ r.kind = 2#4 ∨ r.kind = 3#4
    ∨ r.kind = 4#4 ∧ r.data.extractLsb' 8 56 = 0#56
    ∨ r.kind = 15#4 ∧ r.data.extractLsb' 16 48 = 0#48
        ∧ (r.data.extractLsb' 0 8 = 1#8 ∨ r.data.extractLsb' 0 8 = 2#8 ∨ r.data.extractLsb' 0 8 = 3#8
            ∨ r.data.extractLsb' 0 8 = 4#8)

theorem ackRsp_wellFormed : ackRsp.WellFormed := .inl ⟨rfl, rfl⟩

theorem noneRsp_wellFormed : noneRsp.WellFormed := .inr (.inl ⟨rfl, rfl⟩)

theorem binRsp_wellFormed (w : BitVec 64) : (binRsp w).WellFormed := .inr (.inr (.inl rfl))

theorem dataRsp_wellFormed (v : BitVec 64) : (dataRsp v).WellFormed := .inr (.inr (.inr (.inl rfl)))

/-- A zero-extended value has nothing above its width. -/
theorem extractLsb'_setWidth_eq_zero {u w : Nat} (x : BitVec u) (n : Nat) :
    (x.setWidth w).extractLsb' u n = 0#n := by
  ext i hi; simp

theorem codeRsp_wellFormed (c : BitVec 8) : (codeRsp c).WellFormed :=
  .inr (.inr (.inr (.inr (.inl ⟨rfl, extractLsb'_setWidth_eq_zero c 56⟩))))

theorem errRsp_code (e : ErrCode) (d : BitVec 8) : (errRsp e d).data.extractLsb' 0 8 = e.number := by
  ext i hi
  have inside : i < 64 := by omega
  simp only [errRsp, BitVec.getElem_extractLsb', BitVec.getLsbD_setWidth, BitVec.getLsbD_append]
  simp [hi, inside]

theorem ErrCode.number_cases (e : ErrCode) :
    e.number = 1#8 ∨ e.number = 2#8 ∨ e.number = 3#8 ∨ e.number = 4#8 := by
  cases e <;> decide

theorem errRsp_wellFormed (e : ErrCode) (d : BitVec 8) : (errRsp e d).WellFormed := by
  refine .inr (.inr (.inr (.inr (.inr ⟨rfl, extractLsb'_setWidth_eq_zero (d ++ e.number) 48, ?_⟩))))
  rw [errRsp_code]
  exact e.number_cases

/-! ### Commands -/

/-- The outcome is a next state with the same inputs waiting and one well-formed response more. -/
def AnswersOnce (s : State) (o : Outcome) : Prop :=
  ∃ t r, o = .next t ∧ t.inputs = s.inputs ∧ t.rsps = r :: s.rsps ∧ r.WellFormed

/-- A state that differs from `s` in registers only, and then responds. -/
theorem answersOnce_respond {s u : State} {r : Response} (inputs : u.inputs = s.inputs) (rsps : u.rsps = s.rsps)
    (wf : r.WellFormed) : AnswersOnce s (.next (u.respond r)) :=
  ⟨u.respond r, r, rfl, inputs, congrArg (r :: ·) rsps, wf⟩

theorem answersOnce_raiseErr (s : State) (e : ErrCode) (d : BitVec 8) : AnswersOnce s (.next (raiseErr s e d)) :=
  answersOnce_respond rfl rfl (errRsp_wellFormed e d)

theorem answersOnce_execWr (idx : BitVec 8) (data : F32) (s : State) : AnswersOnce s (execWr idx data s) := by
  unfold execWr
  split
  next => exact answersOnce_raiseErr ..
  next =>
    split
    next r _ =>
      split
      next => exact answersOnce_respond (by rw [writeReg_eq]) (by rw [writeReg_eq]) ackRsp_wellFormed
      next => exact answersOnce_raiseErr ..
    next => exact answersOnce_raiseErr ..

theorem answersOnce_execRd (idx : BitVec 8) (s : State) : AnswersOnce s (execRd idx s) := by
  unfold execRd
  split
  next => exact answersOnce_respond rfl rfl (dataRsp_wellFormed _)
  next => exact answersOnce_raiseErr ..

theorem answersOnce_execInit (s : State) : AnswersOnce s (execInit s) := by
  unfold execInit
  split
  next => exact answersOnce_raiseErr ..
  next =>
    split
    next => exact answersOnce_raiseErr ..
    next => exact answersOnce_respond rfl rfl ackRsp_wellFormed

theorem boundary_wellFormed (s : State) : (boundary s).1.WellFormed := by
  cases crossed : f32ge s.pend s.spb
  · rw [boundary_of_not_ge crossed]
    exact noneRsp_wellFormed
  · rw [boundary_of_ge crossed]
    exact binRsp_wellFormed _

theorem answersOnce_execPush (x : F32) (s : State) : AnswersOnce s (execPush x s) := by
  unfold execPush
  split
  next => exact answersOnce_raiseErr ..
  next =>
    obtain ⟨-, -, -, -, -, feedInputs, feedRsps⟩ := feed_frame x (boundary s).2
    obtain ⟨-, -, -, -, -, boundaryInputs, boundaryRsps⟩ := boundary_frame s
    exact answersOnce_respond (feedInputs.trans boundaryInputs) (feedRsps.trans boundaryRsps) (boundary_wellFormed s)

/-- Finishing a window leaves the ports alone, and gives a bin or nothing. -/
theorem flushWindow_ports (s : State) : (flushWindow s).2.inputs = s.inputs ∧ (flushWindow s).2.rsps = s.rsps
    ∧ (flushWindow s).1.WellFormed := by
  by_cases empty : s.nacc = 0#32
  · rw [flushWindow_of_empty empty]
    exact ⟨rfl, rfl, noneRsp_wellFormed⟩
  · rw [flushWindow_of_samples empty, finishAll_eq]
    exact ⟨rfl, rfl, binRsp_wellFormed _⟩

theorem answersOnce_execFlush (s : State) : AnswersOnce s (execFlush s) := by
  unfold execFlush
  split
  next => exact answersOnce_raiseErr ..
  next =>
    obtain ⟨inputs, rsps, wf⟩ := flushWindow_ports s
    exact answersOnce_respond inputs rsps wf

theorem answersOnce_exec (i : Instr) (s : State) : AnswersOnce s (exec i s) := by
  cases i with
  | rst => exact answersOnce_respond rfl rfl ackRsp_wellFormed
  | wr idx data => exact answersOnce_execWr idx data s
  | rd idx => exact answersOnce_execRd idx s
  | init => exact answersOnce_execInit s
  | push x => exact answersOnce_execPush x s
  | flush => exact answersOnce_execFlush s
  | enc x => exact answersOnce_respond rfl rfl (codeRsp_wellFormed _)
  | dec code => exact answersOnce_respond rfl rfl (dataRsp_wellFormed _)

/-- An illegal word is answered as well (R78). -/
theorem answersOnce_acceptWord (w : Cmd) (s : State) : AnswersOnce s (acceptWord w s) := by
  unfold acceptWord
  split
  next => exact answersOnce_exec ..
  next => exact answersOnce_raiseErr ..

/-- Settles O10: the step takes the word off and accepts it. -/
theorem everyWordGetsOneResponse : Obligations.EveryWordGetsOneResponse := by
  intro s w rest h
  rw [step_of_command h]
  exact answersOnce_acceptWord w { s with inputs := rest }

end Sys2Proof.Machine
end

section
/-! Command words (R73, R77, R78): the decoder, the encoder and the opcode table agree, each tied to the others through
the fields of Table R73. -/

namespace Sys2Proof

/-! ### Neighbouring fields of a word -/

theorem append_eq_zero_iff {m n : Nat} (hi : BitVec m) (lo : BitVec n) :
    hi ++ lo = 0#(m + n) ↔ hi = 0#m ∧ lo = 0#n := by
  constructor
  · intro h
    have high : (hi ++ lo).extractLsb' n m = hi := BitVec.extractLsb'_append_eq_left
    have low : (hi ++ lo).extractLsb' 0 n = lo := BitVec.extractLsb'_append_eq_right
    rw [h, BitVec.extractLsb'_zero] at high low
    exact ⟨high.symm, low.symm⟩
  · rintro ⟨rfl, rfl⟩
    exact BitVec.zero_append_zero

theorem idxField_append_dataField (w : Cmd) : idxField w ++ dataField w = w.extractLsb' 0 40 :=
  BitVec.extractLsb'_append_extractLsb'_eq_extractLsb' rfl

theorem idxField_append_upperDataField (w : Cmd) : idxField w ++ upperDataField w = w.extractLsb' 8 32 :=
  BitVec.extractLsb'_append_extractLsb'_eq_extractLsb' rfl

theorem upperDataField_append_codeField (w : Cmd) : upperDataField w ++ codeField w = dataField w :=
  BitVec.extractLsb'_append_extractLsb'_eq_extractLsb' rfl

theorem codeField_eq (w : Cmd) : codeField w = (dataField w).extractLsb' 0 8 := by
  ext i hi
  simp [codeField, dataField]

theorem upperDataField_eq (w : Cmd) : upperDataField w = (dataField w).extractLsb' 8 24 := by
  ext i hi
  simp [upperDataField, dataField]

@[simp] theorem codeField_packWord (op idx : BitVec 8) (upper : BitVec 24) (code : BitVec 8) :
    codeField (packWord op idx (upper ++ code)) = code := by
  rw [codeField_eq, dataField_packWord]
  exact BitVec.extractLsb'_append_eq_right

@[simp] theorem upperDataField_packWord (op idx : BitVec 8) (upper : BitVec 24) (code : BitVec 8) :
    upperDataField (packWord op idx (upper ++ code)) = upper := by
  rw [upperDataField_eq, dataField_packWord]
  exact BitVec.extractLsb'_append_eq_left

/-- A mask over `data[31:8]` sees just that part of the data field. -/
theorem upperDataField_eq_zero_of_and {w : Cmd} (h : dataField w &&& 0xFFFFFF00#32 = 0#32) :
    upperDataField w = 0#24 := by
  have ones : (0xFFFFFF00#32).extractLsb' 8 24 = BitVec.allOnes 24 := by decide
  have part := congrArg (BitVec.extractLsb' 8 24) h
  rwa [BitVec.extractLsb'_and, ones, BitVec.and_allOnes, BitVec.extractLsb'_zero, ← upperDataField_eq] at part

theorem packWord_eq {w : Cmd} {op idx : BitVec 8} {data : BitVec 32} (hop : opField w = op) (hidx : idxField w = idx)
    (hdata : dataField w = data) : packWord op idx data = w := by
  rw [← hop, ← hidx, ← hdata, packWord_fields]

/-! ### The reserved fields of a format -/

theorem reservedZeroN_iff (w : Cmd) : reservedZeroN w = true ↔ idxField w = 0#8 ∧ dataField w = 0#32 := by
  simp [reservedZeroN]

theorem reservedZeroI_iff (w : Cmd) : reservedZeroI w = true ↔ dataField w = 0#32 := beq_iff_eq

theorem reservedZeroD_iff (w : Cmd) : reservedZeroD w = true ↔ idxField w = 0#8 := beq_iff_eq

theorem reservedZeroB_iff (w : Cmd) : reservedZeroB w = true ↔ idxField w = 0#8 ∧ upperDataField w = 0#24 := by
  simp [reservedZeroB]

/-- The two fields of format `N` lie side by side. -/
theorem reservedZeroN_iff_bits (w : Cmd) : reservedZeroN w = true ↔ w.extractLsb' 0 40 = 0#40 := by
  rw [reservedZeroN_iff, ← append_eq_zero_iff, idxField_append_dataField]

/-- The two fields of format `B` lie side by side. -/
theorem reservedZeroB_iff_bits (w : Cmd) : reservedZeroB w = true ↔ w.extractLsb' 8 32 = 0#32 := by
  rw [reservedZeroB_iff, ← append_eq_zero_iff, idxField_append_upperDataField]

theorem ifReservedZero_eq_ok_iff (w : Cmd) (zero : Bool) (i j : Instr) :
    ifReservedZero w zero i = .ok j ↔ zero = true ∧ i = j := by
  cases zero <;> simp [ifReservedZero]

/-! ### The decoder and the encoder -/

/-- Settles O1: each operand field of the packed word reads back as the operand, each reserved one as 0. -/
theorem decodeOfEncode : Obligations.DecodeOfEncode := by
  intro i
  cases i with
  | rst | init | flush => simp [encode, decode, ifReservedZero_eq_ok_iff, reservedZeroN_iff]
  | wr idx data => simp [encode, decode]
  | rd idx => simp [encode, decode, ifReservedZero_eq_ok_iff, reservedZeroI_iff]
  | push x | enc x => simp [encode, decode, ifReservedZero_eq_ok_iff, reservedZeroD_iff]
  | dec code => simp [encode, decode, ifReservedZero_eq_ok_iff, reservedZeroB_iff]

/-- All that a word can decode to: its opcode is the command's, the fields that the format reserves are 0 (R73). -/
inductive DecodesTo (w : Cmd) : Instr → Prop
  | rst (op : opField w = 0x01#8) (reserved : reservedZeroN w = true) : DecodesTo w .rst
  | wr (op : opField w = 0x02#8) : DecodesTo w (.wr (idxField w) (dataField w))
  | rd (op : opField w = 0x03#8) (reserved : reservedZeroI w = true) : DecodesTo w (.rd (idxField w))
  | init (op : opField w = 0x04#8) (reserved : reservedZeroN w = true) : DecodesTo w .init
  | push (op : opField w = 0x05#8) (reserved : reservedZeroD w = true) : DecodesTo w (.push (dataField w))
  | flush (op : opField w = 0x06#8) (reserved : reservedZeroN w = true) : DecodesTo w .flush
  | enc (op : opField w = 0x07#8) (reserved : reservedZeroD w = true) : DecodesTo w (.enc (dataField w))
  | dec (op : opField w = 0x08#8) (reserved : reservedZeroB w = true) : DecodesTo w (.dec (codeField w))

theorem DecodesTo.of_ifReservedZero {w : Cmd} {zero : Bool} {i j : Instr} (h : ifReservedZero w zero i = .ok j)
    (decodes : zero = true → DecodesTo w i) : DecodesTo w j := by
  obtain ⟨reserved, rfl⟩ := (ifReservedZero_eq_ok_iff ..).mp h
  exact decodes reserved

theorem DecodesTo.of_decode {w : Cmd} {i : Instr} (h : decode w = .ok i) : DecodesTo w i := by
  simp only [decode] at h
  split at h
  next op => exact .of_ifReservedZero h (.rst op)
  split at h
  next op =>
    cases h
    exact .wr op
  split at h
  next op => exact .of_ifReservedZero h (.rd op)
  split at h
  next op => exact .of_ifReservedZero h (.init op)
  split at h
  next op => exact .of_ifReservedZero h (.push op)
  split at h
  next op => exact .of_ifReservedZero h (.flush op)
  split at h
  next op => exact .of_ifReservedZero h (.enc op)
  split at h
  next op => exact .of_ifReservedZero h (.dec op)
  next => cases h

theorem decode_eq_ok_iff (w : Cmd) (i : Instr) : decode w = .ok i ↔ DecodesTo w i := by
  refine ⟨.of_decode, fun h => ?_⟩
  cases h <;> simp [decode, ifReservedZero, *]

theorem DecodesTo.encode_eq {w : Cmd} {i : Instr} (h : DecodesTo w i) : encode i = w := by
  cases h with
  | rst op reserved | init op reserved | flush op reserved =>
    obtain ⟨idx, data⟩ := (reservedZeroN_iff w).mp reserved
    exact packWord_eq op idx data
  | wr op => exact packWord_eq op rfl rfl
  | rd op reserved => exact packWord_eq op rfl ((reservedZeroI_iff w).mp reserved)
  | push op reserved | enc op reserved => exact packWord_eq op ((reservedZeroD_iff w).mp reserved) rfl
  | dec op reserved =>
    obtain ⟨idx, upper⟩ := (reservedZeroB_iff w).mp reserved
    exact packWord_eq op idx (by rw [← upperDataField_append_codeField, upper])

/-- Settles O2: the fields that the decoder reads and those that it checks are all of the word. -/
theorem encodeOfDecode : Obligations.EncodeOfDecode := fun _ _ h => (DecodesTo.of_decode h).encode_eq

/-! ### The opcode table -/

/-- The laws per command, together. -/
theorem encodesUnderItsMask (i : Instr) : Laws.EncodesUnderItsMask.Statement i := by
  cases i with
  | rst => exact Laws.EncodesUnderItsMask.rst
  | wr idx data => exact Laws.EncodesUnderItsMask.wr idx data
  | rd idx => exact Laws.EncodesUnderItsMask.rd idx
  | init => exact Laws.EncodesUnderItsMask.init
  | push x => exact Laws.EncodesUnderItsMask.push x
  | flush => exact Laws.EncodesUnderItsMask.flush
  | enc x => exact Laws.EncodesUnderItsMask.enc x
  | dec code => exact Laws.EncodesUnderItsMask.dec code

theorem OpcodeRow.matchesWord_iff (r : OpcodeRow) (w : Cmd) : r.matchesWord w = true ↔ w &&& r.mask = r.bits :=
  beq_iff_eq

theorem exists_row_of_mnemonic (i : Instr) : ∃ r ∈ opcodeRows, r.mnemonic = i.mnemonic := by
  cases i <;> simp [opcodeRows, Instr.mnemonic]

theorem row_eq_of_mnemonic_eq : ∀ r ∈ opcodeRows, ∀ r' ∈ opcodeRows, r.mnemonic = r'.mnemonic → r = r' := by
  decide

/-- A word that decodes matches the row of its command, and no other. -/
theorem matchesWord_iff_mnemonic {w : Cmd} {i : Instr} (h : decode w = .ok i) {r : OpcodeRow} (hr : r ∈ opcodeRows) :
    w &&& r.mask = r.bits ↔ r.mnemonic = i.mnemonic := by
  rw [← OpcodeRow.matchesWord_iff, ← encodeOfDecode w i h]
  exact encodesUnderItsMask i r hr

theorem masked_eq_iff (w : Cmd) (opMask idxMask op idx : BitVec 8) (dataMask data : BitVec 32) :
    w &&& packWord opMask idxMask dataMask = packWord op idx data
      ↔ opField w &&& opMask = op ∧ idxField w &&& idxMask = idx ∧ dataField w &&& dataMask = data := by
  simp [word_eq_iff]

/-- Table R77 field by field: a mask covers the opcode and the fields that the format of R73 reserves. -/
theorem opcodeRows_eq :
    opcodeRows =
      [⟨"RST", packWord (.allOnes 8) (.allOnes 8) (.allOnes 32), packWord 0x01#8 0#8 0#32⟩,
       ⟨"WR", packWord (.allOnes 8) 0#8 0#32, packWord 0x02#8 0#8 0#32⟩,
       ⟨"RD", packWord (.allOnes 8) 0#8 (.allOnes 32), packWord 0x03#8 0#8 0#32⟩,
       ⟨"INIT", packWord (.allOnes 8) (.allOnes 8) (.allOnes 32), packWord 0x04#8 0#8 0#32⟩,
       ⟨"PUSH", packWord (.allOnes 8) (.allOnes 8) 0#32, packWord 0x05#8 0#8 0#32⟩,
       ⟨"FLUSH", packWord (.allOnes 8) (.allOnes 8) (.allOnes 32), packWord 0x06#8 0#8 0#32⟩,
       ⟨"ENC", packWord (.allOnes 8) (.allOnes 8) 0#32, packWord 0x07#8 0#8 0#32⟩,
       ⟨"DEC", packWord (.allOnes 8) (.allOnes 8) 0xFFFFFF00#32, packWord 0x08#8 0#8 0#32⟩] := by
  decide

/-- What a row's mask and match ask of the fields is what the decoder asks of them. -/
theorem decodesTo_of_row {w : Cmd} {r : OpcodeRow} (hr : r ∈ opcodeRows) (h : w &&& r.mask = r.bits) :
    ∃ i, DecodesTo w i ∧ i.mnemonic = r.mnemonic := by
  simp only [opcodeRows_eq, List.mem_cons, List.not_mem_nil, or_false] at hr
  rcases hr with rfl | rfl | rfl | rfl | rfl | rfl | rfl | rfl <;>
    simp only [masked_eq_iff, BitVec.and_allOnes, BitVec.and_zero, true_and, and_true] at h
  · exact ⟨_, .rst h.1 ((reservedZeroN_iff w).mpr h.2), rfl⟩
  · exact ⟨_, .wr h, rfl⟩
  · exact ⟨_, .rd h.1 ((reservedZeroI_iff w).mpr h.2), rfl⟩
  · exact ⟨_, .init h.1 ((reservedZeroN_iff w).mpr h.2), rfl⟩
  · exact ⟨_, .push h.1 ((reservedZeroD_iff w).mpr h.2), rfl⟩
  · exact ⟨_, .flush h.1 ((reservedZeroN_iff w).mpr h.2), rfl⟩
  · exact ⟨_, .enc h.1 ((reservedZeroD_iff w).mpr h.2), rfl⟩
  · obtain ⟨op, idx, data⟩ := h
    exact ⟨_, .dec op ((reservedZeroB_iff w).mpr ⟨idx, upperDataField_eq_zero_of_and data⟩), rfl⟩

/-- Settles O3: the decoder and the table ask the same of each field, and the rows' mnemonics tell the rows apart. -/
theorem decodeFollowsMaskAndMatch : Obligations.DecodeFollowsMaskAndMatch := by
  refine ⟨fun w i h => ?_, fun w r hr h => ?_, fun w r hr r' hr' h h' => ?_⟩
  · obtain ⟨r, hr, same⟩ := exists_row_of_mnemonic i
    exact ⟨r, hr, same, (matchesWord_iff_mnemonic h hr).mpr same⟩
  · obtain ⟨i, decodes, same⟩ := decodesTo_of_row hr h
    exact ⟨i, (decode_eq_ok_iff w i).mpr decodes, same⟩
  · obtain ⟨i, decodes, same⟩ := decodesTo_of_row hr h
    exact row_eq_of_mnemonic_eq r hr r' hr'
      (same.symm.trans ((matchesWord_iff_mnemonic ((decode_eq_ok_iff w i).mpr decodes) hr').mp h').symm)

/-! ### Illegal words -/

theorem legalWord_iff (w : Cmd) : legalWord w = true ↔ ∃ i, DecodesTo w i := by
  obtain ⟨rowOfDecoded, decodedOfRow, -⟩ := decodeFollowsMaskAndMatch
  simp only [legalWord, List.any_eq_true, OpcodeRow.matchesWord_iff, ← decode_eq_ok_iff]
  constructor
  · rintro ⟨r, hr, h⟩
    obtain ⟨i, decoded, -⟩ := decodedOfRow w r hr h
    exact ⟨i, decoded⟩
  · rintro ⟨i, decoded⟩
    obtain ⟨r, hr, -, h⟩ := rowOfDecoded w i decoded
    exact ⟨r, hr, h⟩

/-- The legal words by their opcode, as R78 lists them. -/
theorem exists_decodesTo_iff (w : Cmd) :
    (∃ i, DecodesTo w i) ↔
      (opField w = 0x01#8 ∨ opField w = 0x04#8 ∨ opField w = 0x06#8) ∧ reservedZeroN w = true ∨ opField w = 0x02#8
        ∨ opField w = 0x03#8 ∧ reservedZeroI w = true
        ∨ (opField w = 0x05#8 ∨ opField w = 0x07#8) ∧ reservedZeroD w = true
        ∨ opField w = 0x08#8 ∧ reservedZeroB w = true := by
  constructor
  · rintro ⟨i, h⟩
    cases h <;> simp [*]
  · rintro (⟨op | op | op, reserved⟩ | op | ⟨op, reserved⟩ | ⟨op | op, reserved⟩ | ⟨op, reserved⟩)
    · exact ⟨_, .rst op reserved⟩
    · exact ⟨_, .init op reserved⟩
    · exact ⟨_, .flush op reserved⟩
    · exact ⟨_, .wr op⟩
    · exact ⟨_, .rd op reserved⟩
    · exact ⟨_, .push op reserved⟩
    · exact ⟨_, .enc op reserved⟩
    · exact ⟨_, .dec op reserved⟩

/-- R78, opcode by opcode: from 9 on none is a command's. -/
theorem illegalWord_iff (w : Cmd) : legalWord w = false ↔
    let op := (w.extractLsb' 40 8).toNat
    op = 0 ∨ 9 ≤ op ∨ (op = 1 ∨ op = 4 ∨ op = 6) ∧ w.extractLsb' 0 40 ≠ 0#40 ∨ op = 3 ∧ w.extractLsb' 0 32 ≠ 0#32
      ∨ (op = 5 ∨ op = 7) ∧ w.extractLsb' 32 8 ≠ 0#8 ∨ op = 8 ∧ w.extractLsb' 8 32 ≠ 0#32 := by
  have bitsI : w.extractLsb' 0 32 = 0#32 ↔ reservedZeroI w = true := (reservedZeroI_iff w).symm
  have bitsD : w.extractLsb' 32 8 = 0#8 ↔ reservedZeroD w = true := (reservedZeroD_iff w).symm
  have opEq (v : BitVec 8) : opField w = v ↔ (w.extractLsb' 40 8).toNat = v.toNat := BitVec.toNat_inj.symm
  rw [Bool.eq_false_iff, ne_eq, legalWord_iff, exists_decodesTo_iff]
  simp only [ne_eq, ← reservedZeroN_iff_bits, ← reservedZeroB_iff_bits, bitsI, bitsD, opEq]
  generalize (w.extractLsb' 40 8).toNat = op
  rcases Nat.lt_or_ge op 9 with low | high
  · interval_cases op <;> simp
  · have other (v : Nat) (hv : v < 9) : op ≠ v := (hv.trans_le high).ne'
    simp [other, high]

end Sys2Proof

namespace Sys2Proof.Machine

theorem acceptWord_of_decode {w : Cmd} {i : Instr} (h : decode w = .ok i) (s : State) : acceptWord w s = exec i s := by
  rw [acceptWord, h]

theorem acceptWord_of_illegal {w : Cmd} (illegal : legalWord w = false) (s : State) :
    acceptWord w s = .next (raiseErr s .illegal (opField w)) := by
  cases decoded : decode w with
  | ok i =>
    have legal : legalWord w = true := (legalWord_iff w).mpr ⟨i, .of_decode decoded⟩
    exact absurd (legal.symm.trans illegal) (by decide)
  | error e => rw [acceptWord, decoded]

/-- Settles O5: a word is illegal exactly when it decodes to nothing, and then the block only raises `ILLEGAL`. -/
theorem illegalWordOnlySetsIllegal : Obligations.IllegalWordOnlySetsIllegal := by
  refine ⟨illegalWord_iff, by decide, fun s w rest input illegal => ?_⟩
  rw [step_of_command input, acceptWord_of_illegal illegal]
  rfl

/-- Settles O9: the step accepts the word, and accepting it runs what it decodes to. -/
theorem stepRunsDecodedCommand : Obligations.StepRunsDecodedCommand := by
  intro s w rest i input decoded
  rw [step_of_command input, acceptWord_of_decode decoded]

end Sys2Proof.Machine

namespace Sys2Proof

/-! ### Words and pseudo-commands written out -/

/-- Settles O4: each word is the encoding of its command. -/
theorem writtenWordsDecode : Obligations.WrittenWordsDecode :=
  ⟨decodeOfEncode .rst, decodeOfEncode (.wr 0x00#8 0x472C4400#32), decodeOfEncode (.rd 0x78#8), decodeOfEncode .init,
    decodeOfEncode (.push 0x3F000000#32), decodeOfEncode .flush, decodeOfEncode (.enc 0xBF800000#32),
    decodeOfEncode (.dec 0x80#8)⟩

/-- Settles O6: set `c` begins at index `0x10 + 8 c`, and the configuration registers at index 0. -/
theorem pseudoCommandsExpand : Obligations.PseudoCommandsExpand :=
  ⟨fun _ _ _ _ _ => ⟨rfl, rfl, rfl, rfl⟩, fun _ _ _ _ _ _ => rfl⟩

end Sys2Proof
end

section
/-! The ports (R71, R72): a response is held until it is taken, and an accepted command answers as the command-level
model does. -/

namespace Sys2Proof.Machine

/-! ### One edge without a reset, by the stage of the block -/

theorem PortBlock.cycle_ready {b : PortBlock} {i : PortIn} (ready : b.stage = .ready) (up : i.rst = false) :
    b.cycle i = if i.cmdValid then b.accept i.cmd else b := by
  simp [PortBlock.cycle, up, ready]

theorem PortBlock.cycle_responding {b : PortBlock} {i : PortIn} {r : Response} (presented : b.stage = .responding r)
    (up : i.rst = false) : b.cycle i = if i.rspReady then b.delivered r else b := by
  simp [PortBlock.cycle, up, presented]

/-! ### Delivering a response -/

/-- The block with the response `r` in its log, and the cycles to `cmd_ready` drawn. -/
def PortBlock.logged (b : PortBlock) (r : Response) : PortBlock :=
  { b with regs := b.regs.respond r, waits := b.waits + 1 }

theorem PortBlock.delivered_eq (b : PortBlock) (r : Response) :
    b.delivered r = (b.logged r).recover (Config.readyCycles b.waits) := rfl

/-- Settles O57: a delivered response leaves a recovering block, which counts its cycles down whatever the host does. -/
theorem portHoldsResponse : Obligations.PortHoldsResponse := by
  intro b i r presented up
  have stage := (b.rspOut_eq_some r).mp presented
  have edge := PortBlock.cycle_responding stage up
  refine ⟨by rw [PortBlock.cmdReady, stage], fun busy => by simp [edge, busy], fun taken => ?_⟩
  have delivered : b.cycle i = (b.logged r).recover (Config.readyCycles b.waits) := by
    rw [edge, if_pos taken, PortBlock.delivered_eq]
  refine ⟨by rw [delivered, PortBlock.recover_rspOut], by rw [delivered, PortBlock.recover_regs]; rfl,
    fun is ups few => ?_⟩
  have after : PortBlock.cycles (i :: is) b = _ := (congrArg (PortBlock.cycles is) delivered).trans
    (PortBlock.cycles_recover is ups _ _ few)
  rw [after]
  exact ⟨PortBlock.recover_rspOut .., PortBlock.recover_regs .., fun all => by simp [all]⟩

/-! ### Running a command -/

theorem PortBlock.present_rspOut {b : PortBlock} {t : State} {r : Response} (answered : t.rsps = r :: b.regs.rsps) :
    (b.present t).rspOut = some r := by
  simp [PortBlock.present, PortBlock.rspOut, answered]

/-- Delivering the response that is presented completes the state that the command leaves. -/
theorem PortBlock.present_regs_respond {b : PortBlock} {t : State} {r : Response}
    (answered : t.rsps = r :: b.regs.rsps) : (b.present t).regs.respond r = t := by
  simp [PortBlock.present, State.respond, ← answered]

/-- Settles O58: an accepted command is worked on for as many cycles as were drawn, and then executed. -/
theorem portRunsCommand : Obligations.PortRunsCommand := by
  refine ⟨fun b i ready up => ?_, fun b i is ready valid up ups all => ?_⟩
  · have stage := b.cmdReady_iff.mp ready
    exact ⟨by rw [PortBlock.rspOut, stage], fun invalid => by simp [PortBlock.cycle_ready stage up, invalid]⟩
  · have accepted : b.cycle i = PortBlock.work { b with waits := b.waits + 1 } i.cmd is.length := by
      rw [PortBlock.cycle_ready (b.cmdReady_iff.mp ready) up, if_pos valid, all]
      rfl
    constructor
    · intro n early
      have fewer : (is.take n).length < is.length := by simpa using early
      have working : PortBlock.cycles (i :: is.take n) b = _ := (congrArg (PortBlock.cycles (is.take n)) accepted).trans
        (PortBlock.cycles_work_lt i.cmd (is.take n) (fun j hj => ups j (List.mem_of_mem_take hj)) _ is.length fewer)
      rw [working]
      exact ⟨rfl, rfl, rfl⟩
    · obtain ⟨t, r, next, -, answered, -⟩ := answersOnce_acceptWord i.cmd b.regs
      have executed := PortBlock.cycles_work i.cmd t is ups { b with waits := b.waits + 1 } next
      rw [PortBlock.cycles, accepted, executed]
      exact ⟨t, r, next, answered, PortBlock.present_rspOut answered, PortBlock.present_regs_respond answered⟩

end Sys2Proof.Machine
end

section
/-! The text form of `RD` (R82): its operand is what stands after the mnemonic, and each spelling of a register operand
gives the register's index. -/

namespace Sys2Proof.Machine

/-! ### Operands of plain characters -/

/-- A character that neither ends an operand nor is trimmed off it. -/
def isPlain (x : Char) : Bool := !isBlank x && x ≠ ',' && x ≠ ';'

theorem isPlain_iff (x : Char) : isPlain x = true ↔ isBlank x = false ∧ x ≠ ',' ∧ x ≠ ';' := by
  simp [isPlain, and_assoc]

theorem splitAt_of_not_mem {sep : Char} {l : List Char} (h : sep ∉ l) : splitAt sep l = [l] := by
  induction l with
  | nil => rfl
  | cons x xs ih =>
    rw [List.mem_cons, not_or] at h
    rw [splitAt, if_neg (Ne.symm h.1), ih h.2]

/-- Nothing is trimmed in front of a character that is not blank. -/
theorem dropWhile_isBlank_append {l : List Char} (nonempty : l ≠ []) (noBlank : ∀ x ∈ l, isBlank x = false)
    (rest : List Char) : (l ++ rest).dropWhile isBlank = l ++ rest := by
  cases l with
  | nil => exact absurd rfl nonempty
  | cons x xs => simp [noBlank x List.mem_cons_self]

/-- A text that ends in an operand with nothing to trim in front stays as it is. -/
theorem trimBlanks_append {l : List Char} (nonempty : l ≠ []) (noBlank : ∀ x ∈ l, isBlank x = false)
    {front : List Char} (kept : (front ++ l).dropWhile isBlank = front ++ l) :
    trimBlanks (front ++ l) = front ++ l := by
  rw [trimBlanks, kept, List.reverse_append,
    dropWhile_isBlank_append (List.reverse_ne_nil_iff.mpr nonempty) (by simpa using noBlank), ← List.reverse_append,
    List.reverse_reverse]

theorem trimBlanks_of_noBlank {l : List Char} (nonempty : l ≠ []) (noBlank : ∀ x ∈ l, isBlank x = false) :
    trimBlanks l = l :=
  trimBlanks_append (front := []) nonempty noBlank (by simpa using dropWhile_isBlank_append nonempty noBlank [])

/-- `RD` with an operand of plain characters is `RD` of what the operand names. -/
theorem assembleLine_rd {operand : List Char} (nonempty : operand ≠ []) (plain : ∀ x ∈ operand, isPlain x = true) :
    assembleLine ("RD ".toList ++ operand) = (regOperand operand).map fun i => [.rd i] := by
  simp only [isPlain_iff] at plain
  have noBlank : ∀ x ∈ operand, isBlank x = false := fun x hx => (plain x hx).1
  have oneOperand : splitAt ',' operand = [operand] := splitAt_of_not_mem fun h => (plain _ h).2.1 rfl
  have noComment : ("RD ".toList ++ operand).takeWhile (· ≠ ';') = "RD ".toList ++ operand := by
    simpa [List.takeWhile_eq_self_iff] using fun x hx => (plain x hx).2.2
  have text : trimBlanks ("RD ".toList ++ operand) = "RD ".toList ++ operand :=
    trimBlanks_append nonempty noBlank rfl
  have mnemonic : ("RD ".toList ++ operand).takeWhile (!isBlank ·) = "RD".toList := rfl
  have rest : trimBlanks (("RD ".toList ++ operand).dropWhile (!isBlank ·)) = operand := by
    have blank : isBlank ' ' = true := by decide
    have trimmed : trimBlanks (' ' :: operand) = trimBlanks operand := by
      rw [trimBlanks, List.dropWhile_cons_of_pos blank, ← trimBlanks]
    exact trimmed.trans (trimBlanks_of_noBlank nonempty noBlank)
  simp only [assembleLine, noComment, text, mnemonic, rest, if_neg nonempty, oneOperand, List.map_cons,
    List.map_nil, trimBlanks_of_noBlank nonempty noBlank]
  rfl

/-! ### The spellings of an operand -/

theorem Reg.names_plain (r : Reg) : ∀ n ∈ r.names, n ≠ [] ∧ ∀ x ∈ n, isPlain x = true := by
  have table : ∀ r ∈ Reg.all, ∀ n ∈ r.names, n ≠ [] ∧ n.all isPlain = true := by decide +kernel
  simp only [List.all_eq_true] at table
  exact table r r.mem_all

/-- No two registers share a name. -/
theorem regOperand_of_mem_names (r : Reg) : ∀ n ∈ r.names, regOperand n = some r.index := by
  have table : ∀ r ∈ Reg.all, ∀ n ∈ r.names, regOperand n = some r.index := by decide +kernel
  exact table r r.mem_all

/-- The hexadecimal digits of an operand `#0xNN`. -/
def hexDigit (i : Fin 16) : Char := "0123456789ABCDEF".toList[i.val]!

theorem digitValue_hexDigit : ∀ i : Fin 16, digitValue 16 (hexDigit i) = some i.val := by decide +kernel

theorem isPlain_hexDigit : ∀ i : Fin 16, isPlain (hexDigit i) = true := by decide +kernel

theorem regOperand_hex (i j : Fin 16) :
    regOperand ['#', '0', 'x', hexDigit i, hexDigit j] = some (BitVec.ofNat 8 (16 * i.val + j.val)) := by
  simp [regOperand, hexNumber, number, digitsFrom, digitValue_hexDigit, Nat.mul_comm]

/-- Settles O7: the operand is all plain characters, so the line is `RD` of what it names. -/
theorem registerNamesAssemble : Obligations.RegisterNamesAssemble := by
  constructor
  · intro r n hn
    obtain ⟨nonempty, plain⟩ := r.names_plain n hn
    rw [assembleLine_rd nonempty plain, regOperand_of_mem_names r n hn]
    rfl
  · intro i j
    have plain : ∀ x ∈ ['#', '0', 'x', hexDigit i, hexDigit j], isPlain x = true := by
      have start : ['#', '0', 'x'].all isPlain = true := by decide +kernel
      simpa [isPlain_hexDigit] using start
    have line := assembleLine_rd (List.cons_ne_nil _ _) plain
    rw [regOperand_hex] at line
    exact line

end Sys2Proof.Machine
end

section
/-! `RD` and `WR` (R92, R93): the register that an index names is read whole, and written alone. -/

namespace Sys2Proof.Machine

/-! ### `RD` -/

/-- In every phase `RD` answers with the register whole, and does nothing else (R93). -/
theorem exec_rd_index (r : Reg) (s : State) : exec (.rd r.index) s = .next (s.respond (dataRsp (readReg s r))) :=
  exec_rd_of_ofIndex r.ofIndex_index s

/-- Settles O14: Table R21, register by register. -/
theorem rdReturnsRegister : Obligations.RdReturnsRegister := fun s =>
  ⟨exec_rd_index .sr s, exec_rd_index .bps s, exec_rd_index .fLlp s, exec_rd_index .fLhp s, exec_rd_index .fHlp s,
    exec_rd_index .fHhp s, fun c k => exec_rd_index (.coef c k) s, fun i j => exec_rd_index (.z i j) s,
    fun b => exec_rd_index (.peak b) s, fun b => exec_rd_index (.rmsSum b) s, exec_rd_index .spb s,
    exec_rd_index .pend s, exec_rd_index .nacc s, exec_rd_index .lastn s, exec_rd_index .phase s,
    exec_rd_index .errstat s⟩

/-! ### Reading after a write -/

theorem readReg_writeReg_same {r : Reg} (writable : r.writable = true) (s : State) (data : F32) :
    readReg (writeReg s r data) r = data.setWidth 64 := by
  cases r with
  | coef c k => simp [readReg, writeReg]
  | sr => rfl
  | bps => rfl
  | fLlp => rfl
  | fLhp => rfl
  | fHlp => rfl
  | fHhp => rfl
  | _ => cases writable

/-- Writing one coefficient keeps the other sets, and the other coefficients of its own set. -/
theorem coef_set_of_ne (coef : Vector (Vector F32 5) 4) {c c' : Fin 4} {k k' : Fin 5} (data : F32)
    (other : c' ≠ c ∨ k' ≠ k) : (coef.set c (coef[c].set k data))[c'][k'] = coef[c'][k'] := by
  by_cases sameSet : c' = c
  · subst sameSet
    have otherCoef : k.val ≠ k'.val := fun e => other.resolve_left (not_not.mpr rfl) (Fin.ext e.symm)
    simp [Vector.getElem_set_ne, otherCoef]
  · have otherSet : c.val ≠ c'.val := fun e => sameSet (Fin.ext e.symm)
    simp [Vector.getElem_set_ne, otherSet]

theorem readReg_writeReg_of_ne {r r' : Reg} (other : r' ≠ r) (s : State) (data : F32) :
    readReg (writeReg s r data) r' = readReg s r' := by
  cases r with
  | coef c k =>
    cases r' with
    | coef c' k' =>
      have other : c' ≠ c ∨ k' ≠ k := by
        rw [← not_and_or]
        rintro ⟨rfl, rfl⟩
        exact other rfl
      exact congrArg (BitVec.setWidth 64) (coef_set_of_ne s.coef data other)
    | _ => rfl
  | _ => cases r' <;> simp [readReg, writeReg] at other ⊢

/-! ### `WR` -/

theorem writeReg_ports (s : State) (r : Reg) (data : F32) : (writeReg s r data).rsps = s.rsps
    ∧ (writeReg s r data).inputs = s.inputs ∧ (writeReg s r data).draws = s.draws := by
  rw [writeReg_eq]
  exact ⟨rfl, rfl, rfl⟩

theorem exec_wr_of_idle {s : State} {i : BitVec 8} {r : Reg} (idle : s.phase = phaseIdle)
    (named : Reg.ofIndex i = some r) (writable : r.writable = true) (data : F32) :
    exec (.wr i data) s = .next ((writeReg s r data).respond ackRsp) := by
  change execWr i data s = _
  rw [execWr, if_neg (not_not.mpr idle), named]
  exact if_pos writable

/-- A writable index names a register, and that register is writable. -/
theorem Reg.exists_of_writableIndex {i : BitVec 8} (h : writableIndex i = true) :
    ∃ r, Reg.ofIndex i = some r ∧ r.writable = true := by
  obtain ⟨r, named⟩ := Reg.exists_of_assignedIndex (i := i) (by simp [assignedIndex, h])
  refine ⟨r, named, ?_⟩
  rw [r.writable_eq_writableIndex, (Reg.ofIndex_eq_some_iff i r).mp named, h]

/-- An index that does not name the register written reads as before: no two registers share one (R50). -/
theorem readIndex_writeReg_of_ne {i j : BitVec 8} {r : Reg} (named : Reg.ofIndex i = some r) (other : j ≠ i)
    (s : State) (data : F32) : readIndex j (writeReg s r data) = readIndex j s := by
  refine Option.map_congr fun r' named' => readReg_writeReg_of_ne ?_ s data
  rintro rfl
  exact other (((Reg.ofIndex_eq_some_iff j r').mp named').symm.trans ((Reg.ofIndex_eq_some_iff i r').mp named))

@[simp] theorem readIndex_respond (i : BitVec 8) (s : State) (rsp : Response) :
    readIndex i (s.respond rsp) = readIndex i s :=
  Option.map_congr fun r _ => readReg_respond s rsp r

/-- Settles O15: the write reaches the one register that the index names. -/
theorem wrStoresPatternOnly : Obligations.WrStoresPatternOnly := by
  intro s i data idle writable
  obtain ⟨r, named, writable⟩ := Reg.exists_of_writableIndex writable
  obtain ⟨rsps, inputs, draws⟩ := writeReg_ports s r data
  refine ⟨_, exec_wr_of_idle idle named writable data, congrArg (ackRsp :: ·) rsps, inputs, draws, ?_,
    fun j other => ?_⟩
  · rw [readIndex_respond, readIndex, named, Option.map_some, readReg_writeReg_same writable]
  · rw [readIndex_respond, readIndex_writeReg_of_ne named other]

end Sys2Proof.Machine
end

section
/-! `INIT` (R94 to R96): the mask of the failed checks, the quotient that `SPB` is derived from, and what the block does
with a configuration of either kind. -/

namespace Sys2Proof.Machine

/-! ### The six checks -/

theorem finitePositive_iff (f : F32) :
    finitePositive f = true ↔ isFinite32 f = true ∧ f32gt f 0x00000000#32 = true := Bool.and_eq_true_iff

theorem inRange_iff (f : F32) :
    inRange f = true ↔ f32le 0x41A00000#32 f = true ∧ f32le f 0x469C4000#32 = true := Bool.and_eq_true_iff

/-- Check 2 of R95: all four frequencies are in range. -/
theorem all_inRange_iff (c : Cfg) :
    (inRange c.fLlp && inRange c.fLhp && inRange c.fHlp && inRange c.fHhp) = true
      ↔ ∀ f ∈ [c.fLlp, c.fLhp, c.fHlp, c.fHhp], f32le 0x41A00000#32 f = true ∧ f32le f 0x469C4000#32 = true := by
  simp [← inRange_iff, and_assoc]

/-- Six bits, the highest first, read one by one. -/
theorem getLsbD_six_bits (b5 b4 b3 b2 b1 b0 : Bool) :
    let d : BitVec 6 := BitVec.ofBool b5 ++ BitVec.ofBool b4 ++ BitVec.ofBool b3 ++ BitVec.ofBool b2
      ++ BitVec.ofBool b1 ++ BitVec.ofBool b0
    d.getLsbD 0 = b0 ∧ d.getLsbD 1 = b1 ∧ d.getLsbD 2 = b2 ∧ d.getLsbD 3 = b3 ∧ d.getLsbD 4 = b4
      ∧ d.getLsbD 5 = b5 := by
  revert b5 b4 b3 b2 b1 b0; decide

/-- The `n`-th bit of the mask is 1 when the `n`-th check of R95 fails. -/
theorem validate_bits (c : Cfg) :
    (validate c).getLsbD 0 = !finitePositive c.sr ∧ (validate c).getLsbD 1 = !finitePositive c.bps
      ∧ (validate c).getLsbD 2 = !(inRange c.fLlp && inRange c.fLhp && inRange c.fHlp && inRange c.fHhp)
      ∧ (validate c).getLsbD 3 = !f32le c.fLhp c.fLlp ∧ (validate c).getLsbD 4 = !f32lt c.fLlp c.fHhp
      ∧ (validate c).getLsbD 5 = !f32le c.fHhp c.fHlp :=
  getLsbD_six_bits ..

/-- A configuration that passes every check has the mask 0. -/
theorem validate_eq_zero {c : Cfg} (sr : finitePositive c.sr = true) (bps : finitePositive c.bps = true)
    (range : (inRange c.fLlp && inRange c.fLhp && inRange c.fHlp && inRange c.fHhp) = true)
    (low : f32le c.fLhp c.fLlp = true) (mid : f32lt c.fLlp c.fHhp = true) (high : f32le c.fHhp c.fHlp = true) :
    validate c = 0#6 := by
  rw [validate, sr, bps, range, low, mid, high]
  rfl

/-! ### The quotient `SR / BPS` -/

/-- A quotient that is no NaN does not depend on the draw (R12). -/
theorem f32div_eq_of_not_nan {k : Nat} {a b : F32} (number : isNaN32 (f32div k a b) = false) (k' : Nat) :
    f32div k a b = f32div k' a b :=
  (deliver32_congr k k' _).resolve_right fun ⟨nan, _⟩ => by rw [f32div, nan] at number; cases number

/-- A finite pattern above zero stands for a number of units that is not 0. -/
theorem exists_units_of_finitePositive {f : F32} (h : finitePositive f = true) :
    ∃ m : Nat, m ≠ 0 ∧ value32 f = .finite f.msb m := by
  obtain ⟨finite, positive⟩ := (finitePositive_iff f).mp h
  obtain ⟨m, value, -⟩ := exists_units32 f finite
  refine ⟨m, ?_, value⟩
  rintro rfl
  rw [f32gt, f32lt, value, show value32 0x00000000#32 = .finite false 0 by decide, FpValue.lt_finite_iff] at positive
  cases sign : f.msb <;> simp [sign, signed] at positive

/-- Neither of the invalid divisions of R12, `0/0` and `inf/inf`, is one of a finite number by a positive one. -/
theorem isNaN32_f32div_of_finitePositive (k : Nat) {a b : F32} (ha : isFinite32 a = true)
    (hb : finitePositive b = true) : isNaN32 (f32div k a b) = false := by
  obtain ⟨m, va, -⟩ := exists_units32 a ha
  obtain ⟨l, nonzero, vb⟩ := exists_units_of_finitePositive hb
  rw [f32div, va, vb, exactDiv, if_neg nonzero]
  exact isNaN32_deliver32_ratio ..

/-! ### `INIT` in `IDLE` -/

theorem exec_init_of_valid {s : State} (idle : s.phase = phaseIdle) (valid : validate s.cfg = 0#6) :
    exec .init s = .next ((construct s).respond ackRsp) := by
  change execInit s = _
  rw [execInit, if_neg (not_not.mpr idle)]
  exact if_neg (not_not.mpr valid)

theorem exec_init_of_invalid {s : State} (idle : s.phase = phaseIdle) (invalid : validate s.cfg ≠ 0#6) :
    exec .init s = .next (raiseErr s .config ((validate s.cfg).setWidth 8)) := by
  change execInit s = _
  rw [execInit, if_neg (not_not.mpr idle)]
  exact if_pos invalid

/-- Settles O22: the configuration passes `Validate()`, so the block is constructed, from a quotient of numbers. -/
theorem initConstructs : Obligations.InitConstructs := by
  intro s idle srFinite srPositive bpsFinite bpsPositive range low mid high
  have sr := (finitePositive_iff _).mpr ⟨srFinite, srPositive⟩
  have bps := (finitePositive_iff _).mpr ⟨bpsFinite, bpsPositive⟩
  have valid := validate_eq_zero sr bps ((all_inRange_iff s.cfg).mpr range) low mid high
  have number := isNaN32_f32div_of_finitePositive s.draws srFinite bps
  exact ⟨_, f32div_eq_of_not_nan number, number, exec_init_of_valid idle valid⟩

/-- Settles O23: the mask is that of `Validate()`, and `INIT` goes by whether it is 0. -/
theorem initReportsFailedChecks : Obligations.InitReportsFailedChecks := by
  intro s idle
  obtain ⟨sr, bps, range, low, mid, high⟩ := validate_bits s.cfg
  refine ⟨validate s.cfg, ?_, ?_, ?_, ?_, ?_, ?_, exec_init_of_invalid idle, fun valid => ?_⟩
  · rw [sr, Bool.not_eq_true', ← Bool.not_eq_true, finitePositive_iff]
  · rw [bps, Bool.not_eq_true', ← Bool.not_eq_true, finitePositive_iff]
  · rw [range, Bool.not_eq_true', ← Bool.not_eq_true, all_inRange_iff]
  · rw [low, Bool.not_eq_true', ← Bool.not_eq_true]
  · rw [mid, Bool.not_eq_true', ← Bool.not_eq_true]
  · rw [high, Bool.not_eq_true', ← Bool.not_eq_true]
  · exact ⟨_, exec_init_of_valid idle valid, rfl, rfl⟩

end Sys2Proof.Machine
end

section
/-! The biquad section (R111) on zeros (R112) and with pass-through coefficients (R114), through what its nine operations
give on zeros of either sign. -/

namespace Sys2Proof.Machine

/-! ### Zeros of either sign -/

theorem isZero32_iff (a : F32) : isZero32 a = true ↔ ∃ n, a = signedZero32 n := by
  simp [isZero32, signedZero32]

@[simp] theorem isZero32_signedZero32 (n : Bool) : isZero32 (signedZero32 n) = true := (isZero32_iff _).mpr ⟨n, rfl⟩

@[simp] theorem isFinite32_signedZero32 (n : Bool) : isFinite32 (signedZero32 n) = true := by revert n; decide

/-- A delay pair of zeros is one of four. -/
theorem exists_signedZeros {d : Vector F32 2} (h0 : isZero32 d[0] = true) (h1 : isZero32 d[1] = true) :
    ∃ p q, d = #v[signedZero32 p, signedZero32 q] := by
  obtain ⟨p, hp⟩ := (isZero32_iff _).mp h0
  obtain ⟨q, hq⟩ := (isZero32_iff _).mp h1
  refine ⟨p, q, Vector.ext fun j hj => ?_⟩
  match j, hj with
  | 0, _ => exact hp
  | 1, _ => exact hq

/-! ### The operations on zeros -/

@[simp] theorem f32add_signedZeros (k : Nat) (n m : Bool) :
    f32add k (signedZero32 n) (signedZero32 m) = signedZero32 (n && m) := by
  rw [f32add, value32_signedZero32, value32_signedZero32, exactAdd_of_sum_zero _ _ _ _ (by simp [signed]), deliver32_zero]

@[simp] theorem f32sub_signedZeros (k : Nat) (n m : Bool) :
    f32sub k (signedZero32 n) (signedZero32 m) = signedZero32 (n && !m) := by
  rw [f32sub, value32_signedZero32, value32_signedZero32, FpValue.negate,
    exactAdd_of_sum_zero _ _ _ _ (by simp [signed]), deliver32_zero]

/-- A finite number times a zero is a zero, of the product's sign. -/
theorem f32mul_signedZero (k : Nat) {a : F32} (ha : isFinite32 a = true) (n : Bool) :
    f32mul k a (signedZero32 n) = signedZero32 (a.msb != n) := by
  rw [f32mul, value32_finite a ha, value32_signedZero32, exactMul, Nat.mul_zero, deliver32_zero]

theorem f32mul_signedZero_left (k : Nat) (n : Bool) {a : F32} (ha : isFinite32 a = true) :
    f32mul k (signedZero32 n) a = signedZero32 (n != a.msb) := by
  rw [f32mul, value32_finite a ha, value32_signedZero32, exactMul, Nat.zero_mul, deliver32_zero]

/-- Adding a finite number other than 0 to a zero gives the number back, bit for bit. -/
theorem f32add_signedZero_left (k : Nat) (n : Bool) {a : F32} (ha : isFinite32 a = true) (nonzero : isZero32 a = false) :
    f32add k (signedZero32 n) a = a := by
  have units : binary32.mag (a.toNat % 0x80000000) ≠ 0 := mt (mag32_eq_zero_iff a).mp (by simp [nonzero])
  have exact_sum : exactAdd (.finite n 0) (.finite a.msb (binary32.mag (a.toNat % 0x80000000)))
      = .ratio a.msb (1 * binary32.mag (a.toNat % 0x80000000)) 1 := by
    by_cases sign : n = a.msb <;> simp [exactAdd, sign, units.symm]
  rw [f32add, value32_signedZero32, value32_finite a ha, exact_sum, deliver32_exact k a ha 1 one_pos]

/-- 1.0 times a finite number is the number, bit for bit. -/
theorem f32mul_one_left (k : Nat) {a : F32} (ha : isFinite32 a = true) : f32mul k f32One a = a := by
  have one : value32 f32One = .finite false (2 ^ binary32.unitExp) := by decide
  rw [f32mul, one, value32_finite a ha, exactMul, Bool.false_bne, deliver32_exact k a ha _ (Nat.two_pow_pos _)]

/-! ### A section on zeros (R112) -/

theorem each_coefficient (f : F32 → Bool) {co : Vector F32 5} {b : Bool} (h : ∀ j : Fin 5, f co[j] = b) :
    f co[0] = b ∧ f co[1] = b ∧ f co[2] = b ∧ f co[3] = b ∧ f co[4] = b :=
  ⟨h 0, h 1, h 2, h 3, h 4⟩

/-- The signs of the zeros that a section with finite coefficients makes of zeros. -/
theorem biquad_signedZeros (k : Nat) {co : Vector F32 5} (finite : ∀ j : Fin 5, isFinite32 co[j] = true) (p q n : Bool) :
    let y := p && (co[0].msb != n)
    biquad k co #v[signedZero32 p, signedZero32 q] (signedZero32 n)
      = (signedZero32 y, #v[signedZero32 ((q && (co[1].msb != n)) && !(co[3].msb != y)),
          signedZero32 ((co[2].msb != n) && !(co[4].msb != y))]) := by
  obtain ⟨finite0, finite1, finite2, finite3, finite4⟩ := each_coefficient isFinite32 finite
  simp [biquad, f32mul_signedZero, *]

/-- Settles O37: with finite coefficients every product of the section has a zero for its second factor. -/
theorem biquadKeepsZeros : Obligations.BiquadKeepsZeros := by
  intro k co d x finite d0 d1 hx
  obtain ⟨p, q, rfl⟩ := exists_signedZeros d0 d1
  obtain ⟨n, rfl⟩ := (isZero32_iff x).mp hx
  rw [biquad_signedZeros k finite p q n]
  exact ⟨isZero32_signedZero32 _, isZero32_signedZero32 _, isZero32_signedZero32 _⟩

/-! ### Pass-through coefficients (R114) -/

theorem finite_passThrough : ∀ j : Fin 5, isFinite32 passThrough[j] = true := by decide

/-- A finite sample other than 0 passes, and any pair of zeros is a pair of `+0.0` afterwards: the products of the zero
coefficients with the sample and with the output have one sign. -/
theorem biquad_passThrough_of_nonzero (k : Nat) (p q : Bool) {x : F32} (finite : isFinite32 x = true)
    (nonzero : isZero32 x = false) :
    biquad k passThrough #v[signedZero32 p, signedZero32 q] x = (x, #v[signedZero32 false, signedZero32 false]) := by
  have coefficients : passThrough = #v[f32One, signedZero32 false, signedZero32 false, signedZero32 false,
      signedZero32 false] := rfl
  simp [biquad, coefficients, f32mul_one_left, f32mul_signedZero_left, f32add_signedZero_left, finite, nonzero,
    Bool.and_assoc]

/-- Of a zero, the section makes `-0.0` only if the delay and the sample both are. -/
theorem biquad_passThrough_signedZeros (k : Nat) (p q n : Bool) :
    biquad k passThrough #v[signedZero32 p, signedZero32 q] (signedZero32 n)
      = (signedZero32 (p && n), #v[signedZero32 ((q && n) && !(p && n)), signedZero32 (n && !(p && n))]) := by
  obtain ⟨one, zero1, zero2, zero3, zero4⟩ := each_coefficient BitVec.msb (co := passThrough) (b := false) (by decide)
  rw [biquad_signedZeros k finite_passThrough, one, zero1, zero2, zero3, zero4]
  simp only [Bool.false_bne]

/-- Settles O36, by whether the sample is a zero. -/
theorem passThroughSection : Obligations.PassThroughSection := by
  refine ⟨fun k x finite nonzero => biquad_passThrough_of_nonzero k false false finite nonzero,
    fun k => biquad_passThrough_signedZeros k false false false,
    fun k => biquad_passThrough_signedZeros k false false true, ?_⟩
  intro k d x d0 d1 finite
  obtain ⟨p, q, rfl⟩ := exists_signedZeros d0 d1
  cases hx : isZero32 x with
  | false =>
    rw [biquad_passThrough_of_nonzero k p q finite hx]
    exact ⟨isZero32_signedZero32 false, isZero32_signedZero32 false, fun _ => rfl, fun zero => by simp at zero⟩
  | true =>
    obtain ⟨n, rfl⟩ := (isZero32_iff x).mp hx
    rw [biquad_passThrough_signedZeros]
    exact ⟨isZero32_signedZero32 _, isZero32_signedZero32 _, fun nonzero => by simp at nonzero,
      fun _ => isZero32_signedZero32 _⟩

end Sys2Proof.Machine
end

section
/-! A NaN in the first delay register of a section stays (R113): each section step keeps it, so the bank does, and no
other effect of a command outside `IDLE` reaches a delay register but that of `RST`. -/

namespace Sys2Proof.Machine

/-- The output is a NaN, so its product with `a1` is, and so is the new first delay. -/
theorem biquad_of_nan_delay (k : Nat) (co : Vector F32 5) {d : Vector F32 2} (x : F32) (nan : isNaN32 d[0] = true) :
    isNaN32 (biquad k co d x).2[0] = true := by
  obtain ⟨output, -⟩ := f32_nan_operand (k + 1) d[0] (f32mul k co[0] x) (.inl nan)
  obtain ⟨-, -, product, -⟩ := f32_nan_operand (k + 4) co[3] _ (.inr output)
  obtain ⟨-, difference, -⟩ := f32_nan_operand (k + 5) (f32add (k + 3) d[1] (f32mul (k + 2) co[1] x)) _ (.inr product)
  exact difference

/-- The section `j` holds a NaN in its first delay register. -/
def NaNInFirstDelay (j : Fin 8) (s : State) : Prop := isNaN32 s.z[j][0] = true

section
variable {j : Fin 8} {s : State} (h : NaNInFirstDelay j s)
include h

theorem biquadStep_keeps_nan (i : Fin 8) (x : F32) : NaNInFirstDelay j (biquadStep i x s).2 := by
  rw [biquadStep_eq]
  by_cases same : i = j
  · subst same
    simpa [NaNInFirstDelay] using biquad_of_nan_delay s.draws s.coef[sectionSet i] x h
  · have other : i.val ≠ j.val := fun e => same (Fin.ext e)
    simpa [NaNInFirstDelay, Vector.getElem_set_ne, other] using h

/-- The bank is eight section steps. -/
theorem bankStep_keeps_nan (x : F32) : NaNInFirstDelay j (bankStep x s).2 := by
  have step {s : State} (h : NaNInFirstDelay j s) (i : Fin 8) (x : F32) := biquadStep_keeps_nan h i x
  exact step (step (step (step (step (step (step (step h 0 _) 1 _) 2 _) 3 _) 4 _) 5 _) 6 _) 7 _

theorem feed_keeps_nan (x : F32) : NaNInFirstDelay j (feed x s) := by
  have flagged : NaNInFirstDelay j (s.setFlags (nonfinFlags x)) := h
  rw [feed_eq]
  exact bankStep_keeps_nan flagged x

end

theorem flushWindow_z (s : State) : (flushWindow s).2.z = s.z := by
  by_cases h : s.nacc = 0#32
  · rw [flushWindow_of_empty h]
  · rw [flushWindow_of_samples h, finishAll_eq]

/-- Settles O38: but for `RST`, and for `INIT`, which is taken in `IDLE`, only `PUSH` moves a delay register. -/
theorem naNDelayStays : Obligations.NaNDelayStays := by
  intro s t i j notIdle hi h nan
  cases effect_of_exec h with
  | reset => exact absurd rfl hi
  | rejected => exact nan
  | written idx data r idle _ _ => exact absurd idle notIdle
  | answered => exact nan
  | constructed idle valid => exact absurd idle notIdle
  | fed x run =>
    obtain ⟨-, -, boundaryZ, -⟩ := boundary_frame s
    have held : NaNInFirstDelay j (boundary s).2 := by rw [NaNInFirstDelay, boundaryZ]; exact nan
    exact feed_keeps_nan held x
  | flushed run =>
    rw [State.respond_z, flushWindow_z]
    exact nan

end Sys2Proof.Machine
end

section
/-! The biquad section (R111) on infinities (R113), and on the vectors of 95_test_vectors.md. -/

namespace Sys2Proof.Machine

/-! ### Infinities -/

theorem f32mul_signedInf (k : Nat) {a : F32} (ha : isFinite32 a = true) (nonzero : isZero32 a = false) (n : Bool) :
    f32mul k a (signedInf32 n) = signedInf32 (a.msb != n) := by
  obtain ⟨-, -, -, -, product, -⟩ := f32_inf_finite k n a ha
  exact (product nonzero).2

theorem f32add_signedInf (k : Nat) {a : F32} (ha : isFinite32 a = true) (n : Bool) :
    f32add k a (signedInf32 n) = signedInf32 n ∧ f32add k (signedInf32 n) a = signedInf32 n := by
  obtain ⟨left, right, -⟩ := f32_inf_finite k n a ha
  exact ⟨right, left⟩

theorem f32sub_signedInf (k : Nat) {a : F32} (ha : isFinite32 a = true) (n : Bool) :
    f32sub k a (signedInf32 n) = signedInf32 (!n) := by
  obtain ⟨-, -, -, difference, -⟩ := f32_inf_finite k n a ha
  exact difference

/-- An infinite sample after zeros: the four products with it are infinities, and whether the two differences are numbers
depends on the signs. -/
theorem biquad_of_inf (k : Nat) {co : Vector F32 5} (finite : ∀ j : Fin 5, isFinite32 co[j] = true)
    (nonzero : ∀ j : Fin 5, isZero32 co[j] = false) (p q n : Bool) :
    let y := co[0].msb != n
    biquad k co #v[signedZero32 p, signedZero32 q] (signedInf32 n)
      = (signedInf32 y, #v[f32sub (k + 5) (signedInf32 (co[1].msb != n)) (signedInf32 (co[3].msb != y)),
          f32sub (k + 8) (signedInf32 (co[2].msb != n)) (signedInf32 (co[4].msb != y))]) := by
  obtain ⟨finite0, finite1, finite2, finite3, finite4⟩ := each_coefficient isFinite32 finite
  obtain ⟨nonzero0, nonzero1, nonzero2, nonzero3, nonzero4⟩ := each_coefficient isZero32 nonzero
  simp [biquad, f32mul_signedInf, f32add_signedInf, *]

/-- A zero sample after an infinity and a NaN: the infinity comes out, the NaN changes its register, and the last product
puts an infinity in its place. -/
theorem biquad_after_inf (k : Nat) {co : Vector F32 5} (finite : ∀ j : Fin 5, isFinite32 co[j] = true)
    (nonzero : isZero32 co[4] = false) (m n : Bool) {q : F32} (nan : isNaN32 q = true) :
    let r := biquad k co #v[signedInf32 m, q] (signedZero32 n)
    r.1 = signedInf32 m ∧ isNaN32 r.2[0] = true ∧ r.2[1] = signedInf32 (!(co[4].msb != m)) := by
  obtain ⟨finite0, -, finite2, -, finite4⟩ := each_coefficient isFinite32 finite
  have output : (biquad k co #v[signedInf32 m, q] (signedZero32 n)).1 = signedInf32 m := by
    simp [biquad, f32mul_signedZero, f32add_signedInf, finite0]
  obtain ⟨sum, -⟩ := f32_nan_operand (k + 3) q (f32mul (k + 2) co[1] (signedZero32 n)) (.inl nan)
  obtain ⟨-, difference, -⟩ := f32_nan_operand (k + 5) _
    (f32mul (k + 4) co[3] (biquad k co #v[signedInf32 m, q] (signedZero32 n)).1) (.inl sum)
  refine ⟨output, difference, ?_⟩
  change f32sub (k + 8) (f32mul (k + 6) co[2] (signedZero32 n))
    (f32mul (k + 7) co[4] (biquad k co #v[signedInf32 m, q] (signedZero32 n)).1) = _
  rw [output, f32mul_signedZero _ finite2, f32mul_signedInf _ finite4 nonzero,
    f32sub_signedInf _ (isFinite32_signedZero32 _)]

/-! ### The vectors -/

/-- What does not depend on the draw but for a NaN's payload, and is a number for one draw, is it for every draw (R12). -/
theorem SameUpToNaN32.eq_number {a b c : F32} (h : SameUpToNaN32 a b) (value : b = c) (number : isNaN32 c = false) :
    a = c := by
  subst value
  exact h.resolve_right fun ⟨_, nan⟩ => by rw [nan] at number; cases number

/-- The three results of a section, if they are numbers for the draws from 0, are the same for all draws. -/
theorem biquad_eq_of_draw_zero (k : Nat) {co : Vector F32 5} {d d' : Vector F32 2} {x y : F32}
    (value : biquad 0 co d x = (y, d')) (numbers : isNaN32 y = false ∧ isNaN32 d'[0] = false ∧ isNaN32 d'[1] = false) :
    biquad k co d x = (y, d') := by
  obtain ⟨hy, h0, h1⟩ := numbers
  rw [← value]
  exact biquad_of_not_nan k 0 co d x (by rw [value]; exact hy) (by rw [value]; exact h0) (by rw [value]; exact h1)

/-- Settles O35: no result is a NaN, so the draws from 0 give those of all. -/
theorem biquadIsNotFused : Obligations.BiquadIsNotFused := fun k =>
  ⟨(f32mul_congr (.inl rfl) (.inl rfl) k 0).eq_number (by decide) (by decide),
    (biquad_congr k 0 _ _ (.inl rfl)).1.eq_number (by decide) (by decide)⟩

/-- The coefficient set `LLP` of Table R126. -/
def llpSet : Vector F32 5 := #v[0x39A230D3#32, 0x3A2230D3#32, 0x39A230D3#32, 0xBFF98DB8#32, 0x3F736C89#32]

theorem finite_llpSet : ∀ j : Fin 5, isFinite32 llpSet[j] = true := by decide

theorem nonzero_llpSet : ∀ j : Fin 5, isZero32 llpSet[j] = false := by decide

/-- V23, first step: `+inf - -inf` is a number, `+inf - +inf` is not. -/
theorem llpSet_of_inf (k : Nat) :
    let r := biquad k llpSet #v[0x00000000#32, 0x00000000#32] 0x7F800000#32
    r.1 = 0x7F800000#32 ∧ r.2[0] = 0x7F800000#32 ∧ isNaN32 r.2[1] = true := by
  have step : biquad k llpSet #v[0x00000000#32, 0x00000000#32] 0x7F800000#32
      = (signedInf32 false, #v[f32sub (k + 5) (signedInf32 false) (signedInf32 (!false)),
          f32sub (k + 8) (signedInf32 false) (signedInf32 false)]) :=
    biquad_of_inf k finite_llpSet nonzero_llpSet false false false
  obtain ⟨-, number, -⟩ := f32_inf_inf (k + 5) false false
  obtain ⟨-, nan, -⟩ := f32_invalid (k + 8) false false
  rw [step]
  exact ⟨rfl, number, nan⟩

/-- Settles O34: V20 and V21 are runs of numbers, evaluated for the draws from 0; V23 is a run through an infinity. -/
theorem biquadWorkedExample : Obligations.BiquadWorkedExample := by
  intro k
  refine ⟨?_, ?_, ?_, ?_, ?_, ?_, ?_, ?_, ?_, llpSet_of_inf k,
    fun q nan => biquad_after_inf k finite_llpSet (nonzero_llpSet 4) false false nan⟩
  all_goals exact biquad_eq_of_draw_zero k (by decide +kernel) (by decide)

end Sys2Proof.Machine
end

section
/-! The bands of the bank are independent (R116, R122): each of the three chains is a function of its own coefficient sets
and sections, up to the payloads of NaNs. -/

namespace Sys2Proof.Machine

/-- Two results of a section, output and new delay pair, that are equal up to NaN payloads. -/
def SameResult (r r' : F32 × Vector F32 2) : Prop :=
  SameUpToNaN32 r.1 r'.1 ∧ ∀ j : Fin 2, SameUpToNaN32 r.2[j] r'.2[j]

/-- Sections in series pass the agreement on: equal registers, and samples that agree, give results that agree. -/
theorem sameResult_biquad (k k' : Nat) {co co' : Vector F32 5} {d d' : Vector F32 2} {x x' : F32} (coefs : co = co')
    (delays : d = d') (sample : SameUpToNaN32 x x') : SameResult (biquad k co d x) (biquad k' co' d' x') := by
  subst coefs delays
  exact biquad_congr k k' co d sample

section
variable {s s' : State} (x : F32)

theorem lowChain_congr (set0 : s.coef[0] = s'.coef[0]) (delays0 : s.z[0] = s'.z[0]) (delays1 : s.z[1] = s'.z[1]) :
    SameResult (lowChain x s).1 (lowChain x s').1 ∧ SameResult (lowChain x s).2 (lowChain x s').2 := by
  have section0 : SameResult (lowChain x s).1 (lowChain x s').1 := sameResult_biquad _ _ set0 delays0 (.inl rfl)
  exact ⟨section0, sameResult_biquad _ _ set0 delays1 section0.1⟩

theorem midChain_congr (set1 : s.coef[1] = s'.coef[1]) (set2 : s.coef[2] = s'.coef[2]) (delays2 : s.z[2] = s'.z[2])
    (delays3 : s.z[3] = s'.z[3]) (delays4 : s.z[4] = s'.z[4]) (delays5 : s.z[5] = s'.z[5]) :
    SameResult (midChain x s).1 (midChain x s').1 ∧ SameResult (midChain x s).2.1 (midChain x s').2.1
      ∧ SameResult (midChain x s).2.2.1 (midChain x s').2.2.1
      ∧ SameResult (midChain x s).2.2.2 (midChain x s').2.2.2 := by
  have section2 : SameResult (midChain x s).1 (midChain x s').1 := sameResult_biquad _ _ set1 delays2 (.inl rfl)
  have section3 : SameResult (midChain x s).2.1 (midChain x s').2.1 := sameResult_biquad _ _ set1 delays3 section2.1
  have section4 : SameResult (midChain x s).2.2.1 (midChain x s').2.2.1 :=
    sameResult_biquad _ _ set2 delays4 section3.1
  exact ⟨section2, section3, section4, sameResult_biquad _ _ set2 delays5 section4.1⟩

theorem highChain_congr (set3 : s.coef[3] = s'.coef[3]) (delays6 : s.z[6] = s'.z[6]) (delays7 : s.z[7] = s'.z[7]) :
    SameResult (highChain x s).1 (highChain x s').1 ∧ SameResult (highChain x s).2 (highChain x s').2 := by
  have section6 : SameResult (highChain x s).1 (highChain x s').1 := sameResult_biquad _ _ set3 delays6 (.inl rfl)
  exact ⟨section6, sameResult_biquad _ _ set3 delays7 section6.1⟩

end

/-- Settles O39: the bank is its three chains. -/
theorem bandsAreIndependent : Obligations.BandsAreIndependent := by
  intro s s' x
  rw [bankStep_eq, bankStep_eq]
  refine ⟨fun set0 delays0 delays1 => ?low, fun set1 set2 delays2 delays3 delays4 delays5 => ?mid,
    fun set3 delays6 delays7 => ?high⟩
  case low =>
    obtain ⟨⟨-, new0⟩, band, new1⟩ := lowChain_congr x set0 delays0 delays1
    exact ⟨band, new0, new1⟩
  case mid =>
    obtain ⟨⟨-, new2⟩, ⟨-, new3⟩, ⟨-, new4⟩, band, new5⟩ :=
      midChain_congr x set1 set2 delays2 delays3 delays4 delays5
    exact ⟨band, new2, new3, new4, new5⟩
  case high =>
    obtain ⟨⟨-, new6⟩, band, new7⟩ := highChain_congr x set3 delays6 delays7
    exact ⟨band, new6, new7⟩

end Sys2Proof.Machine
end

section
/-! The square that an accumulator adds (R136) is exact: a binary32 number has 24 significant bits and its square 48,
which binary64 holds, and neither leaves its range. -/

namespace Sys2Proof.Machine

/-- A pattern stands for an integer of `fracBits + 1` bits times a power of 2. -/
theorem FloatFormat.mag_eq_significand (F : FloatFormat) (b : Nat) :
    ∃ n t, F.mag b = n * 2 ^ t ∧ n < 2 ^ (F.fracBits + 1) ∧ t ≤ b / 2 ^ F.fracBits - 1 := by
  have pos : 0 < 2 ^ F.fracBits := Nat.two_pow_pos _
  rw [pow_succ]
  unfold FloatFormat.mag
  split
  next subnormal =>
    have small : b < 2 ^ F.fracBits := (Nat.div_eq_zero_iff.mp subnormal).resolve_left pos.ne'
    exact ⟨b, 0, (Nat.mul_one b).symm, by omega, Nat.zero_le _⟩
  next =>
    have frac : b % 2 ^ F.fracBits < 2 ^ F.fracBits := Nat.mod_lt _ pos
    exact ⟨_, _, rfl, by omega, le_rfl⟩

/-- The units of a finite binary32 pattern, an integer of 24 bits times a power of 2. -/
theorem value32_significand {v : F32} (finite : isFinite32 v = true) :
    ∃ n t, value32 v = .finite v.msb (n * 2 ^ t) ∧ n < 2 ^ 24 ∧ t ≤ 253 := by
  obtain ⟨n, t, units, significand, exponent⟩ := binary32.mag_eq_significand (v.toNat % 0x80000000)
  have bits : binary32.fracBits = 23 := rfl
  have below := (isFinite32_iff v).mp finite
  refine ⟨n, t, by rw [value32_finite v finite, units], significand, ?_⟩
  rw [bits] at exponent
  omega

/-- An integer of at most 53 bits, at a power of 2 in the range of binary64, is delivered as it is. -/
theorem deliver64_significand (k : Nat) (neg : Bool) {num den n u : Nat} (hd : 0 < den)
    (units : num = den * (n * 2 ^ u)) (significand : n < 2 ^ 53) (low : 52 ≤ u) (high : u < 2045) :
    isFinite64 (deliver64 k (.ratio neg num den)) = true
      ∧ value64 (deliver64 k (.ratio neg num den)) = .finite neg (n * 2 ^ u) := by
  obtain ⟨b, hmag, hle⟩ := binary64.exists_mag_eq n u significand low
  have bits : binary64.fracBits = 52 := rfl
  have hb : b < binary64.infBits := by rw [bits] at hle; rw [binary64_infBits]; omega
  have rounded : binary64.roundRatio num den = b := by rw [units, ← hmag, binary64.roundRatio_exact b den hd hb]
  have finite : binary64.roundRatio num den < 0x7FF0000000000000 := rounded.trans_lt hb
  refine ⟨(isFinite64_deliver64_ratio k neg num den).mpr finite, ?_⟩
  rw [value64_deliver64_ratio k neg num den finite, rounded, hmag]

/-- The conversion of 24 significant bits only changes the unit, from `2 ^ -149` to `2 ^ -1074`. -/
theorem value64_f32to64 (k : Nat) {v : F32} {neg : Bool} {n t : Nat} (value : value32 v = .finite neg (n * 2 ^ t))
    (significand : n < 2 ^ 24) (exponent : t ≤ 253) :
    value64 (f32to64 k v) = .finite neg (n * 2 ^ (t + 925)) := by
  have scale : binary64.unitExp - binary32.unitExp = 925 := rfl
  have rescaled : n * 2 ^ t * 2 ^ (binary64.unitExp - binary32.unitExp) = 1 * (n * 2 ^ (t + 925)) := by
    rw [scale, one_mul, pow_add, mul_assoc]
  obtain ⟨-, delivered⟩ := deliver64_significand k neg one_pos rescaled (by omega) (by omega) (by omega)
  rw [f32to64, value]
  exact delivered

/-- The square of 24 significant bits has 48, at twice the exponent. -/
theorem value64_f64mul_self (k : Nat) {d : F64} {neg : Bool} {n t : Nat}
    (value : value64 d = .finite neg (n * 2 ^ (t + 925))) (significand : n < 2 ^ 24) (exponent : t ≤ 253) :
    isFinite64 (f64mul k d d) = true ∧ value64 (f64mul k d d) = .finite false (n ^ 2 * 2 ^ (2 * t + 776)) := by
  have units : n * 2 ^ (t + 925) * (n * 2 ^ (t + 925)) = 2 ^ binary64.unitExp * (n ^ 2 * 2 ^ (2 * t + 776)) := by
    have exponents : t + 925 + (t + 925) = 1074 + (2 * t + 776) := by omega
    rw [binary64_unitExp, mul_mul_mul_comm, ← pow_add, exponents, pow_add 2 1074, mul_left_comm, ← sq]
  have square : n ^ 2 < 2 ^ 53 := (Nat.pow_lt_pow_left significand two_ne_zero).trans (by norm_num)
  rw [f64mul, value, exactMul, bne_self_eq_false]
  exact deliver64_significand k false (Nat.two_pow_pos _) units square (by omega) (by omega)

theorem f32Rat_of_units {a : F32} {neg : Bool} {m : Nat} (value : value32 a = .finite neg m) :
    f32Rat a = signed neg m / 2 ^ 149 := by
  simp only [f32Rat, value, signed_cast]

theorem f64Rat_of_units {a : F64} {neg : Bool} {m : Nat} (value : value64 a = .finite neg m) :
    f64Rat a = signed neg m / 2 ^ 1074 := by
  simp only [f64Rat, value, signed_cast]

theorem signed_sq (neg : Bool) (x : ℚ) : signed neg x ^ 2 = x ^ 2 := by cases neg <;> simp [signed]

/-- The scale between the units of the formats cancels. -/
theorem signed_rescaled (neg : Bool) (n t : Nat) :
    signed neg ((n * 2 ^ (t + 925) : ℕ) : ℚ) / 2 ^ 1074 = signed neg ((n * 2 ^ t : ℕ) : ℚ) / 2 ^ 149 := by
  rw [pow_add, ← mul_assoc, Nat.cast_mul, signed_mul_right, Nat.cast_pow, Nat.cast_ofNat,
    show (1074 : ℕ) = 149 + 925 from rfl, pow_add, mul_div_mul_right _ _ (pow_ne_zero _ two_ne_zero)]

theorem signed_square_rescaled (neg : Bool) (n t : Nat) :
    signed false ((n ^ 2 * 2 ^ (2 * t + 776) : ℕ) : ℚ) / 2 ^ 1074
      = (signed neg ((n * 2 ^ t : ℕ) : ℚ) / 2 ^ 149) ^ 2 := by
  have units : n ^ 2 * 2 ^ (2 * t + 776) = (n * 2 ^ t) ^ 2 * 2 ^ 776 := by
    rw [pow_add, pow_mul', ← mul_assoc, ← mul_pow]
  rw [units, Nat.cast_mul, signed_mul_right, Nat.cast_pow, Nat.cast_pow 2 776, Nat.cast_ofNat,
    show (1074 : ℕ) = 149 * 2 + 776 from rfl, pow_add, mul_div_mul_right _ _ (pow_ne_zero _ two_ne_zero), pow_mul,
    div_pow, signed_sq]
  rfl

/-- Settles O53, from the units of the sample, of its conversion and of the square. -/
theorem bandSquareIsExact : Obligations.BandSquareIsExact := by
  intro k k' v finite
  obtain ⟨n, t, value, significand, exponent⟩ := value32_significand finite
  have converted := value64_f32to64 k value significand exponent
  obtain ⟨squareFinite, squared⟩ := value64_f64mul_self k' converted significand exponent
  rw [f32Rat_of_units value, f64Rat_of_units converted, f64Rat_of_units squared]
  exact ⟨signed_rescaled v.msb n t, squareFinite, signed_square_rescaled v.msb n t⟩

end Sys2Proof.Machine
end

section
/-! Zeros of either sign in the accumulators (R136, R137) and in the encoder (R171): they add nothing, set no flag and
finish as code 0. -/

namespace Sys2Proof.Machine

/-! ### Adding a zero (R136) -/

@[simp] theorem nonfinFlags_signedZero32 (n : Bool) : nonfinFlags (signedZero32 n) = 0#6 := by
  rw [nonfinFlags, if_pos (isFinite32_signedZero32 n)]

@[simp] theorem peakAfter_signedZero32 (n : Bool) : peakAfter 0#32 (signedZero32 n) = 0#32 := by
  cases n <;> decide

@[simp] theorem f32to64_signedZero32 (k : Nat) (n : Bool) : f32to64 k (signedZero32 n) = signedZero64 n := by
  simp only [f32to64, value32_signedZero32, Nat.zero_mul, deliver64_zero]

theorem sumAfter_signedZero32 (k : Nat) (n : Bool) : sumAfter k 0#64 (signedZero32 n) = 0#64 := by
  have square : f64mul (k + 1) (signedZero64 n) (signedZero64 n) = signedZero64 false := by
    simp only [f64mul, value64_signedZero64, exactMul, Nat.zero_mul, bne_self_eq_false, deliver64_zero]
  have sum : f64add (k + 2) (signedZero64 false) (signedZero64 false) = signedZero64 false := by
    simp [f64add, exactAdd]
  rw [sumAfter, f32to64_signedZero32, square]
  exact sum

/-! ### Encoding a zero (R171) -/

@[simp] theorem encodeFlags_signedZero32 (n : Bool) : encodeFlags (signedZero32 n) = 0#6 := by
  cases n <;> decide

theorem f32floor_signedZero32 (k : Nat) (n : Bool) : f32floor k (signedZero32 n) = signedZero32 n := by
  have units : (if n then (0 + (2 ^ 149 - 1)) / 2 ^ 149 else 0 / 2 ^ 149) = 0 := by cases n <;> norm_num
  simp only [f32floor, value32_signedZero32, binary32_unitExp, units, Nat.zero_mul, deliver32_zero]

@[simp] theorem encodeCode_signedZero32 (k : Nat) (n : Bool) : encodeCode k (signedZero32 n) = 0#8 := by
  have number : isNaN32 (signedZero32 n) = false := isNaN32_of_finite _ (isFinite32_signedZero32 n)
  have notNegative : f32lt (signedZero32 n) f32Zero = false := by cases n <;> decide
  have scaled : f32mul k (signedZero32 n) f32TwoFiftySix = signedZero32 n := by
    rw [f32mul_signedZero_left k n (by decide)]; cases n <;> rfl
  have small : f32ge (signedZero32 n) f32TwoFiftyFive = false := by cases n <;> decide
  have integer : natOfF32 (signedZero32 n) = 0 := by simp [natOfF32]
  simp [encodeCode, number, notNegative, scaled, f32floor_signedZero32, small, integer]

/-! ### Finishing a zero sum (R137) -/

/-- The mean over a count that is not 0, its root and the product with the root of 2 are zeros of one sign. -/
theorem energy_of_zero_sum (k : Nat) {n : BitVec 32} (counted : n ≠ 0#32) :
    ∃ m, energy k 0#64 n = signedZero32 m := by
  obtain ⟨countFinite, countNumber⟩ := integerConversionsAreExact.2 n
  have countNonzero : f64Rat (u32tof64 n) ≠ 0 := by
    rw [countNumber, Nat.cast_ne_zero]
    exact fun e => counted (BitVec.eq_of_toNat_eq e)
  have mean : f64div k 0#64 (u32tof64 n) = signedZero64 (false != (u32tof64 n).msb) :=
    f64div_zero_by k (a := signedZero64 false) (by decide) countFinite
      ((f64Rat_of_units (value64_signedZero64 false)).trans (by simp [signed])) countNonzero
  have root (m : Bool) : f64sqrt (k + 1) (signedZero64 m) = signedZero64 m := by simp [f64sqrt]
  have scaled (m : Bool) : f64mul (k + 2) (signedZero64 m) f64Sqrt2 = signedZero64 m := by
    rw [f64mul, value64_signedZero64, value64_finite f64Sqrt2 (by decide), exactMul, Nat.zero_mul, deliver64_zero]
    cases m <;> rfl
  have converted (m : Bool) : f64to32 (k + 3) (signedZero64 m) = signedZero32 m := by
    simp only [f64to32, value64_signedZero64, deliver32_zero]
  have clamped (m : Bool) : clamp01 (signedZero32 m) = signedZero32 m := by cases m <;> decide
  exact ⟨false != (u32tof64 n).msb, by rw [energy, mean, root, scaled, converted, clamped]⟩

end Sys2Proof.Machine
end

section
/-! A silent stream (R142): finite coefficients, zero delays and clear accumulators stay so through every part of `PUSH`
and `FLUSH`, no flag is set, and a finished window is all zeros. -/

namespace Sys2Proof.Machine

/-! ### What the parts of a command keep -/

/-- The stream is silent, its coefficients are finite, and `ERRSTAT` is `flags`. -/
structure SilentWith (flags : BitVec 6) (s : State) : Prop where
  coefs : FiniteCoefs s
  delays : ∀ (i : Fin 8) (j : Fin 2), isZero32 s.z[i][j] = true
  clear : AccumulatorsClear s
  errstat : s.errstat = flags

theorem AccumulatorsClear.getElem {s : State} (h : AccumulatorsClear s) (b : Fin 4) :
    s.peak[b] = 0#32 ∧ s.rmsSum[b] = 0#64 := by
  rw [h.1, h.2]
  exact ⟨Vector.getElem_replicate b.isLt, Vector.getElem_replicate b.isLt⟩

section
variable {flags : BitVec 6} {s : State} (h : SilentWith flags s)
include h

/-! ### Feeding a zero (R111, R136) -/

theorem SilentWith.biquadStep (i : Fin 8) {x : F32} (zero : isZero32 x = true) :
    isZero32 (biquadStep i x s).1 = true ∧ SilentWith flags (biquadStep i x s).2 := by
  obtain ⟨output, new0, new1⟩ :=
    biquadKeepsZeros s.draws s.coef[sectionSet i] s.z[i] x (h.coefs _) (h.delays i 0) (h.delays i 1) zero
  rw [biquadStep_eq]
  refine ⟨output, h.coefs, ?_, h.clear, h.errstat⟩
  refine forall_set (P := fun d => ∀ j : Fin 2, isZero32 d[j] = true) h.delays i ?_
  rw [Fin.forall_fin_two]
  exact ⟨new0, new1⟩

/-- The samples of the four bands are the sample and the outputs of sections 1, 5 and 7. -/
theorem SilentWith.bankStep {x : F32} (zero : isZero32 x = true) :
    (∀ b : Fin 4, isZero32 (bankStep x s).1[b] = true) ∧ SilentWith flags (bankStep x s).2 := by
  obtain ⟨zero0, h0⟩ := h.biquadStep 0 zero
  obtain ⟨zero1, h1⟩ := h0.biquadStep 1 zero0
  obtain ⟨zero2, h2⟩ := h1.biquadStep 2 zero
  obtain ⟨zero3, h3⟩ := h2.biquadStep 3 zero2
  obtain ⟨zero4, h4⟩ := h3.biquadStep 4 zero3
  obtain ⟨zero5, h5⟩ := h4.biquadStep 5 zero4
  obtain ⟨zero6, h6⟩ := h5.biquadStep 6 zero
  obtain ⟨zero7, h7⟩ := h6.biquadStep 7 zero6
  refine ⟨fun b => ?_, h7⟩
  match b with
  | 0 => exact zero
  | 1 => exact zero1
  | 2 => exact zero5
  | 3 => exact zero7

theorem SilentWith.accAdd (b : Fin 4) {v : F32} (zero : isZero32 v = true) : SilentWith flags (accAdd b v s) := by
  obtain ⟨n, rfl⟩ := (isZero32_iff v).mp zero
  obtain ⟨peak, sum⟩ := h.clear.getElem b
  refine ⟨h.coefs, h.delays, ⟨?_, ?_⟩, ?_⟩
  · rw [accAdd_peak, peak, peakAfter_signedZero32, h.clear.1, Vector.set_replicate_self]
  · rw [accAdd_rmsSum, sum, sumAfter_signedZero32, h.clear.2, Vector.set_replicate_self]
  · rw [accAdd_errstat, nonfinFlags_signedZero32, BitVec.or_zero, h.errstat]

theorem SilentWith.feed {x : F32} (zero : isZero32 x = true) : SilentWith flags (feed x s) := by
  obtain ⟨n, rfl⟩ := (isZero32_iff x).mp zero
  have flagged : SilentWith flags (s.setFlags (nonfinFlags (signedZero32 n))) := by
    refine ⟨h.coefs, h.delays, h.clear, ?_⟩
    rw [State.setFlags_errstat, nonfinFlags_signedZero32, BitVec.or_zero, h.errstat]
  obtain ⟨zeros, banked⟩ := flagged.bankStep zero
  have added := (((banked.accAdd 0 (zeros 0)).accAdd 1 (zeros 1)).accAdd 2 (zeros 2)).accAdd 3 (zeros 3)
  exact ⟨added.coefs, added.delays, added.clear, added.errstat⟩

/-! ### Finishing a window (R137, R139) -/

theorem SilentWith.finishCodes (k : Nat) (b : Fin 4) (counted : s.nacc ≠ 0#32) : finishCodes k b s = (0#8, 0#8) := by
  obtain ⟨peak, sum⟩ := h.clear.getElem b
  obtain ⟨m, energyZero⟩ := energy_of_zero_sum (k + 1) counted
  have peakCode : encodeCode k 0#32 = 0#8 := encodeCode_signedZero32 k false
  rw [Machine.finishCodes, peak, sum, energyZero, encodeCode_signedZero32, peakCode]

theorem SilentWith.finishFlags (k : Nat) (b : Fin 4) (counted : s.nacc ≠ 0#32) : finishFlags k b s = 0#6 := by
  obtain ⟨peak, sum⟩ := h.clear.getElem b
  obtain ⟨m, energyZero⟩ := energy_of_zero_sum k counted
  have peakFlags : encodeFlags 0#32 = 0#6 := encodeFlags_signedZero32 false
  rw [Machine.finishFlags, peak, sum, energyZero, encodeFlags_signedZero32, peakFlags, BitVec.or_zero]

theorem SilentWith.finishAll (counted : s.nacc ≠ 0#32) :
    (finishAll s).1 = 0#64 ∧ SilentWith flags (finishAll s).2 := by
  rw [finishAll_eq]
  refine ⟨?_, h.coefs, h.delays, ⟨rfl, rfl⟩, ?_⟩
  · simp only [h.finishCodes _ _ counted]
    rfl
  · simp only [h.finishFlags _ _ counted, BitVec.or_zero, h.errstat]

end

/-! ### `PUSH` and `FLUSH` (R151, R152) -/

/-- `NONE`, or a `BIN` of zeros. -/
def IsZeroAnswer (r : Response) : Prop := r = ⟨1#4, 0#64⟩ ∨ r = ⟨2#4, 0#64⟩

/-- A boundary is crossed only by a window that holds a sample: `PEND` is 0 before the first one, and `SPB` at
least 64.0 (R140). -/
theorem Inv.counted_of_crossed {s : State} (h : Inv s) (run : s.phase = phaseRun)
    (crossed : f32ge s.pend s.spb = true) : s.nacc ≠ 0#32 := by
  intro empty
  obtain ⟨pend, -⟩ := h.run_fresh run empty
  obtain ⟨-, spb⟩ := h.configured (by rw [run]; decide)
  rw [pend] at crossed
  have spb_lt := toNat_lt_of_f32le (msb_of_f32le (by decide) (by decide) spb) crossed (by decide)
  have spb_ge := (f32le_iff_toNat (by decide) spb_lt).mp spb
  have spb_le := (f32le_iff_toNat spb_lt (by decide)).mp crossed
  exact absurd (spb_ge.trans spb_le) (by decide)

section
variable {flags : BitVec 6} {s : State} (h : SilentWith flags s)
include h

theorem SilentWith.boundary (inv : Inv s) (run : s.phase = phaseRun) :
    IsZeroAnswer (boundary s).1 ∧ SilentWith flags (boundary s).2 := by
  cases crossed : f32ge s.pend s.spb
  · rw [boundary_of_not_ge crossed]
    exact ⟨.inl rfl, h⟩
  · have carried : SilentWith flags (carryResidual s) := ⟨h.coefs, h.delays, h.clear, h.errstat⟩
    obtain ⟨payload, silent⟩ := carried.finishAll (inv.counted_of_crossed run crossed)
    rw [boundary_of_ge crossed, payload]
    exact ⟨.inr rfl, silent⟩

theorem SilentWith.flushWindow : IsZeroAnswer (flushWindow s).1 ∧ SilentWith flags (flushWindow s).2 := by
  by_cases empty : s.nacc = 0#32
  · rw [flushWindow_of_empty empty]
    exact ⟨.inl rfl, h⟩
  · obtain ⟨payload, silent⟩ := h.finishAll empty
    rw [flushWindow_of_samples empty, payload]
    exact ⟨.inr rfl, silent⟩

end

/-- What the statement says of the state `t` after a command in the silent stream of `s`. -/
def StaysSilent (s : State) (phase : BitVec 2) (t : State) : Prop :=
  Inv t ∧ t.phase = phase ∧ FiniteCoefs t ∧ Silent t ∧ t.errstat = s.errstat
    ∧ (t.rsps = ⟨1#4, 0#64⟩ :: s.rsps ∨ t.rsps = ⟨2#4, 0#64⟩ :: s.rsps)

/-- A silent state `u` in which a zero answer is delivered. -/
theorem SilentWith.staysSilent {s u : State} {r : Response} (h : SilentWith s.errstat u) (inv : Inv u)
    (rsps : u.rsps = s.rsps) (answer : IsZeroAnswer r) : StaysSilent s u.phase (u.respond r) := by
  refine ⟨inv.respond r, rfl, h.coefs, ⟨h.delays, h.clear⟩, h.errstat, ?_⟩
  rw [State.respond_rsps, rsps]
  exact answer.imp (fun e => by rw [e]) fun e => by rw [e]

theorem exec_flush_of_run {s : State} (run : s.phase = phaseRun) :
    exec .flush s = .next (({ (flushWindow s).2 with pend := f32Zero, phase := phaseDone } : State).respond
      (flushWindow s).1) := by
  change execFlush s = _
  rw [execFlush, if_neg (not_not.mpr run)]
  rfl

/-- Settles O41: each part of the two commands keeps the silence, and the invariant keeps the step. -/
theorem zeroStreamGivesZeroBins : Obligations.ZeroStreamGivesZeroBins := by
  intro s x inv run coefs silent zero
  have start : SilentWith s.errstat s := ⟨coefs, silent.1, silent.2, rfl⟩
  refine ⟨⟨_, exec_push_of_run run x, ?push⟩, ⟨_, exec_flush_of_run run, ?flush⟩⟩
  case push =>
    obtain ⟨answer, bounded⟩ := start.boundary inv run
    obtain ⟨-, -, -, -, boundaryPhase, -, boundaryRsps⟩ := boundary_frame s
    obtain ⟨-, -, -, -, feedPhase, -, feedRsps⟩ := feed_frame x (boundary s).2
    have fedInv := (inv.streaming run).boundary.inv_feed x
    have stays := (bounded.feed zero).staysSilent fedInv (feedRsps.trans boundaryRsps) answer
    rwa [feedPhase, boundaryPhase, run] at stays
  case flush =>
    obtain ⟨answer, flushed⟩ := start.flushWindow
    obtain ⟨-, rsps, -⟩ := flushWindow_ports s
    have closed : SilentWith s.errstat { (flushWindow s).2 with pend := f32Zero, phase := phaseDone } :=
      ⟨flushed.coefs, flushed.delays, flushed.clear, flushed.errstat⟩
    exact closed.staysSilent (inv.flush run) rsps answer

end Sys2Proof.Machine
end

section
/-! What feeding a sample (R111, R122, R136) and finishing a window (R137, R139) amount to, in the terms of the statements
about `PUSH` and `FLUSH`. -/

namespace Sys2Proof.Machine

/-! ### Feeding a sample -/

/-- The outputs of the eight sections for the sample `x`, in the chains of R122. -/
def sectionOutputs (x : F32) (s : State) : Fin 8 → F32 :=
  ![(lowChain x s).1.1, (lowChain x s).2.1, (midChain x s).1.1, (midChain x s).2.1.1, (midChain x s).2.2.1.1,
    (midChain x s).2.2.2.1, (highChain x s).1.1, (highChain x s).2.1]

/-- The band values `all, low, mid, high` for the sample `x`. -/
def bandValues (x : F32) (s : State) : Vector F32 4 :=
  #v[x, sectionOutputs x s 1, sectionOutputs x s 5, sectionOutputs x s 7]

/-- The eight delay pairs after the sample `x`. -/
def delaysAfter (x : F32) (s : State) : Vector (Vector F32 2) 8 :=
  #v[(lowChain x s).1.2, (lowChain x s).2.2, (midChain x s).1.2, (midChain x s).2.1.2, (midChain x s).2.2.1.2,
    (midChain x s).2.2.2.2, (highChain x s).1.2, (highChain x s).2.2]

/-- The bank of `feed`: the sticky bits that the sample sets first do not reach the filters. -/
theorem bankStep_setFlags (x : F32) (s : State) (m : BitVec 6) :
    bankStep x (s.setFlags m)
      = (bandValues x s, { s.setFlags m with z := delaysAfter x s, draws := s.draws + 72 }) :=
  bankStep_eq x (s.setFlags m)

theorem feed_z (x : F32) (s : State) : (feed x s).z = delaysAfter x s := by
  rw [feed_eq, bankStep_setFlags]

theorem feed_peak (x : F32) (s : State) (b : Fin 4) :
    (feed x s).peak[b] = peakAfter s.peak[b] (bandValues x s)[b] := by
  rw [feed_eq, bankStep_setFlags, accumulate_eq]
  match b with
  | 0 => rfl
  | 1 => rfl
  | 2 => rfl
  | 3 => rfl

theorem feed_rmsSum (x : F32) (s : State) (b : Fin 4) :
    (feed x s).rmsSum[b] = sumAfter (s.draws + 72 + 3 * b.val) s.rmsSum[b] (bandValues x s)[b] := by
  rw [feed_eq, bankStep_setFlags, accumulate_eq]
  match b with
  | 0 => rfl
  | 1 => rfl
  | 2 => rfl
  | 3 => rfl

theorem flags_or_flags (p q : Prop) [Decidable p] [Decidable q] (m : BitVec 6) :
    (if p then 0#6 else m) ||| (if q then 0#6 else m) = if p ∧ q then 0#6 else m := by
  by_cases hp : p <;> by_cases hq : q <;> simp [hp, hq]

/-- The sample and the four band values, the first of which is the sample, set `NONFIN` unless all are finite. -/
theorem nonfinFlags_of_bands (v : Vector F32 4) :
    nonfinFlags v[0] ||| nonfinFlags v[0] ||| nonfinFlags v[1] ||| nonfinFlags v[2] ||| nonfinFlags v[3]
      = if ∀ b : Fin 4, isFinite32 v[b] = true then 0#6 else flagNonfin := by
  simp [nonfinFlags, flags_or_flags, Fin.forall_fin_succ, and_assoc]

theorem feed_errstat_eq (x : F32) (s : State) :
    (feed x s).errstat
      = s.errstat ||| (if ∀ b : Fin 4, isFinite32 (bandValues x s)[b] = true then 0#6 else flagNonfin) := by
  rw [← nonfinFlags_of_bands, feed_eq, bankStep_setFlags, accumulate_eq]
  simp only [State.setFlags_errstat, BitVec.or_assoc]
  rfl

/-- Feeding a sample is what `FedBy` says of it. -/
theorem feed_fedBy (x : F32) (s : State) : FedBy x s s.peak s.rmsSum s.pend s.errstat (feed x s) := by
  refine ⟨sectionOutputs x s, fun b => (s.draws + 72 + 3 * b.val, s.draws + 72 + 3 * b.val + 1,
    s.draws + 72 + 3 * b.val + 2), s.draws + 84, ?_⟩
  rw [feed_z]
  exact ⟨biquad_sectionStep .., biquad_sectionStep .., biquad_sectionStep .., biquad_sectionStep ..,
    biquad_sectionStep .., biquad_sectionStep .., biquad_sectionStep .., biquad_sectionStep ..,
    fun b => ⟨feed_peak x s b, feed_rmsSum x s b⟩, feed_errstat_eq x s, feed_pend x s⟩

/-- Delivering a response moves no register. -/
theorem FedBy.respond {x : F32} {s t : State} {peak : Vector F32 4} {sum : Vector F64 4} {pend : F32}
    {flags : BitVec 6} (h : FedBy x s peak sum pend flags t) (r : Response) :
    FedBy x s peak sum pend flags (t.respond r) := h

/-! ### Finishing a window -/

/-- Where the codes of band `b` stand in a `BIN` payload (R76). -/
theorem binPayload_codes (codes : Fin 4 → BitVec 8 × BitVec 8) (b : Fin 4) :
    (binPayload (codes 0) (codes 1) (codes 2) (codes 3)).extractLsb' (16 * b.val) 8 = (codes b).1
      ∧ (binPayload (codes 0) (codes 1) (codes 2) (codes 3)).extractLsb' (16 * b.val + 8) 8 = (codes b).2 := by
  have byte (n : Nat) (h : n < 8) :
      [(codes 0).1, (codes 0).2, (codes 1).1, (codes 1).2, (codes 2).1, (codes 2).2, (codes 3).1, (codes 3).2][n]?
        = some ((binPayload (codes 0) (codes 1) (codes 2) (codes 3)).extractLsb' (8 * n) 8) := by
    rw [← bytesOfData_binPayload]
    exact littleEndian_getElem? _ h
  match b with
  | 0 => exact ⟨(Option.some.inj (byte 0 (by decide))).symm, (Option.some.inj (byte 1 (by decide))).symm⟩
  | 1 => exact ⟨(Option.some.inj (byte 2 (by decide))).symm, (Option.some.inj (byte 3 (by decide))).symm⟩
  | 2 => exact ⟨(Option.some.inj (byte 4 (by decide))).symm, (Option.some.inj (byte 5 (by decide))).symm⟩
  | 3 => exact ⟨(Option.some.inj (byte 6 (by decide))).symm, (Option.some.inj (byte 7 (by decide))).symm⟩

theorem finishAll_codes (s : State) (b : Fin 4) :
    (finishAll s).1.extractLsb' (16 * b.val) 8 = (finishCodes (s.draws + 6 * b.val) b s).1
      ∧ (finishAll s).1.extractLsb' (16 * b.val + 8) 8 = (finishCodes (s.draws + 6 * b.val) b s).2 := by
  rw [finishAll_eq]
  exact binPayload_codes (fun b => finishCodes (s.draws + 6 * b.val) b s) b

/-- Finishing a window is what `WindowOf` says of it. -/
theorem finishAll_windowOf (s : State) : WindowOf s (finishAll s).1 (finishAll s).2.errstat := by
  refine ⟨fun b => energy (s.draws + 6 * b.val + 1) s.rmsSum[b] s.nacc, fun b => ?codes, ?flags⟩
  case codes =>
    obtain ⟨peakCode, energyCode⟩ := finishAll_codes s b
    exact ⟨_, _, _, _, _, _, rfl, peakCode, energyCode⟩
  case flags =>
    rw [finishAll_eq]
    simp only [finishFlags]
    ac_rfl

/-! ### `PUSH` and `FLUSH` -/

theorem naccAfter_eq (n : BitVec 32) : naccAfter n = if n = 0xFFFFFFFF#32 then n else n + 1#32 := ite_not ..

theorem feed_lastn (x : F32) (s : State) : (feed x s).lastn = s.lastn := by rw [feed_eq]

/-- What a `PUSH` in `RUN` with the response `r` leaves alone. -/
theorem pushed_frame (x : F32) (s : State) (r : Response) :
    ((feed x (boundary s).2).respond r).rsps = r :: s.rsps ∧ ((feed x (boundary s).2).respond r).cfg = s.cfg
      ∧ ((feed x (boundary s).2).respond r).coef = s.coef ∧ ((feed x (boundary s).2).respond r).spb = s.spb
      ∧ ((feed x (boundary s).2).respond r).phase = s.phase
      ∧ ((feed x (boundary s).2).respond r).inputs = s.inputs := by
  obtain ⟨feedCfg, feedCoef, feedSpb, -, feedPhase, feedInputs, feedRsps⟩ := feed_frame x (boundary s).2
  obtain ⟨cfg, coef, -, spb, phase, inputs, rsps⟩ := boundary_frame s
  rw [State.respond_rsps, State.respond_cfg, State.respond_coef, State.respond_spb, State.respond_phase,
    State.respond_inputs, feedRsps, feedCfg, feedCoef, feedSpb, feedPhase, feedInputs]
  exact ⟨by rw [rsps], cfg, coef, spb, phase, inputs⟩

/-- Settles O25: without a boundary, a `PUSH` is the feeding of its sample. -/
theorem pushFeedsSample : Obligations.PushFeedsSample := by
  intro s x run below
  have frame := pushed_frame x s noneRsp
  rw [boundary_of_not_ge below] at frame
  obtain ⟨rsps, frame⟩ := frame
  refine ⟨(feed x s).respond noneRsp, ?_, (feed_fedBy x s).respond _, rsps, ?_, ?_, frame⟩
  · rw [exec_push_of_run run, boundary_of_not_ge below]
  · rw [State.respond_nacc, feed_nacc, naccAfter_eq]
  · rw [State.respond_lastn, feed_lastn]

/-- The window that a boundary finishes is the one held: the residual has no part in it. -/
theorem carried_windowOf (s : State) :
    WindowOf s (finishAll (carryResidual s)).1 (finishAll (carryResidual s)).2.errstat :=
  finishAll_windowOf (carryResidual s)

/-- After a boundary, the filters of the state before it are fed into cleared accumulators. -/
theorem carried_fedBy (x : F32) (s : State) :
    FedBy x s (.replicate 4 0#32) (.replicate 4 0#64) (f32sub s.draws s.pend s.spb)
      (finishAll (carryResidual s)).2.errstat (feed x (finishAll (carryResidual s)).2) := by
  have fed := feed_fedBy x (finishAll (carryResidual s)).2
  rw [finishAll_eq] at fed ⊢
  exact fed

/-- Settles O26: the window is finished first, and the sample fed into what that leaves. -/
theorem pushAtBoundary : Obligations.PushAtBoundary := by
  intro s x run crossed
  have frame := pushed_frame x s (binRsp (finishAll (carryResidual s)).1)
  rw [boundary_of_ge crossed] at frame
  obtain ⟨rsps, frame⟩ := frame
  refine ⟨(feed x (finishAll (carryResidual s)).2).respond (binRsp (finishAll (carryResidual s)).1), _, _, s.draws, ?_,
    carried_windowOf s, rsps, (carried_fedBy x s).respond _, ?_, ?_, frame⟩
  · rw [exec_push_of_run run, boundary_of_ge crossed]
  · rw [State.respond_nacc, feed_nacc, finishAll_nacc]
    rfl
  · rw [State.respond_lastn, feed_lastn, finishAll_lastn]
    rfl

/-- Settles O28: the window is finished, and only `PEND` and `PHASE` change besides. -/
theorem flushFinishesWindow : Obligations.FlushFinishesWindow := by
  intro s run counted
  have executed := exec_flush_of_run run
  rw [flushWindow_of_samples counted] at executed
  have window := finishAll_windowOf s
  rw [finishAll_eq] at executed window
  exact ⟨_, _, executed, window, rfl, rfl, rfl, rfl, rfl, rfl, rfl, rfl, rfl, rfl, rfl, rfl⟩

/-- Settles O29: there is no window to finish. -/
theorem flushOfEmptyWindow : Obligations.FlushOfEmptyWindow := by
  intro s run empty
  rw [exec_flush_of_run run, flushWindow_of_empty empty]
  rfl

end Sys2Proof.Machine
end

section
/-! The codes of a window whose sum is no NaN do not depend on the draws (R153, R173): from the mean to the encoded energy
each result is a number, so no primitive has to draw. -/

namespace Sys2Proof.Machine

/-! ### Numbers need no draw -/

theorem deliver32_draw {r : ExactResult} (h : r ≠ .nan) (k k' : Nat) : deliver32 k r = deliver32 k' r := by
  cases r with
  | nan => exact absurd rfl h
  | inf neg => rfl
  | ratio neg num den => rfl

theorem deliver64_draw {r : ExactResult} (h : r ≠ .nan) (k k' : Nat) : deliver64 k r = deliver64 k' r := by
  cases r with
  | nan => exact absurd rfl h
  | inf neg => rfl
  | ratio neg num den => rfl

/-- A number times a finite one that is not 0 is a number. -/
theorem exactMul_ne_nan (F : FloatFormat) {v : FpValue} (hv : v ≠ .nan) (neg : Bool) {mag : Nat} (nonzero : mag ≠ 0) :
    exactMul F v (.finite neg mag) ≠ .nan := by
  cases v with
  | nan => exact absurd rfl hv
  | inf n => simp [exactMul, nonzero]
  | finite n a => simp [exactMul]

/-! ### The encoder (R171) -/

theorem f32floor_draw {a : F32} (h : isNaN32 a = false) (k k' : Nat) : f32floor k a = f32floor k' a := by
  unfold f32floor
  split
  next nan => rw [(value32_eq_nan_iff a).mp nan] at h; cases h
  next => rfl
  next => rfl

theorem encodeCode_draw {x : F32} (h : isNaN32 x = false) (k k' : Nat) : encodeCode k x = encodeCode k' x := by
  have value : value32 x ≠ .nan := by rw [ne_eq, value32_eq_nan_iff, h]; decide
  have scale : value32 f32TwoFiftySix = .finite false (256 * 2 ^ 149) := by decide
  have product : exactMul binary32 (value32 x) (value32 f32TwoFiftySix) ≠ .nan := by
    rw [scale]
    exact exactMul_ne_nan binary32 value false (by norm_num)
  have scaled : f32mul k x f32TwoFiftySix = f32mul k' x f32TwoFiftySix := deliver32_draw product k k'
  have number : isNaN32 (f32mul k' x f32TwoFiftySix) = false := by
    rw [← Bool.not_eq_true, f32mul, isNaN32_deliver32_iff]
    exact product
  simp only [encodeCode, h, scaled, f32floor_draw number k k', Bool.false_eq_true, if_false]

/-! ### The energy (R137) -/

/-- A number without a minus sign. -/
def IsNonneg64 (a : F64) : Prop := value64 a ≠ .nan ∧ (value64 a).Nonneg

theorem isNonneg64_deliver64 (k : Nat) {r : ExactResult} (number : r ≠ .nan) (sign : r.Nonneg) :
    IsNonneg64 (deliver64 k r) :=
  ⟨by rwa [ne_eq, value64_eq_nan_iff, isNaN64_deliver64_iff], value64_nonneg (deliver64_nonneg k sign)⟩

/-- The pattern of a rounded number has its sign bit clear. -/
theorem msb_ofNat64 {b : Nat} (h : b ≤ binary64.infBits) : (BitVec.ofNat 64 b).msb = false := by
  rw [binary64_infBits] at h
  rw [BitVec.msb_eq_decide, BitVec.toNat_ofNat, decide_eq_false_iff_not]
  omega

theorem value64_u32tof64 {n : BitVec 32} (counted : n ≠ 0#32) :
    ∃ mag, mag ≠ 0 ∧ value64 (u32tof64 n) = .finite false mag := by
  obtain ⟨finite, number⟩ := integerConversionsAreExact.2 n
  obtain ⟨mag, value, -, zero⟩ := exists_units64 _ finite
  have sign : (u32tof64 n).msb = false := msb_ofNat64 (binary64.roundRatio_le_infBits _ _)
  rw [sign] at value
  refine ⟨mag, fun noUnits => ?_, value⟩
  rw [← zero, number, Nat.cast_eq_zero] at noUnits
  exact counted (BitVec.eq_of_toNat_eq noUnits)

theorem mean_isNonneg {sum : F64} (h : IsNonneg64 sum) {n : BitVec 32} (counted : n ≠ 0#32) (k k' : Nat) :
    f64div k sum (u32tof64 n) = f64div k' sum (u32tof64 n) ∧ IsNonneg64 (f64div k' sum (u32tof64 n)) := by
  obtain ⟨number, sign⟩ := h
  obtain ⟨mag, nonzero, count⟩ := value64_u32tof64 counted
  have quotient : exactDiv binary64 (value64 sum) (value64 (u32tof64 n)) ≠ .nan
      ∧ (exactDiv binary64 (value64 sum) (value64 (u32tof64 n))).Nonneg := by
    rw [count]
    cases value : value64 sum with
    | nan => exact absurd value number
    | inf m =>
      obtain rfl : m = false := by rwa [value] at sign
      exact ⟨nofun, rfl⟩
    | finite m a =>
      obtain rfl : m = false := by rwa [value] at sign
      rw [exactDiv, if_neg nonzero]
      exact ⟨nofun, rfl⟩
  exact ⟨deliver64_draw quotient.1 k k', isNonneg64_deliver64 k' quotient.1 quotient.2⟩

theorem root_isNonneg {a : F64} (h : IsNonneg64 a) (k k' : Nat) :
    f64sqrt k a = f64sqrt k' a ∧ IsNonneg64 (f64sqrt k' a) := by
  have root : (f64sqrt k a = f64sqrt k' a)
      ∧ (f64sqrt k' a = a ∨ ∃ v, f64sqrt k' a = BitVec.ofNat 64 (binary64.roundSqrt v)) := by
    obtain ⟨number, sign⟩ := h
    unfold f64sqrt
    cases value : value64 a with
    | nan => exact absurd value number
    | inf m =>
      obtain rfl : m = false := by rwa [value] at sign
      exact ⟨rfl, .inl rfl⟩
    | finite m mag =>
      obtain rfl : m = false := by rwa [value] at sign
      by_cases zero : mag = 0
      · exact ⟨by simp only [zero, if_true], .inl (by simp only [zero, if_true])⟩
      · simp only [if_neg zero, Bool.false_eq_true, if_false, true_and]
        exact .inr ⟨_, rfl⟩
  obtain ⟨same, eq | ⟨v, eq⟩⟩ := root
  · rw [same, eq]
    exact ⟨rfl, h⟩
  · rw [same, eq]
    refine ⟨rfl, ?_, value64_nonneg (.inr (msb_ofNat64 (Nat.min_le_right _ _)))⟩
    rw [ne_eq, value64_eq_nan_iff, isNaN64_roundSqrt]
    decide

theorem scaled_isNonneg {a : F64} (h : IsNonneg64 a) (k k' : Nat) :
    f64mul k a f64Sqrt2 = f64mul k' a f64Sqrt2 ∧ IsNonneg64 (f64mul k' a f64Sqrt2) := by
  obtain ⟨number, sign⟩ := h
  have nonzero : binary64.mag (f64Sqrt2.toNat % 0x8000000000000000) ≠ 0 :=
    (binary64.mag_strictMono (a := 0) (by decide)).ne'
  have sqrt2 : value64 f64Sqrt2 = .finite false (binary64.mag (f64Sqrt2.toNat % 0x8000000000000000)) :=
    value64_finite f64Sqrt2 (by decide)
  have product : exactMul binary64 (value64 a) (value64 f64Sqrt2) ≠ .nan
      ∧ (exactMul binary64 (value64 a) (value64 f64Sqrt2)).Nonneg := by
    rw [sqrt2]
    refine ⟨exactMul_ne_nan binary64 number false nonzero, ?_⟩
    cases value : value64 a with
    | nan => exact absurd value number
    | inf m =>
      obtain rfl : m = false := by rwa [value] at sign
      rw [exactMul, if_neg nonzero]
      rfl
    | finite m b =>
      obtain rfl : m = false := by rwa [value] at sign
      rfl
  exact ⟨deliver64_draw product.1 k k', isNonneg64_deliver64 k' product.1 product.2⟩

theorem converted_isNumber {a : F64} (h : IsNonneg64 a) (k k' : Nat) :
    f64to32 k a = f64to32 k' a ∧ isNaN32 (f64to32 k' a) = false := by
  unfold f64to32
  cases value : value64 a with
  | nan => exact absurd value h.1
  | inf m => exact ⟨rfl, by rw [← Bool.not_eq_true, isNaN32_deliver32_iff]; nofun⟩
  | finite m mag => exact ⟨rfl, isNaN32_deliver32_ratio ..⟩

theorem clamp01_isNumber {a : F32} (h : isNaN32 a = false) : isNaN32 (clamp01 a) = false := by
  unfold clamp01
  split
  · decide
  · split
    · decide
    · exact h

/-- The energy of a sum that is no NaN, over a count that is not 0, is a number whatever the draws. -/
theorem energy_draw {sum : F64} (h : IsNonneg64 sum) {n : BitVec 32} (counted : n ≠ 0#32) (k k' : Nat) :
    energy k sum n = energy k' sum n ∧ isNaN32 (energy k' sum n) = false := by
  obtain ⟨mean, meanNonneg⟩ := mean_isNonneg h counted k k'
  obtain ⟨root, rootNonneg⟩ := root_isNonneg meanNonneg (k + 1) (k' + 1)
  obtain ⟨scaled, scaledNonneg⟩ := scaled_isNonneg rootNonneg (k + 2) (k' + 2)
  obtain ⟨converted, number⟩ := converted_isNumber scaledNonneg (k + 3) (k' + 3)
  exact ⟨by simp only [energy, mean, root, scaled, converted], clamp01_isNumber number⟩

/-! ### The codes of a window (R137) -/

theorem peakCode_draw {s : State} (inv : Inv s) (b : Fin 4) (k k' : Nat) :
    (finishCodes k b s).1 = (finishCodes k' b s).1 :=
  encodeCode_draw (inv.peak_nonneg b).1 k k'

theorem energyCode_draw {s : State} (inv : Inv s) (counted : s.nacc ≠ 0#32) (b : Fin 4)
    (number : isNaN64 s.rmsSum[b] = false) (k k' : Nat) : (finishCodes k b s).2 = (finishCodes k' b s).2 := by
  have sum : IsNonneg64 s.rmsSum[b] :=
    ⟨by rw [ne_eq, value64_eq_nan_iff, number]; decide, value64_nonneg (inv.sum_nonneg b)⟩
  obtain ⟨energySame, energyNumber⟩ := energy_draw sum counted (k + 1) (k' + 1)
  simp only [finishCodes, energySame]
  exact encodeCode_draw energyNumber ..

/-! ### The response of a `PUSH` (R153) -/

/-- What the statement says of two responses `r` and `q` to a `PUSH` in the state `s`. -/
def SameAnswer (s : State) (r q : Response) : Prop :=
  r.kind = q.kind ∧ (Inv s → ∀ b : Fin 4,
    r.data.extractLsb' (16 * b.val) 8 = q.data.extractLsb' (16 * b.val) 8
      ∧ (isNaN64 s.rmsSum[b] = false →
          r.data.extractLsb' (16 * b.val + 8) 8 = q.data.extractLsb' (16 * b.val + 8) 8))

theorem sameAnswer_refl (s : State) (r : Response) : SameAnswer s r r := ⟨rfl, fun _ _ => ⟨rfl, fun _ => rfl⟩⟩

theorem sameAnswer_binRsp {s : State} {w w' : BitVec 64}
    (h : Inv s → ∀ b : Fin 4, w.extractLsb' (16 * b.val) 8 = w'.extractLsb' (16 * b.val) 8
      ∧ (isNaN64 s.rmsSum[b] = false → w.extractLsb' (16 * b.val + 8) 8 = w'.extractLsb' (16 * b.val + 8) 8)) :
    SameAnswer s (binRsp w) (binRsp w') := ⟨rfl, h⟩

/-- A window finished in two states that differ in the draw counter alone. -/
theorem finishAll_sameAnswer (s : State) (n : Nat) (run : s.phase = phaseRun)
    (crossed : f32ge s.pend s.spb = true) :
    SameAnswer s (binRsp (finishAll (carryResidual s)).1)
      (binRsp (finishAll (carryResidual { s with draws := n })).1) := by
  refine sameAnswer_binRsp fun inv b => ?_
  obtain ⟨peakCode, energyCode⟩ := finishAll_codes (carryResidual s) b
  obtain ⟨peakCode', energyCode'⟩ := finishAll_codes (carryResidual { s with draws := n }) b
  refine ⟨?_, fun number => ?_⟩
  · exact (peakCode.trans (peakCode_draw inv b _ _)).trans peakCode'.symm
  · exact (energyCode.trans (energyCode_draw inv (inv.counted_of_crossed run crossed) b number _ _)).trans
      energyCode'.symm

/-- The boundary in two states that differ in the draw counter alone (R151). -/
theorem boundary_draws (s : State) (n : Nat) (run : s.phase = phaseRun) :
    SameAnswer s (boundary s).1 (boundary { s with draws := n }).1
      ∧ (boundary s).2.lastn = (boundary { s with draws := n }).2.lastn
      ∧ (boundary s).2.nacc = (boundary { s with draws := n }).2.nacc := by
  cases crossed : f32ge s.pend s.spb
  · rw [boundary_of_not_ge crossed, boundary_of_not_ge (s := { s with draws := n }) crossed]
    exact ⟨sameAnswer_refl s _, rfl, rfl⟩
  · rw [boundary_of_ge crossed, boundary_of_ge (s := { s with draws := n }) crossed, finishAll_lastn, finishAll_lastn,
      finishAll_nacc, finishAll_nacc]
    exact ⟨finishAll_sameAnswer s n run crossed, rfl, rfl⟩

/-- Settles O27: in `RUN` the answer is the boundary's, which does not see the sample; elsewhere it is the error. -/
theorem pushResponseExcludesItsSample : Obligations.PushResponseExcludesItsSample := by
  intro s x y n
  by_cases run : s.phase = phaseRun
  · obtain ⟨⟨kind, codes⟩, lastn, nacc⟩ := boundary_draws s n run
    obtain ⟨rsps, -, -, -, phase, -⟩ := pushed_frame x s (boundary s).1
    obtain ⟨rsps', -, -, -, phase', -⟩ :=
      pushed_frame y { s with draws := n } (boundary { s with draws := n }).1
    refine ⟨_, _, _, _, exec_push_of_run run x, exec_push_of_run (s := { s with draws := n }) run y, rsps, rsps', kind,
      ?_, ?_, phase.trans phase'.symm, codes⟩
    · rw [State.respond_lastn, State.respond_lastn, feed_lastn, feed_lastn, lastn]
    · rw [State.respond_nacc, State.respond_nacc, feed_nacc, feed_nacc, nacc]
  · have rejected (u : State) (z : F32) (notRun : u.phase ≠ phaseRun) : exec (.push z) u = .next (raisePhase u) :=
      if_pos notRun
    obtain ⟨kind, codes⟩ := sameAnswer_refl s (errRsp .phase (s.phase.setWidth 8))
    exact ⟨_, _, _, _, rejected s x run, rejected { s with draws := n } y run, rfl, rfl, kind, rfl, rfl, rfl, codes⟩

end Sys2Proof.Machine
end

section
/-! Windows of a whole number of samples (R155 to R157): up to 2^24 the pending count is the number of samples in the window,
so the boundary comes after exactly `SPB` of them. -/

namespace Sys2Proof.Machine

/-! ### Whole numbers as binary32 (R156) -/

/-- Up to 2^24 an integer converts exactly. -/
theorem natTof32_units {n : Nat} (h : n ≤ 2 ^ 24) :
    (natTof32 n).toNat < 0x7F800000 ∧ binary32.mag (natTof32 n).toNat = n * 2 ^ 149 := by
  obtain ⟨b, units, small⟩ : ∃ b, binary32.mag b = n * 2 ^ 149 ∧ b < binary32.infBits := by
    rcases h.lt_or_eq with lt | rfl
    · obtain ⟨b, units, le⟩ := binary32.exists_mag_eq n 149 lt (by decide)
      exact ⟨b, units, le.trans_lt (by decide)⟩
    · exact ⟨pendMax.toNat, by decide, by decide⟩
  have exact_b := binary32.roundRatio_exact b 1 one_pos small
  rw [one_mul, units] at exact_b
  have pattern : (natTof32 n).toNat = b := by
    rw [natTof32, binary32_unitExp, exact_b, BitVec.toNat_ofNat]
    exact Nat.mod_eq_of_lt (small.trans (by decide))
  rw [pattern]
  exact ⟨small, units⟩

theorem natTof32_ge_iff {m n : Nat} (hm : m ≤ 2 ^ 24) (hn : n ≤ 2 ^ 24) :
    f32ge (natTof32 m) (natTof32 n) = true ↔ n ≤ m := by
  obtain ⟨m_lt, m_units⟩ := natTof32_units hm
  obtain ⟨n_lt, n_units⟩ := natTof32_units hn
  rw [f32ge, f32le_iff_toNat n_lt m_lt, ← binary32.mag_strictMono.le_iff_le, m_units, n_units]
  exact Nat.mul_le_mul_right_iff (Nat.two_pow_pos _)

/-- Counting one more. -/
theorem natTof32_add_one (k : Nat) {n : Nat} (h : n ≤ 2 ^ 24) : f32add k (natTof32 n) f32One = natTof32 (n + 1) := by
  obtain ⟨lt, units⟩ := natTof32_units h
  have one : binary32.mag f32One.toNat = 2 ^ 149 := by decide
  have le := binary32.roundRatio_le_infBits ((n + 1) * 2 ^ 149) 1
  rw [binary32_infBits] at le
  apply BitVec.eq_of_toNat_eq
  rw [f32add_toNat k lt (by decide), units, one, ← Nat.succ_mul, natTof32, binary32_unitExp, BitVec.toNat_ofNat,
    Nat.mod_eq_of_lt (le.trans_lt (by decide))]

/-- Nothing remains of a window of exactly `SPB` samples. -/
theorem natTof32_sub_self (k : Nat) {n : Nat} (h : n ≤ 2 ^ 24) :
    f32sub k (natTof32 n) (natTof32 n) = natTof32 0 := by
  apply BitVec.eq_of_toNat_eq
  rw [f32sub_toNat k (natTof32_units h).1 le_rfl, Nat.sub_self, FloatFormat.roundRatio_zero]
  decide

/-! ### One `PUSH` -/

/-- `RUN` with `SPB` = `S` and `c` samples in the window. -/
structure WindowHolds (S c : Nat) (s : State) : Prop where
  run : s.phase = phaseRun
  spb : s.spb = natTof32 S
  pend : s.pend = natTof32 c
  nacc : s.nacc = BitVec.ofNat 32 c
  le : c ≤ S

/-- The samples in the window after one more `PUSH`. -/
def nextCount (S c : Nat) : Nat := if c = S then 1 else c + 1

theorem WindowHolds.respond {S c : Nat} {s : State} (h : WindowHolds S c s) (r : Response) :
    WindowHolds S c (s.respond r) := ⟨h.run, h.spb, h.pend, h.nacc, h.le⟩

/-- A sample fed into a window of `c` samples. -/
theorem feed_windowHolds {S c : Nat} {s : State} (hS : S ≤ 2 ^ 24) (run : s.phase = phaseRun)
    (spb : s.spb = natTof32 S) (pend : s.pend = natTof32 c) (nacc : s.nacc = BitVec.ofNat 32 c) (lt : c < S)
    (x : F32) : WindowHolds S (c + 1) (feed x s) := by
  obtain ⟨-, -, feedSpb, -, feedPhase, -, -⟩ := feed_frame x s
  refine ⟨feedPhase.trans run, feedSpb.trans spb, ?_, ?_, lt⟩
  · rw [feed_pend, pend, natTof32_add_one _ (lt.le.trans hS)]
  · rw [feed_nacc, nacc, naccAfter_eq, if_neg (by bv_omega)]
    exact (BitVec.ofNat_add c 1).symm

section
variable {S c : Nat} {s : State}

theorem WindowHolds.crossed_iff (h : WindowHolds S c s) (hS : S ≤ 2 ^ 24) : f32ge s.pend s.spb = true ↔ c = S := by
  rw [h.pend, h.spb, natTof32_ge_iff (h.le.trans hS) hS]
  exact ⟨h.le.antisymm, fun e => e.ge⟩

/-- A `PUSH` answers `BIN` and latches `S` if the window is full, and counts its sample. -/
theorem WindowHolds.push (h : WindowHolds S c s) (pos : 0 < S) (hS : S ≤ 2 ^ 24) (x : F32) :
    ∃ t r, exec (.push x) s = .next t ∧ t.rsps = r :: s.rsps ∧ WindowHolds S (nextCount S c) t
      ∧ r.isBin = decide (c = S) ∧ (c = S → t.lastn = BitVec.ofNat 32 S) := by
  refine ⟨_, _, exec_push_of_run h.run x, (pushed_frame x s _).1, ?_⟩
  by_cases full : c = S
  · have residual : (finishAll (carryResidual s)).2.pend = natTof32 0 := by
      rw [finishAll_pend, carryResidual, h.pend, h.spb, full, natTof32_sub_self _ hS]
    rw [boundary_of_ge ((h.crossed_iff hS).mpr full), nextCount, if_pos full]
    refine ⟨(feed_windowHolds hS ?_ ?_ residual (finishAll_nacc _) pos x).respond _, ?_, fun _ => ?_⟩
    · rw [finishAll_phase]; exact h.run
    · rw [finishAll_spb]; exact h.spb
    · rw [decide_eq_true full]; rfl
    · rw [State.respond_lastn, feed_lastn, finishAll_lastn, ← full]; exact h.nacc
  · have below : f32ge s.pend s.spb = false := by
      rw [← Bool.not_eq_true, h.crossed_iff hS]
      exact full
    rw [boundary_of_not_ge below, nextCount, if_neg full]
    refine ⟨(feed_windowHolds hS h.run h.spb h.pend h.nacc (h.le.lt_of_ne full) x).respond _, ?_, fun e => absurd e full⟩
    rw [decide_eq_false full]; rfl

/-! ### A list of `PUSH` -/

theorem WindowHolds.pushAll_cons (h : WindowHolds S c s) (pos : 0 < S) (hS : S ≤ 2 ^ 24) (x : F32) (xs : List F32) :
    ∃ t r, pushAll (x :: xs) s = ((r, t.lastn) :: (pushAll xs t).1, (pushAll xs t).2)
      ∧ WindowHolds S (nextCount S c) t ∧ r.isBin = decide (c = S) ∧ (c = S → t.lastn = BitVec.ofNat 32 S) := by
  obtain ⟨t, r, executed, rsps, answer⟩ := h.push pos hS x
  refine ⟨t, r, ?_, answer⟩
  rw [pushAll, executed]
  simp only [rsps, List.headD_cons]

theorem WindowHolds.pushAll_length (h : WindowHolds S c s) (pos : 0 < S) (hS : S ≤ 2 ^ 24) (xs : List F32) :
    (pushAll xs s).1.length = xs.length := by
  induction xs generalizing s c with
  | nil => rfl
  | cons x xs ih =>
    obtain ⟨t, r, run, next, -⟩ := h.pushAll_cons pos hS x xs
    rw [run, List.length_cons, List.length_cons, ih next]

/-- Counting modulo `S`, a full window is an empty one. -/
theorem dvd_nextCount_add (S c n : Nat) : S ∣ nextCount S c + n ↔ S ∣ c + (n + 1) := by
  unfold nextCount
  split
  next full => rw [full, Nat.dvd_add_right (dvd_refl S), Nat.add_comm]
  next => rw [Nat.add_right_comm, Nat.add_assoc]

/-- The boundaries lie at the multiples of `S`. -/
theorem WindowHolds.pushAll_isBin (h : WindowHolds S c s) (pos : 0 < S) (hS : S ≤ 2 ^ 24) {xs : List F32} {n : Nat}
    {p : Response × BitVec 32} (hp : (pushAll xs s).1[n]? = some p) :
    p.1.isBin = true ↔ c + n ≠ 0 ∧ S ∣ c + n := by
  induction xs generalizing s c n with
  | nil => cases hp
  | cons x xs ih =>
    obtain ⟨t, r, run, next, bin, -⟩ := h.pushAll_cons pos hS x xs
    rw [run] at hp
    cases n with
    | zero =>
      obtain rfl : (r, t.lastn) = p := Option.some.inj hp
      rw [bin, decide_eq_true_eq, Nat.add_zero]
      refine ⟨fun full => ⟨full ▸ pos.ne', full ▸ dvd_refl S⟩, fun ⟨nonzero, dvd⟩ => ?_⟩
      exact h.le.antisymm (Nat.le_of_dvd (Nat.pos_of_ne_zero nonzero) dvd)
    | succ n =>
      have nonzero : nextCount S c ≠ 0 := by unfold nextCount; split <;> omega
      rw [ih next hp, dvd_nextCount_add]
      omega

theorem binCounts_cons (r : Response) (n : BitVec 32) (l : List (Response × BitVec 32)) :
    binCounts ((r, n) :: l) = if r.isBin then n.toNat :: binCounts l else binCounts l := by
  unfold binCounts
  cases bin : r.isBin
  · rw [List.filter_cons_of_neg (by simp [bin])]; rfl
  · rw [List.filter_cons_of_pos (by simp [bin])]; rfl

/-- The first of `n + 1` samples completes the bin of a full window, and the others go on from a window of one. -/
theorem bins_of_full (pos : 0 < S) (n : Nat) : (S + (n + 1) - 1) / S = n / S + 1 := by
  rw [← Nat.add_assoc, Nat.add_sub_cancel, Nat.add_div_left _ pos]

/-- Each bin that the pushes complete holds `S` samples. -/
theorem WindowHolds.binCounts_pushAll (h : WindowHolds S c s) (pos : 0 < S) (hS : S ≤ 2 ^ 24) (xs : List F32) :
    binCounts (pushAll xs s).1 = .replicate ((c + xs.length - 1) / S) S := by
  induction xs generalizing s c with
  | nil =>
    have le := h.le
    rw [List.length_nil, Nat.div_eq_of_lt (by omega)]
    rfl
  | cons x xs ih =>
    obtain ⟨t, r, run, next, bin, lastn⟩ := h.pushAll_cons pos hS x xs
    rw [run, binCounts_cons, ih next, bin, List.length_cons, nextCount]
    by_cases full : c = S
    · have length : t.lastn.toNat = S := by
        rw [lastn full, BitVec.toNat_ofNat]
        exact Nat.mod_eq_of_lt (by omega)
      rw [if_pos full, decide_eq_true full, if_pos rfl, length, full, bins_of_full pos, Nat.add_sub_cancel_left]
      rfl
    · rw [if_neg full, decide_eq_false full, if_neg (by decide), Nat.add_right_comm, Nat.add_assoc]

/-- The samples that are in no bin of the pushes are in the window. -/
theorem WindowHolds.pushAll_end (h : WindowHolds S c s) (pos : 0 < S) (hS : S ≤ 2 ^ 24) (xs : List F32) :
    ∃ d, WindowHolds S d (pushAll xs s).2 ∧ (c + xs.length - 1) / S * S + d = c + xs.length := by
  induction xs generalizing s c with
  | nil =>
    have le := h.le
    refine ⟨c, h, ?_⟩
    rw [List.length_nil, Nat.div_eq_of_lt (by omega)]
    omega
  | cons x xs ih =>
    obtain ⟨t, r, run, next, -⟩ := h.pushAll_cons pos hS x xs
    obtain ⟨d, last, total⟩ := ih next
    refine ⟨d, run ▸ last, ?_⟩
    rw [List.length_cons]
    unfold nextCount at total
    by_cases full : c = S
    · rw [if_pos full, Nat.add_sub_cancel_left] at total
      rw [full, bins_of_full pos, Nat.succ_mul]
      omega
    · rw [if_neg full, Nat.add_right_comm, Nat.add_assoc] at total
      exact total

/-! ### `FLUSH` -/

theorem WindowHolds.flush (h : WindowHolds S c s) (hS : S ≤ 2 ^ 24) :
    ∃ t r, exec .flush s = .next t ∧ t.rsps = r :: s.rsps ∧ r.isBin = decide (c ≠ 0)
      ∧ (c ≠ 0 → t.lastn.toNat = c) := by
  have le := h.le
  by_cases empty : c = 0
  · have executed := flushOfEmptyWindow s h.run (by rw [h.nacc, empty])
    exact ⟨_, _, executed, rfl, by rw [empty]; rfl, fun counted => absurd empty counted⟩
  · have counted : s.nacc ≠ 0#32 := by rw [h.nacc]; bv_omega
    obtain ⟨t, w, executed, -, rsps, lastn, -⟩ := flushFinishesWindow s h.run counted
    refine ⟨t, _, executed, rsps, ?_, fun _ => ?_⟩
    · rw [decide_eq_true empty]; rfl
    · rw [lastn, h.nacc, BitVec.toNat_ofNat]
      exact Nat.mod_eq_of_lt (by omega)

end

theorem binCounts_append (l l' : List (Response × BitVec 32)) : binCounts (l ++ l') = binCounts l ++ binCounts l' := by
  simp only [binCounts, List.filter_append, List.map_append]

/-- The bins of a stream of `n` samples, that of `FLUSH` among them (R157). -/
theorem bins_of_stream {S : Nat} (pos : 0 < S) (n : Nat) :
    (n + S - 1) / S = (n - 1) / S + if n = 0 then 0 else 1 := by
  cases n with
  | zero => simp [pos]
  | succ n => rw [Nat.add_comm, bins_of_full pos, Nat.add_sub_cancel, if_neg n.succ_ne_zero]

/-- Settles O30: the pushes complete bins of `S` samples each, and `FLUSH` one of what is left. -/
theorem binsOfIntegerWindows : Obligations.BinsOfIntegerWindows := by
  intro S xs s ge le spb run pend nacc
  have pos : 0 < S := by omega
  have start : WindowHolds S 0 s := ⟨run, spb, pend.trans (by decide), nacc, Nat.zero_le S⟩
  obtain ⟨c, last, total⟩ := start.pushAll_end pos le xs
  obtain ⟨t, r, executed, rsps, bin, lastn⟩ := last.flush le
  have pushed := start.binCounts_pushAll pos le xs
  rw [Nat.zero_add] at total pushed
  have bound : (xs.length - 1) / S * S ≤ xs.length - 1 := Nat.div_mul_le_self ..
  have empty : c = 0 ↔ xs.length = 0 := by omega
  have counts : binCounts ((pushAll xs s).1 ++ [(r, t.lastn)])
      = .replicate ((xs.length - 1) / S) S ++ if xs.length = 0 then [] else [c] := by
    rw [binCounts_append, pushed, binCounts_cons, bin]
    by_cases drained : c = 0
    · rw [if_pos (empty.mp drained), drained]; rfl
    · rw [if_neg (mt empty.mpr drained), decide_eq_true drained, if_pos rfl, lastn drained]; rfl
  refine ⟨t, r, executed, rsps, start.pushAll_length pos le xs, fun n h => ?_, ?_, ?_, ?_, ?_⟩
  · rw [start.pushAll_isBin pos le (List.getElem?_eq_getElem h), Nat.zero_add]
  · rw [← List.length_map (f := (·.2.toNat)), ← binCounts, pushed, List.length_replicate]
  · rw [bin, decide_eq_true_eq, ne_eq, empty, List.length_eq_zero_iff]
  · rw [counts, bins_of_stream pos, List.length_append, List.length_replicate]
    split <;> rfl
  · rw [counts, List.sum_append, List.sum_replicate, smul_eq_mul]
    split
    next noSamples => rw [List.sum_nil, ← empty.mpr noSamples, total]
    next => rw [List.sum_singleton, total]

/-! ### `SPB` beyond the range of `PEND` (R156) -/

/-- Settles O32: `PEND` is at most 2^24, so it is not at least `SPB`. -/
theorem hugeSpbNeverEndsWindow : Obligations.HugeSpbNeverEndsWindow := by
  intro s t x inv run huge executed
  have pend_lt : s.pend.toNat < 0x7F800000 := ((pend_range_iff _).mp inv.pend_range).trans_lt (by decide)
  have below : f32ge s.pend s.spb = false := by
    by_contra crossed
    rw [Bool.not_eq_false] at crossed
    obtain ⟨-, spb⟩ := inv.configured (by rw [run]; decide)
    have spb_lt := toNat_lt_of_f32le (msb_of_f32le (by decide) (by decide) spb) crossed pend_lt
    have spb_le := (f32le_iff_toNat spb_lt pend_lt).mp crossed
    have le_max : f32le s.spb pendMax = true :=
      (f32le_iff_toNat spb_lt (by decide)).mpr (spb_le.trans ((pend_range_iff _).mp inv.pend_range))
    obtain ⟨-, -, notGreater⟩ := (FpValue.le_iff _ _).mp le_max
    exact absurd huge (by rw [f32gt, f32lt, notGreater]; decide)
  obtain ⟨u, pushed, -, rsps, -, lastn, -⟩ := pushFeedsSample s x run below
  cases pushed.symm.trans executed
  exact ⟨rsps, lastn⟩

end Sys2Proof.Machine
end

section
/-! The waveform (R158): no command but `RST` answers `ACK` once the stream has begun, so the responses since the `ACK` of
`INIT` only grow. -/

namespace Sys2Proof.Machine

/-! ### Which commands answer `ACK` -/

/-- The outcome is a next state with one response more, which is no `ACK`. -/
def AnswersNoAck (s : State) (o : Outcome) : Prop := ∃ t r, o = .next t ∧ t.rsps = r :: s.rsps ∧ r.kind ≠ 0#4

theorem answersNoAck_respond {s u : State} {r : Response} (rsps : u.rsps = s.rsps) (noAck : r.kind ≠ 0#4) :
    AnswersNoAck s (.next (u.respond r)) :=
  ⟨u.respond r, r, rfl, congrArg (r :: ·) rsps, noAck⟩

theorem answersNoAck_raiseErr (s : State) (e : ErrCode) (d : BitVec 8) : AnswersNoAck s (.next (raiseErr s e d)) :=
  answersNoAck_respond (u := s.setFlags e.mask) rfl (by simp [errRsp])

theorem answersNoAck_execRd (idx : BitVec 8) (s : State) : AnswersNoAck s (execRd idx s) := by
  unfold execRd
  split
  next => exact answersNoAck_respond rfl (by simp [dataRsp])
  next => exact answersNoAck_raiseErr ..

theorem boundary_noAck (s : State) : (boundary s).1.kind ≠ 0#4 := by
  cases crossed : f32ge s.pend s.spb
  · rw [boundary_of_not_ge crossed]
    simp [noneRsp]
  · rw [boundary_of_ge crossed]
    simp [binRsp]

theorem answersNoAck_execPush (x : F32) (s : State) : AnswersNoAck s (execPush x s) := by
  unfold execPush
  split
  next => exact answersNoAck_raiseErr ..
  next =>
    obtain ⟨-, -, -, -, -, -, feedRsps⟩ := feed_frame x (boundary s).2
    obtain ⟨-, -, -, -, -, -, boundaryRsps⟩ := boundary_frame s
    exact answersNoAck_respond (feedRsps.trans boundaryRsps) (boundary_noAck s)

theorem flushWindow_noAck (s : State) : (flushWindow s).1.kind ≠ 0#4 := by
  by_cases empty : s.nacc = 0#32
  · rw [flushWindow_of_empty empty]
    simp [noneRsp]
  · rw [flushWindow_of_samples empty]
    simp [binRsp]

theorem answersNoAck_execFlush (s : State) : AnswersNoAck s (execFlush s) := by
  unfold execFlush
  split
  next => exact answersNoAck_raiseErr ..
  next =>
    obtain ⟨-, rsps, -⟩ := flushWindow_ports s
    exact answersNoAck_respond rsps (flushWindow_noAck s)

/-- Outside `IDLE` the two other commands that can answer `ACK` are rejected (R187). -/
theorem answersNoAck_exec {i : Instr} {s : State} (notIdle : s.phase ≠ phaseIdle) (notRst : i ≠ .rst) :
    AnswersNoAck s (exec i s) := by
  cases i with
  | rst => exact absurd rfl notRst
  | wr idx data =>
    have rejected : exec (.wr idx data) s = .next (raisePhase s) := if_pos notIdle
    rw [rejected]
    exact answersNoAck_raiseErr ..
  | rd idx => exact answersNoAck_execRd idx s
  | init =>
    have rejected : exec .init s = .next (raisePhase s) := if_pos notIdle
    rw [rejected]
    exact answersNoAck_raiseErr ..
  | push x => exact answersNoAck_execPush x s
  | flush => exact answersNoAck_execFlush s
  | enc x => exact answersNoAck_respond rfl (by simp [codeRsp])
  | dec code => exact answersNoAck_respond rfl (by simp [dataRsp])

/-! ### The waveform -/

theorem waveform_of_ack {t : State} {r : Response} {rs : List Response} (rsps : t.rsps = r :: rs)
    (ack : r.kind = 0#4) : waveform t = [] := by
  simp [waveform, rsps, ack]

theorem waveform_of_noAck {s t : State} {r : Response} (rsps : t.rsps = r :: s.rsps) (noAck : r.kind ≠ 0#4) :
    waveform t = waveform s ++ if r.isBin then [r.data] else [] := by
  cases bin : r.isBin <;> simp [waveform, rsps, noAck, bin]

/-- Settles O33: `INIT` that enters `RUN` answers `ACK`, and what comes later does not. -/
theorem waveformCollectsBins : Obligations.WaveformCollectsBins := by
  refine ⟨fun s t idle executed run => ?_, fun s t i r notIdle notRst executed rsps => ?_⟩
  · cases effect_of_exec executed with
    | constructed => exact waveform_of_ack rfl rfl
    | rejected => exact absurd (idle.symm.trans run) (by decide)
    | answered => exact absurd (idle.symm.trans run) (by decide)
  · obtain ⟨u, q, next, answer, noAck⟩ := answersNoAck_exec notIdle notRst
    cases next.symm.trans executed
    obtain rfl : q = r := (List.cons.inj (answer.symm.trans rsps)).1
    exact waveform_of_noAck rsps noAck

end Sys2Proof.Machine
end

section
/-! The encoder on real numbers (R171, R172): the product by 256 is exact or overflows, and the floor of a number is an
integer conversion, so no rounding reaches the code. -/

namespace Sys2Proof.Machine

/-! ### Doubling in a format -/

/-- Twice a value is a value, if the format had no largest one: a subnormal's bits move up, a normal's exponent grows. -/
theorem FloatFormat.exists_mag_double (F : FloatFormat) (b : Nat) : ∃ b', F.mag b' = F.mag b * 2 := by
  have pos : 0 < 2 ^ F.fracBits := Nat.two_pow_pos _
  by_cases subnormal : b / 2 ^ F.fracBits = 0
  · have small : b < 2 ^ F.fracBits := (Nat.div_eq_zero_iff.mp subnormal).resolve_left pos.ne'
    have units := F.mag_shift 0 b (.inl rfl) (by rw [pow_succ]; omega)
    have doubled := F.mag_shift 0 (b * 2) (.inl rfl) (by rw [pow_succ]; omega)
    simp only [zero_mul, zero_add, pow_zero, mul_one] at units doubled
    exact ⟨b * 2, by rw [doubled, units]⟩
  · obtain ⟨e, exponent⟩ := Nat.exists_eq_succ_of_ne_zero subnormal
    refine ⟨b + 2 ^ F.fracBits, ?_⟩
    rw [FloatFormat.mag, FloatFormat.mag, Nat.add_div_right _ pos, Nat.add_mod_right, exponent, if_neg (by omega),
      if_neg (by omega)]
    exact (mul_assoc _ (2 ^ e) 2).symm

theorem FloatFormat.exists_mag_mul_two_pow (F : FloatFormat) (b e : Nat) : ∃ b', F.mag b' = F.mag b * 2 ^ e := by
  induction e with
  | zero => exact ⟨b, (mul_one _).symm⟩
  | succ e ih =>
    obtain ⟨c, scaled⟩ := ih
    obtain ⟨d, doubled⟩ := F.exists_mag_double c
    exact ⟨d, by rw [doubled, scaled, mul_assoc, ← pow_succ]⟩

/-! ### The product by 256 (R172) -/

theorem deliver32_of_overflow (k : Nat) (neg : Bool) {num den : Nat} (hd : 0 < den)
    (large : den * (0x1FFFFFF * 2 ^ 252) ≤ num) : deliver32 k (.ratio neg num den) = signedInf32 neg := by
  have rounded : binary32.roundRatio num den = 0x7F800000 := by
    have ge := mt (roundRatio32_lt_iff num den hd).mp (not_lt.mpr large)
    have le := binary32.roundRatio_le_infBits num den
    rw [binary32_infBits] at le
    omega
  apply BitVec.eq_of_toNat_eq
  rw [deliver32_ratio, rounded]
  cases neg <;> rfl

/-- The product by 256 is exact; only where it would pass the largest finite value is it the infinity. -/
theorem value32_scaled (k : Nat) {x : F32} {neg : Bool} {m : Nat} (finite : isFinite32 x = true)
    (value : value32 x = .finite neg m) :
    value32 (f32mul k x f32TwoFiftySix) = .finite neg (m * 256)
      ∨ value32 (f32mul k x f32TwoFiftySix) = .inf neg ∧ 2 ^ 277 ≤ m * 256 := by
  have scale : value32 f32TwoFiftySix = .finite false (256 * 2 ^ 149) := by decide
  have product : f32mul k x f32TwoFiftySix = deliver32 k (.ratio neg (2 ^ 149 * (m * 256)) (2 ^ 149)) := by
    rw [f32mul, value, scale, exactMul, binary32_unitExp, Bool.bne_false]
    congr 2
    ring
  rw [value32_finite x finite] at value
  obtain ⟨-, rfl⟩ := FpValue.finite.inj value
  obtain ⟨b, units⟩ := binary32.exists_mag_mul_two_pow (x.toNat % 0x80000000) 8
  have units : binary32.mag b = binary32.mag (x.toNat % 0x80000000) * 256 := units
  rw [product, ← units]
  rcases Nat.lt_or_ge b binary32.infBits with below | above
  · have exact_b := binary32.roundRatio_exact b (2 ^ 149) (Nat.two_pow_pos _) below
    left
    rw [value32_deliver32_ratio _ _ _ _ (exact_b.trans_lt below), exact_b]
  · have large : 2 ^ 277 ≤ binary32.mag b :=
      le_of_eq_of_le (by decide +kernel) (binary32.mag_strictMono.monotone above)
    have overflow : 2 ^ 149 * (0x1FFFFFF * 2 ^ 252) ≤ 2 ^ 149 * binary32.mag b :=
      Nat.mul_le_mul_left _ (le_trans (by decide +kernel) large)
    right
    rw [deliver32_of_overflow k neg (Nat.two_pow_pos _) overflow, value32_signedInf32]
    exact ⟨rfl, large⟩

/-! ### The floor -/

theorem deliver32_integer (k n : Nat) : deliver32 k (.ratio false (n * 2 ^ 149) 1) = natTof32 n := by
  rw [natTof32, deliver32, FloatFormat.deliver, FloatFormat.withSign_false, binary32_unitExp]

/-- The floor of a number without a minus sign is the conversion of its integer part. -/
theorem f32floor_of_units (k : Nat) {a : F32} {m : Nat} (value : value32 a = .finite false m) :
    f32floor k a = natTof32 (m / 2 ^ 149) := by
  rw [← deliver32_integer k]
  simp only [f32floor, value, binary32_unitExp, Bool.false_eq_true, if_false]

theorem f32floor_of_inf (k : Nat) {a : F32} {neg : Bool} (value : value32 a = .inf neg) : f32floor k a = a := by
  simp only [f32floor, value]

theorem natTof32_toNat (n : Nat) : (natTof32 n).toNat = binary32.roundRatio (n * 2 ^ 149) 1 := by
  rw [← deliver32_integer 0, deliver32_ratio, FloatFormat.withSign_false]

/-- The clamp at 255 sees the integer, also one that the conversion rounds or that overflows. -/
theorem natTof32_ge_twoFiftyFive (n : Nat) : f32ge (natTof32 n) f32TwoFiftyFive = true ↔ 255 ≤ n := by
  have constant : f32TwoFiftyFive = natTof32 255 := by decide
  rcases le_total n (2 ^ 24) with small | large
  · rw [constant, natTof32_ge_iff small (by norm_num)]
  refine iff_of_true ?_ (le_trans (by norm_num) large)
  have above : f32TwoFiftyFive.toNat ≤ (natTof32 n).toNat := by
    rw [constant, natTof32_toNat, natTof32_toNat]
    exact binary32.roundRatio_mono one_pos one_pos
      (Nat.mul_le_mul_right 1 (Nat.mul_le_mul_right _ (le_trans (by norm_num) large)))
  have bounded := binary32.roundRatio_le_infBits (n * 2 ^ 149) 1
  rw [← natTof32_toNat, binary32_infBits] at bounded
  rcases bounded.lt_or_eq with finite | infinite
  · exact (f32le_iff_toNat (by decide) finite).mpr above
  · have infinity : natTof32 n = signedInf32 false := BitVec.eq_of_toNat_eq infinite
    rw [infinity]
    decide

theorem natOfF32_of_units {a : F32} {neg : Bool} {m : Nat} (value : value32 a = .finite neg m) :
    natOfF32 a = m / 2 ^ 149 := by
  simp only [natOfF32, value, binary32_unitExp]

theorem natOfF32_natTof32 {n : Nat} (h : n ≤ 2 ^ 24) : natOfF32 (natTof32 n) = n := by
  obtain ⟨lt, units⟩ := natTof32_units h
  rw [natOfF32_of_units (value32_of_lt lt), units]
  exact Nat.mul_div_cancel n (Nat.two_pow_pos 149)

/-! ### The code of a number that is not negative -/

@[simp] theorem f32Rat_signedZero32 (n : Bool) : f32Rat (signedZero32 n) = 0 := by
  simp [f32Rat_of_units (value32_signedZero32 n)]

theorem f32lt_zero_iff {x : F32} (finite : isFinite32 x = true) : f32lt x f32Zero = true ↔ f32Rat x < 0 := by
  have zero : f32Rat f32Zero = 0 := f32Rat_signedZero32 false
  rw [f32lt_iff finite (by decide), zero]

theorem not_negative_of_nonneg {x : F32} (finite : isFinite32 x = true) (nonneg : 0 ≤ f32Rat x) :
    f32lt x f32Zero = false := by
  rw [← Bool.not_eq_true, f32lt_zero_iff finite, not_lt]
  exact nonneg

/-- A number that is not negative is a zero of either sign, or has no minus sign. -/
theorem zero_or_units_of_nonneg {x : F32} (finite : isFinite32 x = true) (nonneg : 0 ≤ f32Rat x) :
    (∃ n, x = signedZero32 n) ∨ ∃ m : Nat, value32 x = .finite false m ∧ f32Rat x = m / 2 ^ 149 := by
  obtain ⟨m, value, number, zero⟩ := exists_units32 x finite
  cases sign : x.msb
  · rw [sign] at value number
    exact .inr ⟨m, value, number⟩
  · left
    rw [number, sign] at nonneg
    simp only [signed, if_true, neg_div, Left.nonneg_neg_iff] at nonneg
    have units : (m : ℚ) = 0 := by
      have scaled := (div_le_iff₀ (pow_pos two_pos 149)).mp nonneg
      exact le_antisymm (by rwa [zero_mul] at scaled) (Nat.cast_nonneg m)
    exact (isZero32_iff x).mp (zero.mpr (Nat.cast_eq_zero.mp units))

/-- The clamp and the conversion of the floor `n` of the product (R171). -/
theorem encodeCode_of_floor (k : Nat) {x : F32} {n : Nat} (number : isNaN32 x = false)
    (notNegative : f32lt x f32Zero = false)
    (floor : f32floor k (f32mul k x f32TwoFiftySix) = natTof32 n) :
    encodeCode k x = BitVec.ofNat 8 (min 255 n) := by
  have clamp := natTof32_ge_twoFiftyFive n
  simp only [encodeCode, number, notNegative, floor, Bool.false_eq_true, if_false]
  split
  next top => rw [min_eq_left (clamp.mp top)]
  next below =>
    have small : n < 255 := not_le.mp (mt clamp.mpr below)
    rw [natOfF32_natTof32 (by omega), min_eq_right small.le]

/-- An infinite product, of an infinite operand or by overflow, has the top code (R172). -/
theorem encodeCode_of_infinite_product (k : Nat) {x : F32} (number : isNaN32 x = false)
    (notNegative : f32lt x f32Zero = false)
    (product : value32 (f32mul k x f32TwoFiftySix) = .inf false) : encodeCode k x = 255#8 := by
  have constant : value32 f32TwoFiftyFive = .finite false (255 * 2 ^ 149) := by decide
  have top : f32ge (f32mul k x f32TwoFiftySix) f32TwoFiftyFive = true := by
    simp [f32ge, f32le, product, constant, FpValue.le, FpValue.isNumber, FpValue.lt]
  simp only [encodeCode, number, notNegative, f32floor_of_inf k product, top, Bool.false_eq_true, if_false, if_true]

/-- The code of `m` units. -/
theorem encodeCode_of_units (k : Nat) {x : F32} {m : Nat} (finite : isFinite32 x = true)
    (notNegative : f32lt x f32Zero = false) (value : value32 x = .finite false m) :
    encodeCode k x = BitVec.ofNat 8 (min 255 (m * 256 / 2 ^ 149)) := by
  have number := isNaN32_of_finite x finite
  rcases value32_scaled k finite value with exactProduct | ⟨overflow, large⟩
  · exact encodeCode_of_floor k number notNegative (f32floor_of_units k exactProduct)
  · have clamped : 255 ≤ m * 256 / 2 ^ 149 := by
      rw [Nat.le_div_iff_mul_le (Nat.two_pow_pos _)]
      exact le_trans (by decide +kernel) large
    rw [encodeCode_of_infinite_product k number notNegative overflow, min_eq_left clamped]

/-- The code is `min(255, floor(256 x))` on real numbers (R172). -/
theorem encodeCode_toNat (k : Nat) {x : F32} (finite : isFinite32 x = true) (nonneg : 0 ≤ f32Rat x) :
    (encodeCode k x).toNat = min 255 ⌊256 * f32Rat x⌋₊ := by
  rcases zero_or_units_of_nonneg finite nonneg with ⟨n, rfl⟩ | ⟨m, value, number⟩
  · simp
  · have floor : ⌊256 * f32Rat x⌋₊ = m * 256 / 2 ^ 149 := by
      have ratio : 256 * f32Rat x = ((m * 256 : ℕ) : ℚ) / ((2 ^ 149 : ℕ) : ℚ) := by
        rw [number, Nat.cast_mul, Nat.cast_pow, mul_comm, div_mul_eq_mul_div, Nat.cast_ofNat, Nat.cast_ofNat]
      rw [ratio, Nat.floor_div_eq_div]
    rw [encodeCode_of_units k finite (not_negative_of_nonneg finite nonneg) value, floor, BitVec.toNat_ofNat]
    exact Nat.mod_eq_of_lt ((min_le_left _ _).trans_lt (by norm_num))

theorem encodeCode_posInf (k : Nat) : encodeCode k (signedInf32 false) = 255#8 := by
  obtain ⟨-, -, -, -, product, -⟩ := f32_inf_finite k false f32TwoFiftySix (by decide)
  obtain ⟨scaled, -⟩ := product (by decide)
  refine encodeCode_of_infinite_product k (by decide) (by decide) ?_
  rw [scaled]
  exact value32_signedInf32 false

end Sys2Proof.Machine
end

section
/-! The commands `ENC` and `DEC` (R175, R176): their whole next states, and that codes survive the way to a value and
back. -/

namespace Sys2Proof.Machine

theorem exec_enc (x : F32) (s : State) :
    exec (.enc x) s = .next { s with
      errstat := s.errstat ||| encodeFlags x, draws := s.draws + 1, rsps := codeRsp (encodeCode s.draws x) :: s.rsps } :=
  rfl

theorem exec_dec (c : BitVec 8) (s : State) :
    exec (.dec c) s = .next { s with rsps := ⟨3#4, (decodeCode c).setWidth 64⟩ :: s.rsps } := rfl

theorem encodeFlags_of_not_negative {x : F32} (number : isNaN32 x = false) (notNegative : f32lt x f32Zero = false) :
    encodeFlags x = 0#6 := by
  simp [encodeFlags, number, notNegative]

/-- `ENC` of a number that is not negative only answers (R175). -/
theorem exec_enc_of_not_negative {x : F32} (number : isNaN32 x = false) (notNegative : f32lt x f32Zero = false)
    (s : State) :
    exec (.enc x) s = .next { s with draws := s.draws + 1, rsps := codeRsp (encodeCode s.draws x) :: s.rsps } := by
  rw [exec_enc, encodeFlags_of_not_negative number notNegative, BitVec.or_zero]

theorem codeRsp_eq (c : BitVec 8) : codeRsp c = ⟨4#4, BitVec.ofNat 64 c.toNat⟩ := by
  rw [codeRsp, BitVec.ofNat_toNat]

/-- Settles O42: the product by 256 is exact, and the infinite products have the top code. -/
theorem encIsClampedFloor : Obligations.EncIsClampedFloor := by
  refine ⟨fun s x finite nonneg => ⟨s.draws + 1, ?_⟩, fun s => ⟨s.draws + 1, ?_⟩⟩
  · rw [exec_enc_of_not_negative (isNaN32_of_finite x finite) (not_negative_of_nonneg finite nonneg), codeRsp_eq,
      encodeCode_toNat _ finite nonneg, Int.floor_toNat]
  · have top : encodeCode s.draws 0x7F800000#32 = 255#8 := encodeCode_posInf s.draws
    rw [exec_enc_of_not_negative (by decide) (by decide), top]
    rfl

/-- Below zero are the numbers with a minus sign that are no zeros. -/
theorem negative_of_msb {x : F32} (number : isNaN32 x = false) (sign : x.msb = true) (nonzero : isZero32 x = false) :
    f32lt x f32Zero = true := by
  cases finite : isFinite32 x
  · have value := value32_inf x finite number
    rw [f32lt, value, sign]
    decide
  · obtain ⟨m, -, rat, zero⟩ := exists_units32 x finite
    have units : m ≠ 0 := mt zero.mpr (by simp [nonzero])
    rw [f32lt_zero_iff finite, rat, sign, div_neg_iff]
    right
    exact ⟨(signed_neg_iff true (Nat.cast_pos.mpr (Nat.pos_of_ne_zero units))).mpr rfl, pow_pos two_pos 149⟩

/-- Settles O43, by the two tests that `Encode` makes first. -/
theorem encOfNegativeAndNaN : Obligations.EncOfNegativeAndNaN := by
  refine ⟨fun s x number sign nonzero => ⟨s.draws + 1, ?_⟩, fun s x nan => ⟨s.draws + 1, encodeCode s.draws x, ?_⟩⟩
  · have negative := negative_of_msb number sign nonzero
    have flags : encodeFlags x = flagNeg := by simp [encodeFlags, number, negative]
    have code : encodeCode s.draws x = 0#8 := by simp [encodeCode, number, negative]
    rw [exec_enc, flags, code]
    rfl
  · have flags : encodeFlags x = flagNonfin := by simp [encodeFlags, nan]
    rw [exec_enc, flags]
    rfl

/-! ### Monotony (R174) -/

theorem eq_signedInf32 {a : F32} (infinite : isFinite32 a = false) (number : isNaN32 a = false) :
    a = signedInf32 a.msb := by
  have notBelow : ¬ a.toNat % 0x80000000 < 0x7F800000 := by rw [← isFinite32_iff, infinite]; decide
  have notAbove : ¬ 0x7F800000 < a.toNat % 0x80000000 := by rw [← isNaN32_iff, number]; decide
  have rest : a.toNat % 0x80000000 = 0x7F800000 := by omega
  apply BitVec.eq_of_toNat_eq
  rw [toNat_withSign32 a, rest]
  cases a.msb <;> rfl

/-- What is at least zero is a finite number that is not negative, or the infinity of sign 0. -/
theorem nonneg_or_posInf {x : F32} (h : f32ge x f32Zero = true) :
    isFinite32 x = true ∧ 0 ≤ f32Rat x ∨ x = signedInf32 false := by
  have number := (not_nan_of_f32le h).2
  cases finite : isFinite32 x
  · obtain ⟨-, -, below, -⟩ := compare_finite_inf (a := f32Zero) (by decide) x.msb
    rw [f32ge, eq_signedInf32 finite number, below, Bool.not_eq_true'] at h
    right
    rw [eq_signedInf32 finite number, h]
  · rw [f32ge, f32le_iff (by decide) finite] at h
    exact .inl ⟨rfl, (f32Rat_signedZero32 false).symm.trans_le h⟩

/-- What is at least such an operand and is not finite is the infinity of sign 0. -/
theorem eq_posInf_of_le {x y : F32} (hx : f32ge x f32Zero = true) (h : f32le x y = true)
    (infinite : isFinite32 y = false) : y = signedInf32 false := by
  have infinity := eq_signedInf32 infinite (not_nan_of_f32le h).2
  rw [infinity] at h ⊢
  rcases nonneg_or_posInf hx with ⟨finite, -⟩ | rfl
  · obtain ⟨-, -, below, -⟩ := compare_finite_inf finite y.msb
    rw [below, Bool.not_eq_true'] at h
    rw [h]
  · rw [(compare_inf_inf false y.msb).2, Bool.false_or, Bool.not_eq_true'] at h
    rw [h]

theorem encodeCode_mono (k k' : Nat) {x y : F32} (hx : f32ge x f32Zero = true) (h : f32le x y = true) :
    (encodeCode k x).toNat ≤ (encodeCode k' y).toNat := by
  cases finite : isFinite32 y
  · rw [eq_posInf_of_le hx h finite, encodeCode_posInf]
    exact Nat.le_of_lt_succ (encodeCode k x).isLt
  · rcases nonneg_or_posInf hx with ⟨xFinite, nonneg⟩ | rfl
    · have le := (f32le_iff xFinite finite).mp h
      rw [encodeCode_toNat k xFinite nonneg, encodeCode_toNat k' finite (nonneg.trans le)]
      exact min_le_min_left 255 (Nat.floor_mono (mul_le_mul_of_nonneg_left le (by norm_num)))
    · obtain ⟨-, -, -, above⟩ := compare_finite_inf finite false
      rw [above] at h
      cases h

/-- The threshold of the code `c` (R174). -/
theorem le_encodeCode_iff (k : Nat) {x : F32} {c : Nat} (finite : isFinite32 x = true) (nonneg : 0 ≤ f32Rat x)
    (h : c ≤ 255) : c ≤ (encodeCode k x).toNat ↔ (c : ℚ) / 256 ≤ f32Rat x := by
  rw [encodeCode_toNat k finite nonneg, le_min_iff, and_iff_right h, Nat.le_floor_iff (by positivity),
    div_le_iff₀' (by norm_num)]

/-- Settles O44: the floor is monotone, and at least `c` exactly from `c` on. -/
theorem encodeIsMonotone : Obligations.EncodeIsMonotone :=
  ⟨fun k k' _ _ hx h => encodeCode_mono k k' hx h, fun k _ _ finite nonneg h => le_encodeCode_iff k finite nonneg h⟩

/-! ### The decoder (R176) -/

theorem decodeCode_rounds (c : BitVec 8) : RoundsTo32 (decodeCode c) (c.toNat / 255) := by
  obtain ⟨finite, number⟩ := integerConversionsAreExact.1 c
  have constant : f32TwoFiftyFive = natTof32 255 := by decide
  have divisor : f32Rat f32TwoFiftyFive = 255 := by rw [constant, (natTof32_exact 255 (by norm_num)).2]; rfl
  have quotient := f32div_rounds 0 finite (b := f32TwoFiftyFive) (by decide) (by decide)
  rwa [number, divisor] at quotient

/-- A quotient of at most 1 is far from the rounding limit. -/
theorem decodeCode_nearest (c : BitVec 8) : isFinite32 (decodeCode c) = true ∧ ∀ y : F32, isFinite32 y = true →
    |f32Rat (decodeCode c) - c.toNat / 255| ≤ |f32Rat y - c.toNat / 255| := by
  have code : (c.toNat : ℚ) ≤ 255 := by exact_mod_cast Nat.le_of_lt_succ c.isLt
  have small : |(c.toNat : ℚ) / 255| < roundLimit32 := by
    rw [abs_of_nonneg (by positivity)]
    calc (c.toNat : ℚ) / 255 ≤ 1 := (div_le_one (by norm_num)).mpr code
      _ < roundLimit32 := by norm_num [roundLimit32]
  obtain ⟨belowLimit, -, -⟩ := decodeCode_rounds c
  obtain ⟨finite, nearest⟩ := belowLimit small
  exact ⟨finite, fun y hy => (nearest y hy).1⟩

/-- Settles O45: the one division rounds the quotient to nearest. -/
theorem decIsNearestQuotient : Obligations.DecIsNearestQuotient := fun c =>
  have ⟨finite, nearest⟩ := decodeCode_nearest c
  ⟨decodeCode c, finite, nearest, exec_dec c⟩

/-! ### The round trip (R178) -/

/-- The multiples of `2^-24` below 1 are binary32 numbers. -/
theorem exists_f32Rat_eq {n : Nat} (h : n < 2 ^ 24) : ∃ y : F32, isFinite32 y = true ∧ f32Rat y = n / 2 ^ 24 := by
  obtain ⟨b, units, le⟩ := binary32.exists_mag_eq n 125 h (by decide)
  obtain ⟨finite, -, number⟩ := ofNat32_finite (le.trans_lt (by decide : _ < binary32.infBits))
  refine ⟨BitVec.ofNat 32 b, finite, ?_⟩
  rw [number, units, Nat.cast_mul, Nat.cast_pow, Nat.cast_ofNat, show (149 : ℕ) = 24 + 125 from rfl, pow_add,
    mul_div_mul_right _ _ (pow_ne_zero _ two_ne_zero)]

/-- What is at least as near to `v` as `y` is not on the far side of `y`. -/
theorem le_of_nearer {d v y : ℚ} (near : |d - v| ≤ |y - v|) (h : y ≤ v) : y ≤ d := by
  rw [abs_of_nonpos (sub_nonpos.mpr h)] at near
  linarith [neg_abs_le (d - v)]

theorem ge_of_nearer {d v y : ℚ} (near : |d - v| ≤ |y - v|) (h : v ≤ y) : d ≤ y := by
  rw [abs_of_nonneg (sub_nonneg.mpr h)] at near
  linarith [le_abs_self (d - v)]

/-- The value of a code is at least the code's threshold, which is a binary32 number. -/
theorem threshold_le_decodeCode (c : BitVec 8) : (c.toNat : ℚ) / 256 ≤ f32Rat (decodeCode c) := by
  have code := c.isLt
  obtain ⟨y, finite, number⟩ := exists_f32Rat_eq (n := c.toNat * 2 ^ 16) (by omega)
  have threshold : f32Rat y = c.toNat / 256 := by
    rw [number, Nat.cast_mul]
    norm_num
    ring
  have near := (decodeCode_nearest c).2 y finite
  rw [threshold] at near
  exact le_of_nearer near (by gcongr; norm_num)

/-- The value of a code is below the next code's threshold: `2^-24` below it there is a binary32 number that is still
at least `c/255`. -/
theorem decodeCode_lt_threshold (c : BitVec 8) (h : c.toNat < 255) :
    f32Rat (decodeCode c) < ((c.toNat : ℚ) + 1) / 256 := by
  obtain ⟨y, finite, number⟩ := exists_f32Rat_eq (n := (c.toNat + 1) * 2 ^ 16 - 1) (by omega)
  have justBelow : f32Rat y = (c.toNat + 1) / 256 - 1 / 2 ^ 24 := by
    rw [number, Nat.cast_sub (by omega), Nat.cast_mul]
    push_cast
    ring
  have code : (c.toNat : ℚ) ≤ 254 := by exact_mod_cast Nat.le_of_lt_succ h
  have near := (decodeCode_nearest c).2 y finite
  rw [justBelow] at near
  have le := ge_of_nearer near (by linarith)
  linarith

theorem decodeCode_nonneg (c : BitVec 8) : 0 ≤ f32Rat (decodeCode c) :=
  le_trans (by positivity) (threshold_le_decodeCode c)

/-- A code comes back from its value (R178). -/
theorem encodeCode_decodeCode (k : Nat) (c : BitVec 8) : encodeCode k (decodeCode c) = c := by
  have code := Nat.le_of_lt_succ c.isLt
  have finite := (decodeCode_nearest c).1
  have nonneg := decodeCode_nonneg c
  have reached := (le_encodeCode_iff k finite nonneg code).mpr (threshold_le_decodeCode c)
  apply BitVec.eq_of_toNat_eq
  refine le_antisymm ?_ reached
  by_contra above
  rw [not_le] at above
  have bound := (encodeCode k (decodeCode c)).isLt
  have next := (le_encodeCode_iff k finite nonneg (c := c.toNat + 1) (by omega)).mp above
  rw [Nat.cast_succ] at next
  exact absurd next (not_le.mpr (decodeCode_lt_threshold c (by omega)))

/-- Settles O46: the value of a code lies between the code's threshold and the next one. -/
theorem codesSurviveRoundTrip : Obligations.CodesSurviveRoundTrip := by
  refine ⟨fun c => ⟨decodeCode c, exec_dec c, fun s => ⟨s.draws + 1, ?_⟩⟩, fun s => ⟨?_, ?_⟩⟩
  · have finite := (decodeCode_nearest c).1
    rw [exec_enc_of_not_negative (isNaN32_of_finite _ finite) (not_negative_of_nonneg finite (decodeCode_nonneg c)),
      encodeCode_decodeCode]
    rfl
  · have zero : decodeCode 0x00#8 = 0x00000000#32 := by decide
    rw [exec_dec, zero]
    rfl
  · have one : decodeCode 0xFF#8 = 0x3F800000#32 := by decide
    rw [exec_dec, one]
    rfl

end Sys2Proof.Machine
end

section
/-! Errors (R186 to R190): which commands are rejected and with which error is a function of the phase and the
configuration alone, and a rejected command is one `raiseErr`. -/

namespace Sys2Proof.Machine

/-! ### Error codes (Table R186) -/

theorem ErrCode.eq_phase_of_number {e : ErrCode} (h : e.number = 0x02#8) : e = .phase := by
  cases e with
  | phase => rfl
  | _ => exact absurd h (by decide)

/-- The sticky bit of code `n + 1` is bit `n`. -/
theorem ErrCode.exists_bit (e : ErrCode) :
    ∃ n : Nat, n < 4 ∧ e.number = BitVec.ofNat 8 (n + 1) ∧ e.mask = 1#6 <<< n := by
  cases e with
  | illegal => exact ⟨0, by decide⟩
  | phase => exact ⟨1, by decide⟩
  | index => exact ⟨2, by decide⟩
  | config => exact ⟨3, by decide⟩

/-! ### The errors of a command -/

/-- The phases in which a command is taken (R187). -/
def phaseAccepts (p : BitVec 2) : Instr → Bool
  | .wr _ _ | .init => p == phaseIdle
  | .push _ | .flush => p == phaseRun
  | .rst | .rd _ | .enc _ | .dec _ => true

/-- The error, with its detail, that a command taken in its phase raises for its index or the configuration (R188,
R94). -/
def operandError (c : Cfg) : Instr → Option (ErrCode × BitVec 8)
  | .wr idx _ => if writableIndex idx then none else some (.index, idx)
  | .rd idx => if assignedIndex idx then none else some (.index, idx)
  | .init => if validate c = 0#6 then none else some (.config, (validate c).setWidth 8)
  | .rst | .push _ | .flush | .enc _ | .dec _ => none

/-- The error that a command raises: the phase is checked first (R195). -/
def commandError (s : State) (i : Instr) : Option (ErrCode × BitVec 8) :=
  if phaseAccepts s.phase i then operandError s.cfg i else some (.phase, s.phase.setWidth 8)

/-- The error that a word raises: the encoding is checked before everything else (R78, R81). -/
def wordError (s : State) (w : Cmd) : Option (ErrCode × BitVec 8) :=
  match decode w with
  | .ok i => commandError s i
  | .error _ => some (.illegal, opField w)

theorem commandError_of_accepted {s : State} {i : Instr} (accepted : phaseAccepts s.phase i = true) :
    commandError s i = operandError s.cfg i := if_pos accepted

theorem operandError_ne_phase {c : Cfg} {i : Instr} {e : ErrCode} {d : BitVec 8}
    (h : operandError c i = some (e, d)) : e ≠ .phase := by
  rintro rfl
  cases i <;> simp [operandError] at h

/-- Raising an error changes nothing that a check looks at. -/
theorem wordError_raiseErr (s : State) (e : ErrCode) (d : BitVec 8) (w : Cmd) :
    wordError (raiseErr s e d) w = wordError s w := rfl

/-! ### What a rejected command does -/

theorem exec_of_phase_not_accepted {s : State} {i : Instr} (h : phaseAccepts s.phase i = false) :
    exec i s = .next (raisePhase s) := by
  cases i with
  | wr idx data => exact if_pos (beq_eq_false_iff_ne.mp h)
  | init => exact if_pos (beq_eq_false_iff_ne.mp h)
  | push x => exact if_pos (beq_eq_false_iff_ne.mp h)
  | flush => exact if_pos (beq_eq_false_iff_ne.mp h)
  | _ => cases h

theorem exec_rd_of_unassigned {i : BitVec 8} (unassigned : assignedIndex i = false) (s : State) :
    exec (.rd i) s = .next (raiseErr s .index i) := by
  have hole : Reg.ofIndex i = none := by
    rw [← Option.isNone_iff_eq_none, ← Option.not_isSome, Reg.isSome_ofIndex, unassigned, Bool.not_false]
  change execRd i s = _
  rw [execRd, hole]

/-- A hole and a read-only register are rejected alike (R188). -/
theorem exec_wr_of_not_writable {s : State} {i : BitVec 8} (idle : s.phase = phaseIdle)
    (readOnly : writableIndex i = false) (data : F32) : exec (.wr i data) s = .next (raiseErr s .index i) := by
  change execWr i data s = _
  rw [execWr, if_neg (not_not.mpr idle)]
  cases named : Reg.ofIndex i with
  | none => rfl
  | some r =>
    have fixed : r.writable = false := by
      rw [r.writable_eq_writableIndex, (Reg.ofIndex_eq_some_iff i r).mp named, readOnly]
    simp [fixed]

theorem exec_of_operandError {s : State} {i : Instr} {e : ErrCode} {d : BitVec 8}
    (accepted : phaseAccepts s.phase i = true) (h : operandError s.cfg i = some (e, d)) :
    exec i s = .next (raiseErr s e d) := by
  cases i with
  | wr idx data =>
    obtain ⟨readOnly, rfl, rfl⟩ : writableIndex idx = false ∧ ErrCode.index = e ∧ idx = d := by
      simpa [operandError] using h
    exact exec_wr_of_not_writable (beq_iff_eq.mp accepted) readOnly data
  | rd idx =>
    obtain ⟨unassigned, rfl, rfl⟩ : assignedIndex idx = false ∧ ErrCode.index = e ∧ idx = d := by
      simpa [operandError] using h
    exact exec_rd_of_unassigned unassigned s
  | init =>
    obtain ⟨invalid, rfl, rfl⟩ : validate s.cfg ≠ 0#6 ∧ ErrCode.config = e ∧ (validate s.cfg).setWidth 8 = d := by
      simpa [operandError] using h
    exact exec_init_of_invalid (beq_iff_eq.mp accepted) invalid
  | _ => cases h

theorem exec_of_commandError {s : State} {i : Instr} {e : ErrCode} {d : BitVec 8}
    (h : commandError s i = some (e, d)) : exec i s = .next (raiseErr s e d) := by
  cases accepted : phaseAccepts s.phase i
  · rw [commandError, accepted] at h
    cases h
    exact exec_of_phase_not_accepted accepted
  · exact exec_of_operandError accepted (commandError_of_accepted accepted ▸ h)

theorem acceptWord_of_wordError {s : State} {w : Cmd} {e : ErrCode} {d : BitVec 8} (h : wordError s w = some (e, d)) :
    acceptWord w s = .next (raiseErr s e d) := by
  cases decoded : decode w with
  | ok i =>
    rw [wordError, decoded] at h
    rw [acceptWord_of_decode decoded]
    exact exec_of_commandError h
  | error _ =>
    rw [wordError, decoded] at h
    cases h
    rw [acceptWord, decoded]

/-! ### The answer of a command that raises no error -/

/-- The response that the outcome adds to those of `s` is no `ERR`. -/
def AnswersNoErr (s : State) (o : Outcome) : Prop := ∀ t r, o = .next t → t.rsps = r :: s.rsps → r.kind ≠ 15#4

theorem answersNoErr_respond (s u : State) {r : Response} (noErr : r.kind ≠ 15#4) :
    AnswersNoErr s (.next (u.respond r)) := by
  rintro t q ⟨⟩ rsps
  rwa [← (List.cons.inj rsps).1]

theorem boundary_noErr (s : State) : (boundary s).1.kind ≠ 15#4 := by
  cases crossed : f32ge s.pend s.spb
  · rw [boundary_of_not_ge crossed]
    simp [noneRsp]
  · rw [boundary_of_ge crossed]
    simp [binRsp]

theorem flushWindow_noErr (s : State) : (flushWindow s).1.kind ≠ 15#4 := by
  by_cases empty : s.nacc = 0#32
  · rw [flushWindow_of_empty empty]
    simp [noneRsp]
  · rw [flushWindow_of_samples empty]
    simp [binRsp]

theorem answersNoErr_of_accepted {s : State} {i : Instr} (accepted : phaseAccepts s.phase i = true)
    (h : operandError s.cfg i = none) : AnswersNoErr s (exec i s) := by
  cases i with
  | rst => exact answersNoErr_respond s _ (by simp [ackRsp])
  | wr idx data =>
    obtain ⟨r, named, writable⟩ := Reg.exists_of_writableIndex (i := idx) (by simpa [operandError] using h)
    rw [exec_wr_of_idle (beq_iff_eq.mp accepted) named writable]
    exact answersNoErr_respond s _ (by simp [ackRsp])
  | rd idx =>
    obtain ⟨r, named⟩ := Reg.exists_of_assignedIndex (i := idx) (by simpa [operandError] using h)
    rw [exec_rd_of_ofIndex named]
    exact answersNoErr_respond s _ (by simp [dataRsp])
  | init =>
    rw [exec_init_of_valid (beq_iff_eq.mp accepted) (by simpa [operandError] using h)]
    exact answersNoErr_respond s _ (by simp [ackRsp])
  | push x =>
    rw [exec_push_of_run (beq_iff_eq.mp accepted)]
    exact answersNoErr_respond s _ (boundary_noErr s)
  | flush =>
    rw [exec_flush_of_run (beq_iff_eq.mp accepted)]
    exact answersNoErr_respond s _ (flushWindow_noErr s)
  | enc x => exact answersNoErr_respond s _ (by simp [codeRsp])
  | dec code => exact answersNoErr_respond s _ (by simp [dataRsp])

theorem answersNoErr_exec {s : State} {i : Instr} (h : commandError s i = none) : AnswersNoErr s (exec i s) := by
  cases accepted : phaseAccepts s.phase i
  · rw [commandError, accepted] at h
    cases h
  · exact answersNoErr_of_accepted accepted (commandError_of_accepted accepted ▸ h)

theorem answersNoErr_acceptWord {s : State} {w : Cmd} (h : wordError s w = none) :
    AnswersNoErr s (acceptWord w s) := by
  cases decoded : decode w with
  | ok i =>
    rw [wordError, decoded] at h
    rw [acceptWord_of_decode decoded]
    exact answersNoErr_exec h
  | error _ =>
    rw [wordError, decoded] at h
    cases h

/-! ### The statements -/

/-- Settles O16: the index is checked where the phase is right, and in `RUN` a `WR` does not come that far. -/
theorem indexFault : Obligations.IndexFault := by
  refine ⟨fun s i unassigned => exec_rd_of_unassigned unassigned s,
    fun s i d idle readOnly => exec_wr_of_not_writable idle readOnly d, fun s i d run => ?_⟩
  have detail : s.phase.setWidth 8 = 1#8 := by rw [run]; rfl
  rw [exec_of_phase_not_accepted (by rw [run]; rfl), raisePhase, detail]
  rfl

/-- Settles O17: a command that its phase accepts raises no error, or one of another code. -/
theorem phaseTable : Obligations.PhaseTable := by
  intro s i accepted
  have table : accepted = phaseAccepts s.phase i := by cases i <;> rfl
  rw [table]
  refine ⟨exec_of_phase_not_accepted, ?_⟩
  rintro taken t r executed rsps ⟨errKind, phaseCode⟩
  cases error : operandError s.cfg i with
  | none => exact answersNoErr_of_accepted taken error t r executed rsps errKind
  | some raised =>
    obtain ⟨e, d⟩ := raised
    cases (exec_of_operandError taken error).symm.trans executed
    obtain rfl : errRsp e d = r := (List.cons.inj rsps).1
    rw [errRsp_code] at phaseCode
    exact operandError_ne_phase error (ErrCode.eq_phase_of_number phaseCode)

/-- Settles O18: an `ERR` answer comes from `raiseErr`, after which every check goes as before. -/
theorem rejectedCommandOnlySetsItsBit : Obligations.RejectedCommandOnlySetsItsBit := by
  intro s t w rest d input stepped rsps
  rw [step_of_command input] at stepped
  cases error : wordError { s with inputs := rest } w with
  | none => exact absurd rfl (answersNoErr_acceptWord error t _ stepped rsps)
  | some raised =>
    obtain ⟨e, detail⟩ := raised
    cases (acceptWord_of_wordError error).symm.trans stepped
    obtain rfl : (errRsp e detail).data = d := congrArg Response.data (List.cons.inj rsps).1
    obtain ⟨n, below, number, mask⟩ := e.exists_bit
    refine ⟨⟨n, below, (errRsp_code e detail).trans number, extractLsb'_setWidth_eq_zero (detail ++ e.number) 48, ?_⟩,
      _, acceptWord_of_wordError ((wordError_raiseErr _ e detail w).trans error), rfl⟩
    rw [← mask]
    rfl

end Sys2Proof.Machine
end

section
/-! The step as a whole: the idle block (R211), and several blocks side by side (R207). -/

namespace Sys2Proof.Machine

/-- Settles O11: no input, no change. -/
theorem idleBlockKeepsEverything : Obligations.IdleBlockKeepsEverything := fun _ => step_of_no_input

/-- The block never stops: every error is a response (R190, R225). -/
theorem exists_step (s : State) : ∃ t, step s = .next t := by
  cases inputs : s.inputs with
  | nil => exact ⟨s, step_of_no_input inputs⟩
  | cons input rest =>
    cases input with
    | reset => exact ⟨_, step_of_reset inputs⟩
    | command w =>
      obtain ⟨t, -, accepted, -⟩ := answersOnce_acceptWord w { s with inputs := rest }
      exact ⟨t, (step_of_command inputs).trans accepted⟩

theorem stepBlock_of_step {blocks : List State} {i : Nat} {s t : State} (block : blocks[i]? = some s)
    (stepped : step s = .next t) : stepBlock i blocks = .next (blocks.set i t) := by
  simp only [stepBlock, block, stepped]

/-- Settles O60: the step of block `i` replaces entry `i` of the list. -/
theorem blocksAreIndependent : Obligations.BlocksAreIndependent := by
  intro blocks i s block
  obtain ⟨t, stepped⟩ := exists_step s
  obtain ⟨inside, -⟩ := List.getElem?_eq_some_iff.mp block
  exact ⟨t, blocks.set i t, stepped, stepBlock_of_step block stepped, List.getElem?_set_self inside,
    List.length_set, fun j other => List.getElem?_set_ne other.symm⟩

end Sys2Proof.Machine
end

section
/-! The reset input at the ports (R215): in any stage it leaves a recovering block. -/

namespace Sys2Proof.Machine

/-- The block that a reset edge leaves, but for its handshake: the registers reset, the cycles to `cmd_ready` drawn. -/
def PortBlock.cleared (b : PortBlock) : PortBlock := { b with regs := resetRegisters b.regs, waits := b.waits + 1 }

/-- A reset block recovers as after a delivered response, one edge later: the first edge with `rst` = 0 (R215). -/
theorem PortBlock.reset_eq (b : PortBlock) : b.reset = b.cleared.recover (Config.readyCycles b.waits + 1) := rfl

/-- Settles O59: a reset leaves a recovering block, which counts its cycles down whatever the host does. -/
theorem portResetOverrides : Obligations.PortResetOverrides := by
  intro b i rst
  have edge : b.cycle i = b.cleared.recover (Config.readyCycles b.waits + 1) := by
    rw [PortBlock.cycle_rst b i rst, PortBlock.reset_eq]
  have regs : (b.cycle i).regs = resetRegisters b.regs := by rw [edge, PortBlock.recover_regs]; rfl
  refine ⟨fun r => by rw [regs, readReg_resetRegisters], by rw [regs, resetRegisters_rsps],
    by simp [edge], by rw [edge, PortBlock.recover_rspOut], fun is ups few => ?_⟩
  have after : PortBlock.cycles (i :: is) b = _ := (congrArg (PortBlock.cycles is) edge).trans
    (PortBlock.cycles_recover is ups _ _ few)
  rw [after, edge]
  exact ⟨PortBlock.recover_rspOut .., by simp only [PortBlock.recover_regs], fun all => by simp [all]⟩

end Sys2Proof.Machine
end

section
/-! The configuration registers (R221): exchanging them commutes with what `PUSH`, `FLUSH`, `ENC` and `DEC` do. -/

namespace Sys2Proof.Machine

/-- The same state with another configuration. -/
def State.withCfg (s : State) (c : Cfg) : State := { s with cfg := c }

@[simp] theorem State.withCfg_spb (s : State) (c : Cfg) : (s.withCfg c).spb = s.spb := rfl
@[simp] theorem State.withCfg_pend (s : State) (c : Cfg) : (s.withCfg c).pend = s.pend := rfl
@[simp] theorem State.withCfg_nacc (s : State) (c : Cfg) : (s.withCfg c).nacc = s.nacc := rfl

theorem State.respond_withCfg (s : State) (r : Response) (c : Cfg) :
    (s.withCfg c).respond r = (s.respond r).withCfg c := rfl

theorem finishAll_withCfg (s : State) (c : Cfg) :
    finishAll (s.withCfg c) = ((finishAll s).1, (finishAll s).2.withCfg c) := by
  rw [finishAll_eq, finishAll_eq]
  rfl

theorem carryResidual_withCfg (s : State) (c : Cfg) :
    carryResidual (s.withCfg c) = (carryResidual s).withCfg c := rfl

theorem boundary_withCfg (s : State) (c : Cfg) :
    boundary (s.withCfg c) = ((boundary s).1, (boundary s).2.withCfg c) := by
  cases crossed : f32ge s.pend s.spb
  · rw [boundary_of_not_ge crossed, boundary_of_not_ge (by simpa using crossed)]
  · rw [boundary_of_ge crossed, boundary_of_ge (by simpa using crossed), carryResidual_withCfg,
      finishAll_withCfg]

theorem flushWindow_withCfg (s : State) (c : Cfg) :
    flushWindow (s.withCfg c) = ((flushWindow s).1, (flushWindow s).2.withCfg c) := by
  by_cases empty : s.nacc = 0#32
  · rw [flushWindow_of_empty empty, flushWindow_of_empty (by simpa using empty)]
  · rw [flushWindow_of_samples empty, flushWindow_of_samples (by simpa using empty), finishAll_withCfg]

theorem feed_withCfg (x : F32) (s : State) (c : Cfg) : feed x (s.withCfg c) = (feed x s).withCfg c := by
  rw [feed_eq, feed_eq, bankStep_setFlags, bankStep_setFlags, accumulate_eq, accumulate_eq]
  rfl

/-! ### The commands -/

/-- In a phase that does not take the command, both states answer the same error. -/
theorem exec_withCfg_of_phase_not_accepted {s t : State} {i : Instr} (refused : phaseAccepts s.phase i = false)
    (c : Cfg) (executed : exec i s = .next t) : exec i (s.withCfg c) = .next (t.withCfg c) := by
  cases (exec_of_phase_not_accepted refused).symm.trans executed
  exact exec_of_phase_not_accepted refused

theorem exec_push_withCfg {s t : State} {x : F32} (c : Cfg) (executed : exec (.push x) s = .next t) :
    exec (.push x) (s.withCfg c) = .next (t.withCfg c) := by
  cases accepted : phaseAccepts s.phase (.push x)
  · exact exec_withCfg_of_phase_not_accepted accepted c executed
  · have run : s.phase = phaseRun := beq_iff_eq.mp accepted
    cases (exec_push_of_run run x).symm.trans executed
    rw [exec_push_of_run (s := s.withCfg c) run, boundary_withCfg, feed_withCfg, State.respond_withCfg]

theorem exec_flush_withCfg {s t : State} (c : Cfg) (executed : exec .flush s = .next t) :
    exec .flush (s.withCfg c) = .next (t.withCfg c) := by
  cases accepted : phaseAccepts s.phase .flush
  · exact exec_withCfg_of_phase_not_accepted accepted c executed
  · have run : s.phase = phaseRun := beq_iff_eq.mp accepted
    cases (exec_flush_of_run run).symm.trans executed
    rw [exec_flush_of_run (s := s.withCfg c) run, flushWindow_withCfg]
    rfl

/-- Settles O40, command by command: `ENC` touches no register but `ERRSTAT`, and `DEC` none. -/
theorem configurationDoesNotReachStream : Obligations.ConfigurationDoesNotReachStream := by
  rintro s t c i (⟨x, rfl⟩ | rfl | ⟨x, rfl⟩ | ⟨d, rfl⟩) executed
  case inl => exact exec_push_withCfg c executed
  case inr.inl => exact exec_flush_withCfg c executed
  case inr.inr.inl =>
    cases (exec_enc x s).symm.trans executed
    exact exec_enc x (s.withCfg c)
  case inr.inr.inr =>
    cases (exec_dec d s).symm.trans executed
    exact exec_dec d (s.withCfg c)

end Sys2Proof.Machine
end
